-- ==== Sys2Proof/Word.lean ====
section
/-! DEFINITION. The units of data of hex_encoder: a byte (R5: every buffer element is an 8-bit value)
and a nibble (R122: a byte splits into two nibbles). Lengths and indices are exact naturals (R123)
and are plain `Nat`. -/

namespace Sys2Proof

/-- One element of a buffer, an unsigned 8-bit value (R5). -/
abbrev Byte := BitVec 8

/-- Half a byte: the value of one hexadecimal digit, 0 to 15 (R118, R122). -/
abbrev Nibble := BitVec 4

end Sys2Proof
end

