-- ==== Sys2Proof/Config.lean ====
section
/-! DEFINITION. What an implementation fixes (R6), the constants the source fixes (R5), and the free
values: constants with no body for the values the spec leaves unspecified (U3, U4, U5). -/

namespace Sys2Proof.Config

/-- The parameters the source leaves open (R6, U8): the capacities of the two buffers in bytes and the
width of the length registers. State holds them as read-only data, so every statement is about all
values of them (log 1). -/
structure Params where
  /-- SRC_CAP: capacity of the source buffer. -/
  srcCap : Nat
  /-- DST_CAP: capacity of the destination buffer. -/
  dstCap : Nat
  /-- LENW: width in bits of SRC_LEN, DST_LEN, SRC_CAP, DST_CAP. -/
  lenw : Nat
  deriving DecidableEq, Repr

/-- The reference values of R6. DESIGN CHOICE (log 1): `State.reset` holds these. -/
def reference : Params := { srcCap := 1024, dstCap := 4096, lenw := 16 }

/-- RUN_MAX (R5): the largest count the run-length encoder emits. -/
def runMax : Nat := 250

/-- Free value (U3, log 3): the byte that SRC holds at an index until it is first written; one arbitrary
but fixed byte per cell. -/
opaque powerUpSrc : Nat → Byte

/-- Free value (U3, log 3): the byte that DST holds at an index until it is first written. -/
opaque powerUpDst : Nat → Byte

/-- Free values (U4, U5, log 5, log 6): the value that the n-th unspecified host read delivers, before it
is cut to the width of what was read; independent for each read. -/
opaque unspecifiedRead : Nat → Nat

end Sys2Proof.Config
end

