-- ==== Sys2Proof/Syntax.lean ====
section
/-! DEFINITION. The syntax of hex_encoder: the twelve commands (one constructor per row of
spec/opcode_table.json), the fields of a command word (R90), and the host's seven transactions (R98). -/

namespace Sys2Proof

/-- The twelve legal commands (R95). No command has an operand field (R94). -/
inductive Instr where
  /-- HEXENC, word 0x01 (R140). -/
  | hexenc
  /-- HEXENC.SW, word 0x09 (R141). -/
  | hexencSw
  /-- HEXDEC, word 0x02 (R142). -/
  | hexdec
  /-- PCTENC, word 0x03 (R150). -/
  | pctenc
  /-- PCTDEC, word 0x04 (R154). -/
  | pctdec
  /-- PCTDEC.P, word 0x0C (R155). -/
  | pctdecP
  /-- PCTDEC.IP, word 0x14 (R156). -/
  | pctdecIp
  /-- PCTDEC.IP.P, word 0x1C (R157). -/
  | pctdecIpP
  /-- RLENC.Z, word 0x05 (R172). -/
  | rlencZ
  /-- RLENC.ZF, word 0x0D (R173). -/
  | rlencZf
  /-- RLDEC.Z, word 0x06 (R174). -/
  | rldecZ
  /-- RLDEC.ZF, word 0x0E (R175). -/
  | rldecZf
  deriving DecidableEq, Repr

/-- The mnemonic of R95, as spec/opcode_table.json spells it. -/
def Instr.mnemonic : Instr → String
  | .hexenc => "HEXENC"
  | .hexencSw => "HEXENC.SW"
  | .hexdec => "HEXDEC"
  | .pctenc => "PCTENC"
  | .pctdec => "PCTDEC"
  | .pctdecP => "PCTDEC.P"
  | .pctdecIp => "PCTDEC.IP"
  | .pctdecIpP => "PCTDEC.IP.P"
  | .rlencZ => "RLENC.Z"
  | .rlencZf => "RLENC.ZF"
  | .rldecZ => "RLDEC.Z"
  | .rldecZf => "RLDEC.ZF"

/-- What a command computes, in the words of the column `computes` of R95. -/
def Instr.computes : Instr → String
  | .hexenc => "hex_encode"
  | .hexencSw => "buffer_to_hex"
  | .hexdec => "hex_decode"
  | .pctenc => "url_encode"
  | .pctdec => "url_decode(from, to, false)"
  | .pctdecP => "url_decode(from, to, true)"
  | .pctdecIp => "in-place url_decode, flag false"
  | .pctdecIpP => "in-place url_decode, flag true"
  | .rlencZ => "single-value run encode"
  | .rlencZf => "dual-value run encode"
  | .rldecZ => "single-value run decode"
  | .rldecZf => "dual-value run decode"

/-- The fields of a command word, format C8 (R90). -/
structure Fields where
  /-- RSV, bits 7:5, must be 000. -/
  rsv : BitVec 3
  /-- M1, bit 4 (R93). -/
  m1 : Bool
  /-- M0, bit 3 (R92). -/
  m0 : Bool
  /-- UNIT, bits 2:0 (R91). -/
  unit : BitVec 3
  deriving DecidableEq, Repr

/-- Why a command word is illegal (R96), by name. -/
inductive IllegalWord where
  /-- RSV is not 000. -/
  | reservedBits
  /-- UNIT is 0 or 7. -/
  | noUnit
  /-- M1 is 1 and UNIT is not 4. -/
  | modeBit1
  /-- M0 is 1 and UNIT is 2 or 3. -/
  | modeBit0
  deriving DecidableEq, Repr

/-- The host's seven transaction kinds (R98), the whole interface of the block. -/
inductive Transaction where
  /-- Write a value to a REG register (R61). -/
  | regWrite (r v : Nat)
  /-- Read a REG register (R61). -/
  | regRead (r : Nat)
  /-- Write a byte of SRC (R62). -/
  | srcWrite (k : Nat) (b : Byte)
  /-- Read a byte of SRC (R62). -/
  | srcRead (k : Nat)
  /-- Read a byte of DST (R63). -/
  | dstRead (k : Nat)
  /-- Write a byte of DST: no effect in any state (R63). -/
  | dstWrite (k : Nat) (b : Byte)
  /-- Reset the block (R240). -/
  | reset
  deriving DecidableEq, Repr

end Sys2Proof
end

