-- ==== Sys2Proof/WellFormed.lean ====
section
/-! DEFINITION. Well-formedness checks: of an instruction (none can be ill formed, R94), of a command word's
fields (R96), of the parameters (R6), and of a host transaction (R69, R98, U5). The machine runs ill-formed
transactions too, with the effect the rules give them; these checks are the terms claims are made in. -/

namespace Sys2Proof

/-- Commands have no operands (R94), so every term of `Instr` is well formed. -/
abbrev Instr.wellFormed (_i : Instr) : Bool := true

/-- The first reason of R96 for which the fields are those of an illegal word, if there is one. -/
def Fields.illegal (f : Fields) : Option IllegalWord :=
  if f.rsv ≠ 0 then some .reservedBits
  else if f.unit = 0 ∨ f.unit = 7 then some .noUnit
  else if f.m1 ∧ f.unit ≠ 4 then some .modeBit1
  else if f.m0 ∧ (f.unit = 2 ∨ f.unit = 3) then some .modeBit0
  else none

/-- The fields are those of a legal word (R95, R96). -/
def Fields.wellFormed (f : Fields) : Bool := f.illegal.isNone

/-- The constraints of R6 on the parameters. -/
def Config.Params.wellFormed (p : Config.Params) : Bool :=
  decide (1 ≤ p.srcCap) && decide (1 ≤ p.dstCap) && decide (max p.srcCap p.dstCap < 2 ^ p.lenw)

/-- A transaction that stays inside the address spaces and the widths of R61 to R63: the accesses of R69 are
those software must not make. -/
def Transaction.wellFormed (p : Config.Params) : Transaction → Bool
  | .regWrite r v => decide (r < 6) && (if r < 2 then decide (v < 2 ^ 8) else decide (v < 2 ^ p.lenw))
  | .regRead r => decide (r < 6)
  | .srcWrite k _ => decide (k < p.srcCap)
  | .srcRead k => decide (k < p.srcCap)
  | .dstRead k => decide (k < p.dstCap)
  | .dstWrite _ _ => false
  | .reset => true

end Sys2Proof
end

