-- ==== Sys2Proof/Decode.lean ====
section
/-! DEFINITION. The command word: its fields, the decoder (R96, total on all 256 words, rejecting by name), and the
encoder, written from the field table of R95. -/

namespace Sys2Proof

/-- The fields of a command word (R90): RSV 7:5, M1 4, M0 3, UNIT 2:0. -/
def fieldsOf (w : Byte) : Fields :=
  { rsv := w.extractLsb' 5 3
    m1 := w.getLsbD 4
    m0 := w.getLsbD 3
    unit := w.extractLsb' 0 3 }

/-- The unit and the modes that legal fields select (R91 to R93). -/
def commandOf (f : Fields) : Option Instr :=
  match f.unit.toNat with
  | 1 => some (if f.m0 then .hexencSw else .hexenc)
  | 2 => some .hexdec
  | 3 => some .pctenc
  | 4 => some (if f.m1 then (if f.m0 then .pctdecIpP else .pctdecIp) else (if f.m0 then .pctdecP else .pctdec))
  | 5 => some (if f.m0 then .rlencZf else .rlencZ)
  | 6 => some (if f.m0 then .rldecZf else .rldecZ)
  | _ => none

/-- The decoder, answering an illegal word with the reason of R96 by name. -/
def decodeByName (w : Byte) : Except IllegalWord Instr :=
  match (fieldsOf w).illegal with
  | some why => .error why
  | none =>
    match commandOf (fieldsOf w) with
    | some i => .ok i
    | none => .error .noUnit

/-- The decode function of R96. -/
def decode (w : Byte) : Option Instr :=
  match decodeByName w with
  | .ok i => some i
  | .error _ => none

/-- The instruction the decoder reads from an instruction whose bits are `w`. The table gives every row one
byte; bits above the byte are not part of a command word (R90 uses bits 7:0). -/
def decodeTableWord (_nbits w : Nat) : Option Instr := decode (BitVec.ofNat 8 w)

/-- The fields of each command's word: the columns UNIT, M0, M1 of the table of R95; RSV is 000. -/
def fieldsFor : Instr → Fields
  | .hexenc => { rsv := 0, m1 := false, m0 := false, unit := 1 }
  | .hexencSw => { rsv := 0, m1 := false, m0 := true, unit := 1 }
  | .hexdec => { rsv := 0, m1 := false, m0 := false, unit := 2 }
  | .pctenc => { rsv := 0, m1 := false, m0 := false, unit := 3 }
  | .pctdec => { rsv := 0, m1 := false, m0 := false, unit := 4 }
  | .pctdecP => { rsv := 0, m1 := false, m0 := true, unit := 4 }
  | .pctdecIp => { rsv := 0, m1 := true, m0 := false, unit := 4 }
  | .pctdecIpP => { rsv := 0, m1 := true, m0 := true, unit := 4 }
  | .rlencZ => { rsv := 0, m1 := false, m0 := false, unit := 5 }
  | .rlencZf => { rsv := 0, m1 := false, m0 := true, unit := 5 }
  | .rldecZ => { rsv := 0, m1 := false, m0 := false, unit := 6 }
  | .rldecZf => { rsv := 0, m1 := false, m0 := true, unit := 6 }

/-- The word that has the given fields (R90). -/
def packFields (f : Fields) : Byte :=
  f.rsv ++ BitVec.ofBool f.m1 ++ BitVec.ofBool f.m0 ++ f.unit

/-- The command word of an instruction (R95). -/
def encode (i : Instr) : Byte := packFields (fieldsFor i)

/-- The words of R95 with their commands, `match` under `mask` 0xFF: the machine-readable table. -/
def opcodeTable : List (Byte × Instr) :=
  [(0x01, .hexenc), (0x09, .hexencSw), (0x02, .hexdec), (0x03, .pctenc),
   (0x04, .pctdec), (0x0C, .pctdecP), (0x14, .pctdecIp), (0x1C, .pctdecIpP),
   (0x05, .rlencZ), (0x0D, .rlencZf), (0x06, .rldecZ), (0x0E, .rldecZf)]

end Sys2Proof
end

