-- ==== Sys2Proof/Machine/State.lean ====
section
/-! DEFINITION. The state of the machine: the block, exactly the tuple of R20, its parameters (R6, R29), and the
host agent's side (the transactions still to come, the interleaving, the values read); the reasons a step can stop;
and the state after reset (R37). -/

namespace Sys2Proof.Machine

/-- ST (R27): where the block is in the life of an operation. -/
inductive OpStatus where
  /-- No operation has been issued since reset. -/
  | idle
  /-- An operation has been issued and has not completed. -/
  | busy
  /-- The last issued operation has completed. -/
  | done
  deriving DecidableEq, Repr

/-- The four error kinds (R200). The register ERR holds one of them or NONE. -/
inductive ErrKind where
  /-- HEXDEC on an odd input length (R201). -/
  | invalidLength
  /-- HEXDEC on a byte that is no hex digit (R202). -/
  | invalidCharacter
  /-- The result does not fit DST (R203). -/
  | overflow
  /-- The word in CMD is no command (R204). -/
  | illegalCommand
  deriving DecidableEq, Repr

/-- PH (R31): the engine's phase. -/
inductive Phase where
  /-- No operation in progress. -/
  | off
  /-- The CHECK step is next. -/
  | check
  /-- A SCAN step is next. -/
  | scan
  deriving DecidableEq, Repr

/-- FSM (R33): the two states of the run codecs. -/
inductive RunState where
  /-- Copying literal bytes. -/
  | copy
  /-- Consuming or counting a matched run. -/
  | run
  deriving DecidableEq, Repr

/-- The two agents (R7). -/
inductive Agent where
  /-- Outside the block: performs transactions. -/
  | host
  /-- Inside the block: performs CHECK and SCAN steps. -/
  | engine
  deriving DecidableEq, Repr

/-- What a command's function returns (R110): the output bytes or an error kind. -/
inductive CodecResult where
  /-- `Ok(out)`. -/
  | ok (out : List Byte)
  /-- `Err(e)`. -/
  | err (e : ErrKind)
  deriving DecidableEq, Repr

/-- What a host read returns: a value, or a value the spec leaves unspecified (U4, U5). -/
inductive ReadValue where
  /-- The value of the register or byte. -/
  | exact (v : Nat)
  /-- Any byte. -/
  | anyByte
  /-- Any value of LENW bits. -/
  | anyLength
  /-- Any value: a reserved register has no width (R61). -/
  | anyValue
  deriving DecidableEq, Repr

/-- A buffer: the bytes written since power-up, as (index, byte) pairs with strictly rising indices (log 4). An
index that is not listed has never been written and reads as a free value (U3, log 3). -/
abbrev Memory := List Host.Cell

/-- Why a step can stop without a next state. The spec gives the hardware no such stop (R117): each constructor
names states that no run from reset reaches. -/
inductive Fault where
  /-- Raised by a CHECK step, a SCAN body or an emission that would access an index at or above SRC_CAP or DST_CAP. The spec
  says the engine never does (R69). Safe: no run reaches it (log 11). -/
  | engineOutOfRange
  /-- Raised by the engine in phase SCAN when CMD holds no command: R35 item 6 excludes it. Safe (log 12). -/
  | scanWithoutCommand
  /-- Raised by a SCAN body without what its CHECK step or its COPY body established: a HEXDEC pair that is no pair of
  digits (R142), an RLENC run that does not start at I (R176). Safe: no run reaches it (log 12). -/
  | scanPrecondition
  deriving DecidableEq, Repr

/-- Why an instruction can be refused. -/
inductive Refusal where
  /-- Raised by an arm of `exec` whose instruction has no meaning yet: no arm of this model. Safe. -/
  | notModelled (mnemonic : String)
  deriving DecidableEq, Repr

/-- What a step answers. -/
abbrev Result (σ : Type) := Host.Outcome σ Fault Refusal

/-- The whole state: the block's tuple of R20, its parameters, and the host agent. -/
structure State where
  /-- SRC_CAP, DST_CAP, LENW (R6, R29): never changed by anything. -/
  cfg : Config.Params
  /-- SRC (R21). -/
  src : Memory
  /-- SRC_LEN (R22). -/
  srcLen : Nat
  /-- DST (R23). -/
  dst : Memory
  /-- DST_LEN (R24). -/
  dstLen : Nat
  /-- CMD (R25). -/
  cmd : Byte
  /-- ST (R27). -/
  st : OpStatus
  /-- ERR (R28); `none` is NONE. -/
  err : Option ErrKind
  /-- PH (R31), hidden. -/
  ph : Phase
  /-- I (R32), hidden. -/
  i : Nat
  /-- O (R31), hidden. -/
  o : Nat
  /-- L (R31), hidden. -/
  l : Nat
  /-- CNT (R31), hidden. -/
  cnt : Nat
  /-- RV (R31), hidden. -/
  rv : Byte
  /-- FSM (R33), hidden. -/
  fsm : RunState
  /-- The MODEL's own field: the host's transactions still to come (R98), first one first. -/
  program : List Transaction
  /-- The MODEL's own field: which agent moves at each point where both can (R72); past its end the engine moves
  (R254). Every statement holds for every value of it (log 7). -/
  turns : List Agent
  /-- The MODEL's own field: the values the host's reads have returned, oldest first (log 18). -/
  readData : List Nat
  /-- The MODEL's own field: how many unspecified reads there have been, the index into the free values `Config.unspecifiedRead`
  (log 5). -/
  freeReads : Nat
  deriving DecidableEq, Repr

/-- The state after reset (R37): every register as the table says; no byte of SRC or DST written since power-up (U3); the
parameters at the reference values of R6 (DESIGN CHOICE, log 1); the model's own fields empty (DESIGN CHOICE, logs 5, 7, 18). -/
def State.reset : State where
  cfg := Config.reference
  src := []
  srcLen := 0
  dst := []
  dstLen := 0
  cmd := 0x00
  st := .idle
  err := none
  ph := .off
  i := 0
  o := 0
  l := 0
  cnt := 0
  rv := 0x00
  fsm := .copy
  program := []
  turns := []
  readData := []
  freeReads := 0

end Sys2Proof.Machine
end

