-- ==== Sys2Proof/Machine/Operands.lean ====
section
/-! DEFINITION. The helper functions on bytes (R118 to R122, R124), the buffers read and written by index (R21, R23, R62), and the one operand
form of the block: the input `SRC[0..SRC_LEN)` (R94). -/

namespace Sys2Proof.Machine

/-- `b[7:4]` (R122). -/
def hiNibble (b : Byte) : Nibble := b.extractLsb' 4 4

/-- `b[3:0]` (R122). -/
def loNibble (b : Byte) : Nibble := b.extractLsb' 0 4

/-- The combination of two nibbles, high one first: `h*16 + l`, the 8-bit concatenation, which cannot overflow
(R122, U1). -/
def combine (h l : Nibble) : Byte := h ++ l

/-- The value of a byte as a hexadecimal digit, either case (R118). -/
def hexval (c : Byte) : Option Nibble :=
  if 0x30 ≤ c.toNat ∧ c.toNat ≤ 0x39 then some (BitVec.ofNat 4 (c.toNat - 0x30))
  else if 0x61 ≤ c.toNat ∧ c.toNat ≤ 0x66 then some (BitVec.ofNat 4 (c.toNat - 0x61 + 10))
  else if 0x41 ≤ c.toNat ∧ c.toNat ≤ 0x46 then some (BitVec.ofNat 4 (c.toNat - 0x41 + 10))
  else none

/-- `ishex` (R118). -/
def isHex (c : Byte) : Bool := (hexval c).isSome

/-- The lowercase digit of a nibble (R119). -/
def loHex (n : Nibble) : Byte :=
  if n.toNat ≤ 9 then BitVec.ofNat 8 (0x30 + n.toNat) else BitVec.ofNat 8 (0x61 + (n.toNat - 10))

/-- The uppercase digit of a nibble (R119). -/
def upHex (n : Nibble) : Byte :=
  if n.toNat ≤ 9 then BitVec.ofNat 8 (0x30 + n.toNat) else BitVec.ofNat 8 (0x41 + (n.toNat - 10))

/-- The unreserved set `A-Z a-z 0-9 - . _ ~` (R120). -/
def unreserved (b : Byte) : Bool :=
  (decide (0x41 ≤ b.toNat) && decide (b.toNat ≤ 0x5A)) ||
  (decide (0x61 ≤ b.toNat) && decide (b.toNat ≤ 0x7A)) ||
  (decide (0x30 ≤ b.toNat) && decide (b.toNat ≤ 0x39)) ||
  b == 0x2D || b == 0x2E || b == 0x5F || b == 0x7E

/-- The sentinel predicate of the single-value codec (R121). -/
def inZ (b : Byte) : Bool := b == 0x00

/-- The sentinel predicate of the dual-value codec (R121). -/
def inZF (b : Byte) : Bool := b == 0x00 || b == 0xFF

/-- How many bytes at the front of `bs` equal `v`, counting at most RUN_MAX (R124, R176). -/
def runLength (v : Byte) (bs : List Byte) : Nat :=
  ((bs.take Config.runMax).takeWhile (fun b => b == v)).length

/-- The byte that a `%XX` triplet stands for, `none` where the three bytes are no valid escape (R153, both
cases of digits). -/
def escapeByte (b h l : Byte) : Option Byte :=
  if b = 0x25 then
    match hexval h, hexval l with
    | some x, some y => some (combine x y)
    | _, _ => none
  else none

/-- The byte of a position that starts no valid escape: `+` as space where the flag is set, else itself (R153). -/
def literalByte (plus : Bool) (b : Byte) : Byte := if plus && b == 0x2B then 0x20 else b

/-- The byte written last at index `k`, `none` where none has been written since power-up. -/
def Memory.read : Memory → Nat → Option Byte
  | [], _ => none
  | (a, b) :: m, k => if a = k then some b else Memory.read m k

/-- Write one byte, keeping the indices strictly rising (log 4). -/
def Memory.write : Memory → Nat → Byte → Memory
  | [], k, v => [(k, v)]
  | (a, b) :: m, k, v =>
    if k < a then (k, v) :: (a, b) :: m
    else if k = a then (k, v) :: m
    else (a, b) :: Memory.write m k v

/-- Write bytes at rising indices from `k`. -/
def Memory.writeAll : Memory → Nat → List Byte → Memory
  | m, _, [] => m
  | m, k, v :: vs => Memory.writeAll (Memory.write m k v) (k + 1) vs

/-- The canonical form of a buffer of capacity `cap`: indices strictly rising and below the capacity (log 4). -/
def Memory.wf (cap : Nat) : Memory → Bool
  | [] => true
  | [(a, _)] => decide (a < cap)
  | (a, _) :: (a', b') :: m => decide (a < a') && Memory.wf cap ((a', b') :: m)

/-- `SRC[k]` (R21): a byte that was never written is a free value (U3, log 3). -/
def srcByte (s : State) (k : Nat) : Byte := (Memory.read s.src k).getD (Config.powerUpSrc k)

/-- `DST[k]` (R23): a byte that was never written is a free value (U3, log 3). -/
def dstByte (s : State) (k : Nat) : Byte := (Memory.read s.dst k).getD (Config.powerUpDst k)

/-- `SRC[k..k+n)`. -/
def srcSlice (s : State) (k n : Nat) : List Byte := (List.range' k n).map (srcByte s)

/-- `DST[k..k+n)`. -/
def dstSlice (s : State) (k n : Nat) : List Byte := (List.range' k n).map (dstByte s)

/-- The operand of every command: `SRC[0..SRC_LEN)` (R94). -/
def input (s : State) : List Byte := srcSlice s 0 s.srcLen

/-- The part of the input not yet consumed: `SRC[I..SRC_LEN)` (R32). -/
def unread (s : State) : List Byte := srcSlice s s.i (s.srcLen - s.i)

end Sys2Proof.Machine
end

