-- ==== Sys2Proof/Machine/Flags.lean ====
section
/-! DEFINITION. The one status register: STATUS is the concatenation of ST and ERR (R26). ERR is the block's only flag
field (R28); there are no condition codes. -/

namespace Sys2Proof.Machine

/-- The code of ST in STATUS bits 1:0 (R26). -/
def statusCode : OpStatus → BitVec 2
  | .idle => 0
  | .busy => 1
  | .done => 2

/-- The code of ERR in STATUS bits 4:2 (R26, R200). -/
def errCode : Option ErrKind → BitVec 3
  | none => 0
  | some .invalidLength => 1
  | some .invalidCharacter => 2
  | some .overflow => 3
  | some .illegalCommand => 4

/-- STATUS (R26): bits 7:5 zero, bits 4:2 ERR, bits 1:0 ST. -/
def statusWord (s : State) : Byte := (0 : BitVec 3) ++ errCode s.err ++ statusCode s.st

end Sys2Proof.Machine
end

