-- ==== Sys2Proof/Machine/Ops.lean ====
section
/-! DEFINITION. The shared operations: the life cycle of an operation (issue R111, CHECK R112, completion with error R116,
SCAN R114, finish R115), the engine's one way to write output (R78, R114), reset (R240), and the host's reads and
writes (R61 to R63, R69, R73). -/

namespace Sys2Proof.Machine

/-- The commands that deliver onto SRC (R93, R114). -/
def inPlace : Instr → Bool
  | .pctdecIp | .pctdecIpP => true
  | .hexenc | .hexencSw | .hexdec | .pctenc | .pctdec | .pctdecP => false
  | .rlencZ | .rlencZf | .rldecZ | .rldecZf => false

/-- The capacity test `fits(op, N, L)` (R113). -/
def fits (op : Instr) (p : Config.Params) (n l : Nat) : Bool :=
  match op with
  | .pctdecIp | .pctdecIpP => true
  | .pctdec | .pctdecP => decide (n ≤ p.dstCap)
  | .hexenc | .hexencSw | .hexdec | .pctenc => decide (l ≤ p.dstCap)
  | .rlencZ | .rlencZf | .rldecZ | .rldecZf => decide (l ≤ p.dstCap)

/-- The capacity of OUT: SRC for an in-place command, DST otherwise (R114). -/
def outCap (op : Instr) (p : Config.Params) : Nat := if inPlace op then p.srcCap else p.dstCap

/-- Issue (R111): latch the command word and start an operation. The guard `ST ≠ BUSY` is the host write's. -/
def issue (w : Byte) (s : State) : State :=
  { s with
    cmd := w, st := .busy, err := none, dstLen := 0, ph := .check
    i := 0, o := 0, l := 0, cnt := 0, rv := 0x00, fsm := .copy }

/-- Completion with error, `raise e` (R116, R209): the block's one way to take an error. Nothing is saved and control goes nowhere.
The return from it is the next `issue` or `resetBlock`, which clear ERR (R211). -/
def raiseError (e : ErrKind) (s : State) : State :=
  { s with err := some e, st := .done, ph := .off }

/-- The CHECK step of a decoded command with function `f` (R112): the error kinds in the priority of R208, `L`, the
capacity test, and phase SCAN. It writes no buffer byte. -/
def checkStep (op : Instr) (f : List Byte → CodecResult) (s : State) : Result State :=
  if s.cfg.srcCap < s.srcLen then .fault .engineOutOfRange
  else
    match f (input s) with
    | .err e => .next (raiseError e s)
    | .ok out =>
      if fits op s.cfg s.srcLen out.length then .next { s with l := out.length, ph := .scan }
      else .next (raiseError .overflow { s with l := out.length })

/-- Finish (R115): completion without error. -/
def finish (op : Instr) (s : State) : State :=
  if inPlace op then { s with srcLen := s.o, st := .done, ph := .off }
  else { s with dstLen := s.o, st := .done, ph := .off }

/-- `emit` of several bytes in order (R114): OUT is SRC for an in-place command, DST otherwise. -/
def emitBytes (op : Instr) (bs : List Byte) (s : State) : State :=
  if inPlace op then { s with src := Memory.writeAll s.src s.o bs, o := s.o + bs.length }
  else { s with dst := Memory.writeAll s.dst s.o bs, o := s.o + bs.length }

/-- The end of a SCAN body: emit the bytes it computed. `s` is the state with the body's new working registers; the bytes were
computed before, so all reads precede all writes (R78). -/
def emitOut (op : Instr) (bs : List Byte) (s : State) : Result State :=
  if s.o + bs.length ≤ outCap op s.cfg then .next (emitBytes op bs s) else .fault .engineOutOfRange

/-- One SCAN step with SCAN body `body` (R114). -/
def scanStep (op : Instr) (body : State → Result State) (s : State) : Result State :=
  if s.srcLen ≤ s.i then .next (finish op s)
  else if s.cfg.srcCap < s.srcLen then .fault .engineOutOfRange
  else body s

/-- One engine step of command `op` with function `f` and SCAN body `body` (R110, R112, R114). With PH = OFF the engine has no step
and reads and writes nothing (R72). -/
def engineStep (op : Instr) (f : List Byte → CodecResult) (body : State → Result State) (s : State) : Result State :=
  match s.ph with
  | .off => .next s
  | .check => checkStep op f s
  | .scan => scanStep op body s

/-- Reset (R240): every register to its value of R37; the buffers keep their bytes and the capacities are unaffected (R29). -/
def resetBlock (s : State) : State :=
  { s with
    srcLen := 0, dstLen := 0, cmd := 0x00, st := .idle, err := none, ph := .off
    i := 0, o := 0, l := 0, cnt := 0, rv := 0x00, fsm := .copy }

/-- The effects of `RegWrite(r, v)` (R61, R73, R90). -/
def regWrite (r v : Nat) (s : State) : State :=
  if s.st = .busy then s
  else if r = 0 then issue (BitVec.ofNat 8 v) s
  else if r = 2 ∧ v ≤ s.cfg.srcCap then { s with srcLen := v }
  else s

/-- What `RegRead(r)` returns (R61, R69, R73). -/
def regReadValue (r : Nat) (s : State) : ReadValue :=
  match r with
  | 0 => .exact s.cmd.toNat
  | 1 => .exact (statusWord s).toNat
  | 2 => if s.st = .busy then .anyLength else .exact s.srcLen
  | 3 => if s.st = .busy then .anyLength else .exact s.dstLen
  | 4 => .exact s.cfg.srcCap
  | 5 => .exact s.cfg.dstCap
  | _ => .anyValue

/-- The effect of `SrcWrite(k, b)` (R62, R69, R73). -/
def srcWrite (k : Nat) (b : Byte) (s : State) : State :=
  if s.st = .busy ∨ s.cfg.srcCap ≤ k then s else { s with src := Memory.write s.src k b }

/-- What `SrcRead(k)` returns (R62, R69, R73). -/
def srcReadValue (k : Nat) (s : State) : ReadValue :=
  if s.st = .busy ∨ s.cfg.srcCap ≤ k then .anyByte else .exact (srcByte s k).toNat

/-- What `DstRead(k)` returns (R63, R69, R73). -/
def dstReadValue (k : Nat) (s : State) : ReadValue :=
  if s.st = .busy ∨ s.cfg.dstCap ≤ k then .anyByte else .exact (dstByte s k).toNat

/-- The value delivered for an unspecified read: the next free value, cut to the width of what is read
(U4, U5, logs 5 and 6). -/
def freeRead (s : State) : ReadValue → Nat
  | .exact v => v
  | .anyByte => Config.unspecifiedRead s.freeReads % 2 ^ 8
  | .anyLength => Config.unspecifiedRead s.freeReads % 2 ^ s.cfg.lenw
  | .anyValue => Config.unspecifiedRead s.freeReads

/-- Hand a read's value to the host. No read changes any state of the block (R68): only the host's side moves. -/
def deliver (v : ReadValue) (s : State) : State :=
  match v with
  | .exact n => { s with readData := s.readData ++ [n] }
  | w => { s with readData := s.readData ++ [freeRead s w], freeReads := s.freeReads + 1 }

/-- One host transaction (R98). -/
def transact (t : Transaction) (s : State) : State :=
  match t with
  | .regWrite r v => regWrite r v s
  | .regRead r => deliver (regReadValue r s) s
  | .srcWrite k b => srcWrite k b s
  | .srcRead k => deliver (srcReadValue k s) s
  | .dstRead k => deliver (dstReadValue k s) s
  | .dstWrite _ _ => s
  | .reset => resetBlock s

/-- Both agents can move: the interleaving is open here (R72). -/
def contested (s : State) : Bool := decide (s.ph ≠ .off) && !s.program.isEmpty

/-- Which agent moves next, if any (R72): the engine only when PH is not OFF, the host only while it has a transaction left; where both can,
the next entry of `turns` says, and past its end the engine moves (R254, log 7). -/
def nextAgent (s : State) : Option Agent :=
  match s.ph, s.program with
  | .off, [] => none
  | .off, _ :: _ => some .host
  | _, [] => some .engine
  | _, _ :: _ => some (s.turns.headD .engine)

/-- Use up the entry of `turns` that the choice of `nextAgent` read, if it read one. -/
def takeTurn (s : State) : State := if contested s then { s with turns := s.turns.tail } else s

/-- The host's move: the first transaction of its program. -/
def hostTurn (s : State) : State :=
  match s.program with
  | [] => s
  | t :: ts => transact t { s with program := ts }

end Sys2Proof.Machine
end

