-- ==== Sys2Proof/Machine/Hex.lean ====
section
/-! DEFINITION. The hex family (spec/41_hex.md): HEXENC, HEXENC.SW, HEXDEC. For each its function F_op, its SCAN body and
its meaning. -/

namespace Sys2Proof.Machine

/-- The two characters HEXENC makes of a byte: lowercase, high nibble first (R140). -/
def hexDigits (b : Byte) : List Byte := [loHex (hiNibble b), loHex (loNibble b)]

/-- The two characters HEXENC.SW makes of a byte: uppercase, low nibble first (R141). -/
def hexDigitsSw (b : Byte) : List Byte := [upHex (loNibble b), upHex (hiNibble b)]

/-- F_HEXENC (R140). -/
def fHexenc (s : List Byte) : CodecResult := .ok (s.flatMap hexDigits)

/-- F_HEXENC.SW (R141). -/
def fHexencSw (s : List Byte) : CodecResult := .ok (s.flatMap hexDigitsSw)

/-- The byte that a pair of characters stands for, `none` where one of them is no hex digit (R142). -/
def hexPair (h l : Byte) : Option Byte :=
  match hexval h, hexval l with
  | some x, some y => some (combine x y)
  | _, _ => none

/-- The loop of F_HEXDEC over the pairs; `none` where a character is no hex digit. A single character left over is no pair: F_HEXDEC
tests the length first (R142). -/
def hexPairs : List Byte → Option (List Byte)
  | [] => some []
  | [_] => none
  | h :: l :: rest =>
    match hexPair h l, hexPairs rest with
    | some b, some out => some (b :: out)
    | _, _ => none

/-- F_HEXDEC (R142): the length is tested before any character (R201). -/
def fHexdec (s : List Byte) : CodecResult :=
  if s.length % 2 = 1 then .err .invalidLength
  else
    match hexPairs s with
    | some out => .ok out
    | none => .err .invalidCharacter

/-- SCAN body of HEXENC (R140). -/
def hexencBody (s : State) : Result State :=
  emitOut .hexenc (hexDigits (srcByte s s.i)) { s with i := s.i + 1 }

/-- SCAN body of HEXENC.SW (R141). -/
def hexencSwBody (s : State) : Result State :=
  emitOut .hexencSw (hexDigitsSw (srcByte s s.i)) { s with i := s.i + 1 }

/-- SCAN body of HEXDEC (R142): reached only when both digits are valid and `I + 1 < N`. -/
def hexdecBody (s : State) : Result State :=
  if s.i + 1 < s.srcLen then
    match hexPair (srcByte s s.i) (srcByte s (s.i + 1)) with
    | some b => emitOut .hexdec [b] { s with i := s.i + 2 }
    | none => .fault .scanPrecondition
  else .fault .scanPrecondition

/-- HEXENC (R140). -/
def execHexenc (s : State) : Result State := engineStep .hexenc fHexenc hexencBody s

/-- HEXENC.SW (R141). -/
def execHexencSw (s : State) : Result State := engineStep .hexencSw fHexencSw hexencSwBody s

/-- HEXDEC (R142). -/
def execHexdec (s : State) : Result State := engineStep .hexdec fHexdec hexdecBody s

end Sys2Proof.Machine
end

