-- ==== Sys2Proof/Machine/Percent.lean ====
section
/-! DEFINITION. The percent family (spec/42_percent.md): PCTENC and the four PCTDEC commands, which share the routine `urldec`
and its SCAN body (R153, R161). -/

namespace Sys2Proof.Machine

/-- What PCTENC makes of a byte: itself, or `%` and two uppercase digits, high nibble first (R150). -/
def percentBytes (b : Byte) : List Byte :=
  if unreserved b then [b] else [0x25, upHex (hiNibble b), upHex (loNibble b)]

/-- F_PCTENC (R150). -/
def fPctenc (s : List Byte) : CodecResult := .ok (s.flatMap percentBytes)

/-- `urldec(s, plus)` (R153): an escape needs both digit positions inside the input (C1); the arms are tried in R153's order. -/
def urldec (plus : Bool) : List Byte → List Byte
  | [] => []
  | [b] => [literalByte plus b]
  | [b, c] => [literalByte plus b, literalByte plus c]
  | b :: h :: l :: rest =>
    match escapeByte b h l with
    | some v => v :: urldec plus rest
    | none => literalByte plus b :: urldec plus (h :: l :: rest)

/-- F_PCTDEC (R154). -/
def fPctdec (s : List Byte) : CodecResult := .ok (urldec false s)

/-- F_PCTDEC.P (R155). -/
def fPctdecP (s : List Byte) : CodecResult := .ok (urldec true s)

/-- F_PCTDEC.IP (R156). -/
def fPctdecIp (s : List Byte) : CodecResult := .ok (urldec false s)

/-- F_PCTDEC.IP.P (R157). -/
def fPctdecIpP (s : List Byte) : CodecResult := .ok (urldec true s)

/-- SCAN body of PCTENC (R150). -/
def pctencBody (s : State) : Result State :=
  emitOut .pctenc (percentBytes (srcByte s s.i)) { s with i := s.i + 1 }

/-- The escape at I, if there is a valid one: `escape_at(SRC, I, SRC_LEN)` and the byte it stands for. SRC[I+1] and SRC[I+2] are read only
when `I + 2 < N` (R153). -/
def escapeAtIndex (s : State) : Option Byte :=
  if s.i + 2 < s.srcLen then escapeByte (srcByte s s.i) (srcByte s (s.i + 1)) (srcByte s (s.i + 2)) else none

/-- SCAN body of the PCTDEC commands (R153). -/
def pctdecBody (op : Instr) (plus : Bool) (s : State) : Result State :=
  match escapeAtIndex s with
  | some v => emitOut op [v] { s with i := s.i + 3 }
  | none => emitOut op [literalByte plus (srcByte s s.i)] { s with i := s.i + 1 }

/-- PCTENC (R150). -/
def execPctenc (s : State) : Result State := engineStep .pctenc fPctenc pctencBody s

/-- PCTDEC (R154). -/
def execPctdec (s : State) : Result State := engineStep .pctdec fPctdec (pctdecBody .pctdec false) s

/-- PCTDEC.P (R155). -/
def execPctdecP (s : State) : Result State := engineStep .pctdecP fPctdecP (pctdecBody .pctdecP true) s

/-- PCTDEC.IP (R156). -/
def execPctdecIp (s : State) : Result State := engineStep .pctdecIp fPctdecIp (pctdecBody .pctdecIp false) s

/-- PCTDEC.IP.P (R157). -/
def execPctdecIpP (s : State) : Result State := engineStep .pctdecIpP fPctdecIpP (pctdecBody .pctdecIpP true) s

end Sys2Proof.Machine
end

