-- ==== Sys2Proof/Machine/RunLength.lean ====
section
/-! DEFINITION. The run-length family (spec/43_runlength.md): the two routines `rlenc` and `rldec`, each taking the sentinel predicate
(R183), their SCAN bodies, and the four commands as instances. -/

namespace Sys2Proof.Machine

/-- The loop of `rlenc` (R170) with `skip` bytes of an already counted run still to be passed over. -/
def rlencFrom (p : Byte → Bool) : Nat → List Byte → List Byte
  | _, [] => []
  | skip + 1, _ :: rest => rlencFrom p skip rest
  | 0, b :: rest =>
    if p b then
      b :: BitVec.ofNat 8 (runLength b (b :: rest)) :: rlencFrom p (runLength b (b :: rest) - 1) rest
    else b :: rlencFrom p 0 rest

/-- `rlenc(P, s)` (R170). -/
def rlenc (p : Byte → Bool) (s : List Byte) : List Byte := rlencFrom p 0 s

/-- `rldec(P, s)` (R171): the count is the byte taken as a natural 0 to 255 (D13, log 2); a sentinel in the last position is a literal. -/
def rldec (p : Byte → Bool) : List Byte → List Byte
  | [] => []
  | [b] => [b]
  | b :: c :: rest =>
    if p b then List.replicate c.toNat b ++ rldec p rest else b :: rldec p (c :: rest)

/-- F_RLENC.Z (R172). -/
def fRlencZ (s : List Byte) : CodecResult := .ok (rlenc inZ s)

/-- F_RLENC.ZF (R173). -/
def fRlencZf (s : List Byte) : CodecResult := .ok (rlenc inZF s)

/-- F_RLDEC.Z (R174). -/
def fRldecZ (s : List Byte) : CodecResult := .ok (rldec inZ s)

/-- F_RLDEC.ZF (R175). -/
def fRldecZf (s : List Byte) : CodecResult := .ok (rldec inZF s)

/-- SCAN bodies of the RLENC commands (R176). In RUN the count is the largest `c` with `1 ≤ c ≤ 250`, `I + c ≤ N` and `SRC[I+k] = RV` for all
`k < c`; that there is one, R35 and the COPY body see to. -/
def rlencBody (op : Instr) (p : Byte → Bool) (s : State) : Result State :=
  match s.fsm with
  | .copy =>
    if p (srcByte s s.i) then emitOut op [srcByte s s.i] { s with rv := srcByte s s.i, fsm := .run }
    else emitOut op [srcByte s s.i] { s with i := s.i + 1 }
  | .run =>
    if runLength s.rv (unread s) = 0 then .fault .scanPrecondition
    else
      emitOut op [BitVec.ofNat 8 (runLength s.rv (unread s))]
        { s with cnt := runLength s.rv (unread s), i := s.i + runLength s.rv (unread s), fsm := .copy }

/-- SCAN bodies of the RLDEC commands (R177). -/
def rldecBody (op : Instr) (p : Byte → Bool) (s : State) : Result State :=
  match s.fsm with
  | .copy =>
    if p (srcByte s s.i) ∧ s.i + 1 < s.srcLen then
      .next { s with rv := srcByte s s.i, cnt := (srcByte s (s.i + 1)).toNat, fsm := .run }
    else emitOut op [srcByte s s.i] { s with i := s.i + 1 }
  | .run => emitOut op (List.replicate s.cnt s.rv) { s with i := s.i + 2, fsm := .copy }

/-- RLENC.Z (R172). -/
def execRlencZ (s : State) : Result State := engineStep .rlencZ fRlencZ (rlencBody .rlencZ inZ) s

/-- RLENC.ZF (R173). -/
def execRlencZf (s : State) : Result State := engineStep .rlencZf fRlencZf (rlencBody .rlencZf inZF) s

/-- RLDEC.Z (R174). -/
def execRldecZ (s : State) : Result State := engineStep .rldecZ fRldecZ (rldecBody .rldecZ inZ) s

/-- RLDEC.ZF (R175). -/
def execRldecZf (s : State) : Result State := engineStep .rldecZf fRldecZf (rldecBody .rldecZf inZF) s

end Sys2Proof.Machine
end

