-- ==== Sys2Proof/Machine/Dispatch.lean ====
section
/-! DEFINITION. One engine step of a decoded command: one arm per constructor of Instr. -/

namespace Sys2Proof.Machine

def exec (i : Instr) (s : State) : Host.Outcome State Fault Refusal :=
  match i with
  | .hexenc => Sys2Proof.Machine.execHexenc s
  | .hexencSw => Sys2Proof.Machine.execHexencSw s
  | .hexdec => Sys2Proof.Machine.execHexdec s
  | .pctenc => Sys2Proof.Machine.execPctenc s
  | .pctdec => Sys2Proof.Machine.execPctdec s
  | .pctdecP => Sys2Proof.Machine.execPctdecP s
  | .pctdecIp => Sys2Proof.Machine.execPctdecIp s
  | .pctdecIpP => Sys2Proof.Machine.execPctdecIpP s
  | .rlencZ => Sys2Proof.Machine.execRlencZ s
  | .rlencZf => Sys2Proof.Machine.execRlencZf s
  | .rldecZ => Sys2Proof.Machine.execRldecZ s
  | .rldecZf => Sys2Proof.Machine.execRldecZf s

end Sys2Proof.Machine
end

