-- ==== Sys2Proof/Machine/Engine.lean ====
section
/-! DEFINITION. The engine's move: fetch is the latched CMD (R76), decoded in every step; what a command computes, by name
of the command (R110); and what `withFetchWord` stores. -/

namespace Sys2Proof.Machine

/-- The function F_op of a command (R110, R129). -/
def commandFunction : Instr → List Byte → CodecResult
  | .hexenc => fHexenc
  | .hexencSw => fHexencSw
  | .hexdec => fHexdec
  | .pctenc => fPctenc
  | .pctdec => fPctdec
  | .pctdecP => fPctdecP
  | .pctdecIp => fPctdecIp
  | .pctdecIpP => fPctdecIpP
  | .rlencZ => fRlencZ
  | .rlencZf => fRlencZf
  | .rldecZ => fRldecZ
  | .rldecZf => fRldecZf

/-- One engine step (R112, R114): none while PH = OFF (R72); a CMD that is no command completes with IllegalCommand in its CHECK step
(R96, R204) and reaches no SCAN step; a command runs. -/
def engineTurn (s : State) : Result State :=
  match decode s.cmd with
  | some i => exec i s
  | none =>
    match s.ph with
    | .off => .next s
    | .check => .next (raiseError .illegalCommand s)
    | .scan => .fault .scanWithoutCommand

/-- Store a command word where the engine takes its next command from: an issue of the word (R111), with the engine to move next. -/
def placeCommand (w : Byte) (s : State) : State :=
  { issue w s with turns := if s.program.isEmpty then s.turns else .engine :: s.turns }

end Sys2Proof.Machine
end

