-- ==== Sys2Proof/Machine/Step.lean ====
section
/-! DEFINITION. One step of the whole machine: one host transaction or one engine step (R67, R71, R72), and where the host
of the model places a command word. -/

namespace Sys2Proof.Machine

/-- One step: the agent whose turn it is moves; with nothing to do, the block rests (R72, R219, log 10). -/
def step (s : State) : Host.Outcome State Fault Refusal :=
  match nextAgent s with
  | none => .next s
  | some .host => .next (hostTurn (takeTurn s))
  | some .engine => engineTurn (takeTurn s)

/-- `s` with the instruction whose bits are `w` placed where `step` takes its next instruction (log 9): `w` issued (R111), the engine to
move. A command word is `w[7:0]` (R90). -/
def State.withFetchWord (s : State) (_nbits w : Nat) : State := placeCommand (BitVec.ofNat 8 w) s

end Sys2Proof.Machine
end

