-- ==== Sys2Proof/Machine/HostProgram.lean ====
section
/-! DEFINITION. The pseudo-instructions of R100 as builders of host programs, and the reading of a result (R101). They are lists of
transactions, nothing the block holds. -/

namespace Sys2Proof.Machine

/-- The register names of R99. -/
inductive RegName where
  /-- REG 0. -/
  | cmd
  /-- REG 1. -/
  | status
  /-- REG 2. -/
  | srcLen
  /-- REG 3. -/
  | dstLen
  /-- REG 4. -/
  | srcCap
  /-- REG 5. -/
  | dstCap
  deriving DecidableEq, Repr

/-- The number a register name stands for (R61, R99). -/
def regNumber : RegName → Nat
  | .cmd => 0
  | .status => 1
  | .srcLen => 2
  | .dstLen => 3
  | .srcCap => 4
  | .dstCap => 5

/-- `WR <reg>, <value>` (R99). -/
def wr (r : RegName) (v : Nat) : Transaction := .regWrite (regNumber r) v

/-- `RD <reg>` (R99). -/
def rd (r : RegName) : Transaction := .regRead (regNumber r)

/-- `WRS k, b` for the bytes at rising indices from `k`. -/
def writeBytes (k : Nat) : List Byte → List Transaction
  | [] => []
  | b :: bs => .srcWrite k b :: writeBytes (k + 1) bs

/-- LOADX (R100). -/
def loadx (bs : List Byte) : List Transaction := writeBytes 0 bs ++ [wr .srcLen bs.length]

/-- LOADR (R100). -/
def loadr (b : Byte) (n : Nat) : List Transaction := loadx (List.replicate n b)

/-- LOAD (R100) of a text, each character as its ASCII code (R9). DESIGN CHOICE, unsafe (log 23): R9 and R100 define no byte for a character without an ASCII
code (code point 0x80 and up); the low eight bits of its code point are written. -/
def loadText (text : String) : List Transaction := loadx (text.toList.map (fun c => BitVec.ofNat 8 c.toNat))

/-- WAIT (R100) that polls `n` times; how many polls it takes depends on the interleaving (log 19). -/
def wait (n : Nat) : List Transaction := List.replicate n (rd .status)

/-- RUN (R100) with `n` polls of STATUS. -/
def runCommand (i : Instr) (n : Nat) : List Transaction := wr .cmd (encode i).toNat :: wait n

/-- The last result `DST[0..DST_LEN)` (R24). -/
def result (s : State) : List Byte := dstSlice s 0 s.dstLen

/-- MOVE (R100): what the host does in state `s` to copy the last result to the input. -/
def move (s : State) : List Transaction :=
  rd .dstLen :: ((List.range' 0 s.dstLen).flatMap (fun k => [.dstRead k, .srcWrite k (dstByte s k)]) ++ [wr .srcLen s.dstLen])

/-- EXPECTD (R100): the reads of DST_LEN and of each byte below it. -/
def readResult (s : State) : List Transaction :=
  rd .dstLen :: (List.range' 0 s.dstLen).map (fun k => .dstRead k)

/-- EXPECTS (R100): the reads of SRC_LEN and of each byte below it. -/
def readInput (s : State) : List Transaction :=
  rd .srcLen :: (List.range' 0 s.srcLen).map (fun k => .srcRead k)

/-- What the source's function returns for command `i`, read from the state in which its operation has completed (R101): the error, or the bytes of DST, or of SRC
for an in-place command. -/
def returned (i : Instr) (s : State) : CodecResult :=
  match s.err with
  | some e => .err e
  | none => .ok (if inPlace i then srcSlice s 0 s.srcLen else result s)

/-- A source call (R101): the argument loaded, the command run with `n` polls. -/
def sourceCall (i : Instr) (bs : List Byte) (n : Nat) : List Transaction := loadx bs ++ runCommand i n

end Sys2Proof.Machine
end

