-- ==== Sys2Proof/Safety.lean ====
section
/-! DEFINITION. What counts as a safe run, in the terms claims use: the invariants of R35, the fuller invariant that every step keeps, the
reachable states, and the hazards software must respect (R244 to R247). -/

namespace Sys2Proof.Machine

/-- The seven invariants of the reachable states, item by item (R35). -/
structure ReachableInvariants (s : State) : Prop where
  /-- Item 1. -/
  lengths : s.srcLen ≤ s.cfg.srcCap ∧ s.dstLen ≤ s.cfg.dstCap
  /-- Item 2. -/
  busyIffPhase : s.st = .busy ↔ s.ph ≠ .off
  /-- Item 3. -/
  busyClean : s.st = .busy → s.err = none ∧ s.dstLen = 0
  /-- Item 4. -/
  idleClean : s.st = .idle → s.err = none ∧ s.dstLen = 0 ∧ s.cmd = 0x00
  /-- Item 5. -/
  errorDone : s.err ≠ none → s.st = .done ∧ s.dstLen = 0
  /-- Item 6. -/
  scanBounds : s.ph = .scan → s.i ≤ s.srcLen ∧ s.o ≤ s.l ∧
    ∃ op, decode s.cmd = some op ∧ (inPlace op = false → s.l ≤ s.cfg.dstCap) ∧ (inPlace op = true → s.o ≤ s.i)
  /-- Item 7. -/
  offCopy : s.ph = .off → s.fsm = .copy

/-- The legal values of R6 and R20 to R24: parameters, buffers in canonical form inside their capacities, indices and counter in range. -/
structure LegalValues (s : State) : Prop where
  /-- The constraints of R6. -/
  params : s.cfg.wellFormed = true
  /-- SRC is a buffer of SRC_CAP bytes (R21). -/
  srcWf : Memory.wf s.cfg.srcCap s.src = true
  /-- DST is a buffer of DST_CAP bytes (R23). -/
  dstWf : Memory.wf s.cfg.dstCap s.dst = true
  /-- I is 0..SRC_CAP (R20). -/
  iRange : s.i ≤ s.cfg.srcCap
  /-- O is 0..max(SRC_CAP, DST_CAP) (R20). -/
  oRange : s.o ≤ max s.cfg.srcCap s.cfg.dstCap
  /-- CNT is 0..255 (R20). -/
  cntRange : s.cnt ≤ 255

/-- The bytes that the SCAN steps still to come of an RLENC operation will emit; `none` in a state whose FSM and RV do not fit the input. -/
def rlencRemaining (p : Byte → Bool) (s : State) : Option (List Byte) :=
  match s.fsm with
  | .copy => some (rlenc p (unread s))
  | .run => if (unread s).head? = some s.rv ∧ p s.rv then some (rlenc p (unread s)).tail else none

/-- The bytes that the SCAN steps still to come of an RLDEC operation will emit. -/
def rldecRemaining (p : Byte → Bool) (s : State) : Option (List Byte) :=
  match s.fsm with
  | .copy => some (rldec p (unread s))
  | .run =>
    if (unread s).take 2 = [s.rv, BitVec.ofNat 8 s.cnt] ∧ p s.rv then some (rldec p (unread s)) else none

/-- The bytes that the SCAN steps still to come of a command without run state will emit. -/
def plainRemaining (f : List Byte → CodecResult) (s : State) : Option (List Byte) :=
  match s.fsm, f (unread s) with
  | .copy, .ok out => some out
  | _, _ => none

/-- The bytes that the operation of command `op` will still emit in state `s` (the SCAN half of R130). -/
def remainingOutput (op : Instr) (s : State) : Option (List Byte) :=
  match op with
  | .rlencZ => rlencRemaining inZ s
  | .rlencZf => rlencRemaining inZF s
  | .rldecZ => rldecRemaining inZ s
  | .rldecZf => rldecRemaining inZF s
  | .hexenc | .hexencSw | .hexdec | .pctenc => plainRemaining (commandFunction op) s
  | .pctdec | .pctdecP | .pctdecIp | .pctdecIpP => plainRemaining (commandFunction op) s

/-- The working registers as the issue left them (R111): what they are in phase CHECK. -/
structure FreshOperation (s : State) : Prop where
  /-- I, O, L, CNT are 0. -/
  zero : s.i = 0 ∧ s.o = 0 ∧ s.l = 0 ∧ s.cnt = 0
  /-- RV is 0x00. -/
  rv : s.rv = 0x00
  /-- FSM is COPY. -/
  fsm : s.fsm = .copy

/-- In phase SCAN what has been emitted and what remains make up exactly L bytes, they fit, and what has been emitted to DST stands there
(R112, R114, R130). -/
def ScanAgrees (s : State) : Prop :=
  ∃ op out, decode s.cmd = some op ∧ remainingOutput op s = some out ∧ s.o + out.length = s.l ∧
    s.i ≤ s.srcLen ∧ (inPlace op = false → s.l ≤ s.cfg.dstCap) ∧ (inPlace op = true → s.o ≤ s.i) ∧
    (inPlace op = false → ∀ k, k < s.o → (Memory.read s.dst k).isSome = true)

/-- The invariant of the machine: R35, the legal values, and in each phase what the steps to come rely on. -/
structure MachineInv (s : State) : Prop where
  /-- R35. -/
  spec : ReachableInvariants s
  /-- R6, R20 to R24. -/
  legal : LegalValues s
  /-- Phase CHECK. -/
  fresh : s.ph = .check → FreshOperation s
  /-- Phase SCAN. -/
  scan : s.ph = .scan → ScanAgrees s
  /-- The last result is written storage: no byte of `DST[0..DST_LEN)` is a leftover of power-up (R24, U3). -/
  result : ∀ k, k < s.dstLen → (Memory.read s.dst k).isSome = true

/-- A state right after a reset (R37, R240, U6): registers at the values of the table; any parameters that R6 allows, any buffer
contents, any host program, any interleaving. -/
def AfterReset (s : State) : Prop :=
  s = { State.reset with
        cfg := s.cfg, src := s.src, dst := s.dst, program := s.program, turns := s.turns
        readData := s.readData, freeReads := s.freeReads } ∧
  s.cfg.wellFormed = true ∧ Memory.wf s.cfg.srcCap s.src = true ∧ Memory.wf s.cfg.dstCap s.dst = true

/-- The states reachable from reset by transactions and engine steps (R35). -/
inductive Reachable : State → Prop where
  /-- Right after a reset. -/
  | start (s : State) (h : AfterReset s) : Reachable s
  /-- One step further. -/
  | next (s t : State) (h : Reachable s) (hs : step s = .next t) : Reachable t

/-- `k` steps of the machine, stopping at the first fault or refusal: `Host.Core.run` of this machine, in this model's own types. -/
def runSteps : Nat → State → Result State
  | 0, s => .next s
  | k + 1, s =>
    match step s with
    | .next t => runSteps k t
    | .fault f => .fault f
    | .refused r => .refused r

/-- The step answers a next state: it neither faults nor refuses. -/
def StepGoesOn (s : State) : Prop := ∃ t, step s = .next t

/-- A transaction that R244 allows while `ST = BUSY`. -/
def busyAllowed : Transaction → Bool
  | .regWrite r _ => decide (r ≠ 0) && decide (r ≠ 2)
  | .regRead r => decide (r ≠ 2) && decide (r ≠ 3)
  | .srcWrite _ _ => false
  | .srcRead _ => false
  | .dstRead _ => false
  | .dstWrite _ _ => true
  | .reset => true

/-- Every byte of the input has been written since power-up: H-UNINIT asks it of an issue (R247). -/
def inputWritten (s : State) : Bool :=
  (List.range s.srcLen).all (fun k => (Memory.read s.src k).isSome)

/-- SRC holds the result of an in-place command, so that its bytes from SRC_LEN on are the tail that H-TAIL speaks of (R246, R156). -/
def holdsInPlaceResult (s : State) : Bool :=
  decide (s.st = .done) && (match decode s.cmd with
    | some op => inPlace op
    | none => false)

/-- H-DSTSIZE of an issue of the word `v`: PCTDEC and PCTDEC.P need a DST as large as the input (R248). -/
def dstSizeMet (v : Nat) (s : State) : Bool :=
  match decode (BitVec.ofNat 8 v) with
  | some .pctdec | some .pctdecP => decide (s.srcLen ≤ s.cfg.dstCap)
  | _ => true

/-- A transaction that keeps to R69 (inside the spaces), H-BUSY (R244), H-CMD (R245), H-TAIL (R246, both of its halves), H-UNINIT (R247), H-DSTSIZE (R248), and
that reads no byte of SRC never written since power-up (U3). -/
def respectsHazards (s : State) (t : Transaction) : Bool :=
  t.wellFormed s.cfg && (!decide (s.st = .busy) || busyAllowed t) &&
  (match t with
   | .dstRead k => decide (k < s.dstLen)
   | .srcRead k => (Memory.read s.src k).isSome && (!holdsInPlaceResult s || decide (k < s.srcLen))
   | .regWrite 0 v => inputWritten s && dstSizeMet v s
   | _ => true)

/-- If the transaction is a read, then what it returns is specified: a register's value, or a byte that has been written since power-up (U3, U4, U5). -/
def specifiedRead (s : State) (t : Transaction) : Prop :=
  match t with
  | .regRead r => ∃ v, regReadValue r s = .exact v
  | .srcRead k => ∃ b, Memory.read s.src k = some b ∧ srcReadValue k s = .exact b.toNat
  | .dstRead k => ∃ b, Memory.read s.dst k = some b ∧ dstReadValue k s = .exact b.toNat
  | .regWrite _ _ | .srcWrite _ _ | .dstWrite _ _ | .reset => True

/-- The engine is about to make the CHECK step of an operation on an input inside SRC (R112, R22). -/
abbrev CheckReady (s : State) : Prop := s.ph = .check ∧ s.srcLen ≤ s.cfg.srcCap

/-- The engine is about to perform a SCAN body on an input inside SRC (R114, R22). -/
abbrev ScanReady (s : State) : Prop := s.ph = .scan ∧ s.i < s.srcLen ∧ s.srcLen ≤ s.cfg.srcCap

/-- The advance of I per SCAN body: the table of R125. -/
def indexAdvance (op : Instr) (s : State) : Nat :=
  match op with
  | .hexenc | .hexencSw | .pctenc => 1
  | .hexdec => 2
  | .pctdec | .pctdecP | .pctdecIp | .pctdecIpP => if (escapeAtIndex s).isSome then 3 else 1
  | .rlencZ => rlencIndexAdvance inZ
  | .rlencZf => rlencIndexAdvance inZF
  | .rldecZ => rldecIndexAdvance inZ
  | .rldecZf => rldecIndexAdvance inZF
where
  rlencIndexAdvance (p : Byte → Bool) : Nat :=
    match s.fsm with
    | .copy => if p (srcByte s s.i) then 0 else 1
    | .run => runLength s.rv (unread s)
  rldecIndexAdvance (p : Byte → Bool) : Nat :=
    match s.fsm with
    | .copy => if p (srcByte s s.i) ∧ s.i + 1 < s.srcLen then 0 else 1
    | .run => 2

/-- The advance of O per SCAN body: the table of R125. It is the number of bytes the body writes at O. -/
def outputAdvance (op : Instr) (s : State) : Nat :=
  match op with
  | .hexenc | .hexencSw => 2
  | .hexdec => 1
  | .pctenc => if unreserved (srcByte s s.i) then 1 else 3
  | .pctdec | .pctdecP | .pctdecIp | .pctdecIpP => 1
  | .rlencZ | .rlencZf => 1
  | .rldecZ => rldecOutputAdvance inZ
  | .rldecZf => rldecOutputAdvance inZF
where
  rldecOutputAdvance (p : Byte → Bool) : Nat :=
    match s.fsm with
    | .copy => if p (srcByte s s.i) ∧ s.i + 1 < s.srcLen then 0 else 1
    | .run => s.cnt

/-- How many escapes the scan of `urldec` decodes: the E of R159. -/
def escapeCount : List Byte → Nat
  | [] => 0
  | [_] => 0
  | [_, _] => 0
  | b :: h :: l :: rest =>
    if (escapeByte b h l).isSome then escapeCount rest + 1 else escapeCount (h :: l :: rest)

/-- The encoded form of R178: items that are a single byte outside the sentinels, or a sentinel and a count from 1 to 250. -/
inductive RunCoded (p : Byte → Bool) : List Byte → Prop where
  /-- The empty form. -/
  | nil : RunCoded p []
  /-- A literal byte. -/
  | literal (b : Byte) (rest : List Byte) (hb : p b = false) (hr : RunCoded p rest) : RunCoded p (b :: rest)
  /-- A sentinel and its count. -/
  | pair (b c : Byte) (rest : List Byte) (hb : p b = true) (hc : 1 ≤ c.toNat ∧ c.toNat ≤ Config.runMax)
      (hr : RunCoded p rest) : RunCoded p (b :: c :: rest)

/-- A byte with its nibbles swapped (R144). -/
def swapNibbles (b : Byte) : Byte := combine (loNibble b) (hiNibble b)

/-- A hex digit in lowercase (R143). -/
def lowerDigit (c : Byte) : Byte := if 0x41 ≤ c.toNat ∧ c.toNat ≤ 0x46 then c + 0x20 else c

/-- The pairs that a stretch of `n` equal sentinel bytes `v` is encoded as: `n div 250` full ones, then one for the rest (R170). -/
def runPairs (v : Byte) (n : Nat) : List Byte :=
  (List.replicate (n / 250) [v, 0xFA]).flatten ++ (if n % 250 = 0 then [] else [v, BitVec.ofNat 8 (n % 250)])

/-- The conditions of R249 under which command `op` cannot end in Overflow on the input `bs`. -/
def sufficientCapacity (op : Instr) (p : Config.Params) (bs : List Byte) : Prop :=
  match op with
  | .hexenc | .hexencSw => 2 * bs.length ≤ p.dstCap
  | .hexdec => bs.length ≤ 2 * p.dstCap
  | .pctenc => 3 * bs.length ≤ p.dstCap
  | .pctdec | .pctdecP => bs.length ≤ p.dstCap
  | .pctdecIp | .pctdecIpP => True
  | .rlencZ | .rlencZf => 2 * bs.length ≤ p.dstCap
  | .rldecZ => rldecCapacity inZ
  | .rldecZf => rldecCapacity inZF
where
  /-- Either condition that R249 gives for RLDEC: the bound on any input, or that of an input which is the matching encoder's output. -/
  rldecCapacity (q : Byte → Bool) : Prop :=
    255 * (bs.length / 2) + bs.length % 2 ≤ p.dstCap ∨ ∃ b : List Byte, bs = rlenc q b ∧ b.length ≤ p.dstCap

end Sys2Proof.Machine
end

