-- ==== Sys2Proof/Certificates/Slice0/Obligations.lean ====
section
/-! DEFINITION. The statements about this machine, for the provers. Each docstring says what is claimed; OBLIGATIONS.json names the rules. -/

open Sys2Proof Sys2Proof.Machine

/-- Decoding an encoded command gives it back (30_encoding.md R95). -/
def Obligations.DecodeInvertsEncode : Prop :=
  ∀ i : Instr, i.wellFormed = true → decode (encode i) = some i

/-- The decoder accepts exactly the twelve words of the command table (R95). -/
def Obligations.LegalWordsAreTheTableRows : Prop :=
  (∀ (w : Byte) (i : Instr), decode w = some i ↔ (w, i) ∈ opcodeTable) ∧
  opcodeTable.length = 12 ∧ (opcodeTable.map Prod.fst).Nodup ∧
  opcodeTable.map (fun r => (r.1, r.2.mnemonic, (fieldsOf r.1).unit.toNat, (fieldsOf r.1).m0, (fieldsOf r.1).m1, r.2.computes)) =
    [(0x01, "HEXENC", 1, false, false, "hex_encode"), (0x09, "HEXENC.SW", 1, true, false, "buffer_to_hex"),
     (0x02, "HEXDEC", 2, false, false, "hex_decode"), (0x03, "PCTENC", 3, false, false, "url_encode"),
     (0x04, "PCTDEC", 4, false, false, "url_decode(from, to, false)"),
     (0x0C, "PCTDEC.P", 4, true, false, "url_decode(from, to, true)"),
     (0x14, "PCTDEC.IP", 4, false, true, "in-place url_decode, flag false"),
     (0x1C, "PCTDEC.IP.P", 4, true, true, "in-place url_decode, flag true"),
     (0x05, "RLENC.Z", 5, false, false, "single-value run encode"),
     (0x0D, "RLENC.ZF", 5, true, false, "dual-value run encode"),
     (0x06, "RLDEC.Z", 6, false, false, "single-value run decode"),
     (0x0E, "RLDEC.ZF", 6, true, false, "dual-value run decode")]

/-- The illegal words are those R96 names by their fields, and there are 244 of them (30_encoding.md R96). -/
def Obligations.IllegalWordsByField : Prop :=
  (∀ w : Byte, decode w = none ↔
    (w.toNat / 32 ≠ 0 ∨ w.toNat % 8 = 0 ∨ w.toNat % 8 = 7 ∨ (w.toNat / 16 % 2 = 1 ∧ w.toNat % 8 ≠ 4) ∨
      (w.toNat / 8 % 2 = 1 ∧ (w.toNat % 8 = 2 ∨ w.toNat % 8 = 3)))) ∧
  ((List.range 256).filter (fun n => (decode (BitVec.ofNat 8 n)).isNone)).length = 244

/-- Words written out bit by bit from the encoding decode to their commands (30_encoding.md R90 to R95). -/
def Obligations.WrittenOutWordsDecode : Prop :=
  decode 0b00001001#8 = some .hexencSw ∧ decode 0b00000010#8 = some .hexdec ∧
  decode 0b00000011#8 = some .pctenc ∧ decode 0b00011100#8 = some .pctdecIpP ∧
  decode 0b00001101#8 = some .rlencZf ∧ decode 0b00000110#8 = some .rldecZ ∧
  decode 0b00001010#8 = none ∧ decode 0b00100001#8 = none

/-- Where the engine moves, a step is exec of the command that CMD decodes to (20_memory.md R76; 40_common.md R114). -/
def Obligations.StepRunsTheDecodedCommand : Prop :=
  ∀ (s : State) (i : Instr), nextAgent s = some .engine → decode s.cmd = some i → i.wellFormed = true →
    step s = exec i (takeTurn s) ∧ takeTurn s = { s with turns := (takeTurn s).turns }

/-- A command word placed by `withFetchWord` runs in the very next step. What is placed is the word of R90 and its issue is that of R111; that the
engine moves next is the model's choice (DESIGN CHOICE, log 9), since R72 leaves the next agent open (30_encoding.md R90; 40_common.md R111). -/
def Obligations.PlacedWordRunsNext : Prop :=
  ∀ (s : State) (nbits w : Nat) (i : Instr), decode (BitVec.ofNat 8 w) = some i →
    step (s.withFetchWord nbits w) = exec i (issue (BitVec.ofNat 8 w) s)

/-- The engine moves only while BUSY, and while both agents can move each of them may. The two clauses on exec and step of a state that is not BUSY are the
model's choice (DESIGN CHOICE, log 10: R72 says the engine has no step there), and the last clause speaks of `turns`, the model's choice too (log 7) (20_memory.md R72). -/
def Obligations.EngineMovesOnlyWhileBusy : Prop :=
  ∀ s : State, MachineInv s →
    (nextAgent s = some .engine → s.st = .busy) ∧
    (s.st ≠ .busy → ∀ i : Instr, exec i s = .next s) ∧ (s.st ≠ .busy → s.program = [] → step s = .next s) ∧
    (s.program ≠ [] → s.st ≠ .busy → nextAgent s = some .host) ∧
    (s.st = .busy → s.program = [] → nextAgent s = some .engine) ∧
    (s.st = .busy → s.program ≠ [] → ∀ a : Agent, ∃ ts : List Agent, nextAgent { s with turns := ts } = some a)

/-- Reset sets every register to its reset value and keeps the buffers, in any state (R240). -/
def Obligations.ResetSetsEveryRegister : Prop :=
  ∀ s : State, transact .reset s =
    { s with
      srcLen := 0, dstLen := 0, cmd := 0x00, st := .idle, err := none, ph := .off
      i := 0, o := 0, l := 0, cnt := 0, rv := 0x00, fsm := .copy }

/-- The registers of the reset state as the host reads them (10_state.md R37). -/
def Obligations.ResetStateReadsAsTheTable : Prop :=
  ∀ s : State, s = State.reset ∨ AfterReset s →
    regReadValue 0 s = .exact 0x00 ∧ regReadValue 1 s = .exact 0x00 ∧ regReadValue 2 s = .exact 0 ∧
    regReadValue 3 s = .exact 0 ∧ regReadValue 4 s = .exact s.cfg.srcCap ∧ regReadValue 5 s = .exact s.cfg.dstCap ∧
    s.ph = .off ∧ s.i = 0 ∧ s.o = 0 ∧ s.l = 0 ∧ s.cnt = 0 ∧ s.rv = 0x00 ∧ s.fsm = .copy

/-- The reset state meets the invariant (10_state.md R35, R37). -/
def Obligations.ResetMeetsTheInvariant : Prop :=
  MachineInv State.reset

/-- A write of CMD while ST is not BUSY issues an operation (R111). -/
def Obligations.CommandWriteIssues : Prop :=
  ∀ (s : State) (v : Nat),
    (s.st ≠ .busy → transact (.regWrite 0 v) s =
      { s with
        cmd := BitVec.ofNat 8 (v % 256), st := .busy, err := none, dstLen := 0, ph := .check
        i := 0, o := 0, l := 0, cnt := 0, rv := 0x00, fsm := .copy }) ∧
    (s.st = .busy → transact (.regWrite 0 v) s = s)

/-- The REG space: the effect of every write and the result of every read (R61). -/
def Obligations.RegisterSpaceMap : Prop :=
  ∀ s : State,
    (∀ r v, s.st = .busy → transact (.regWrite r v) s = s) ∧
    (∀ v, s.st ≠ .busy → transact (.regWrite 0 v) s = issue (BitVec.ofNat 8 v) s) ∧
    (∀ v, s.st ≠ .busy → v ≤ s.cfg.srcCap → transact (.regWrite 2 v) s = { s with srcLen := v }) ∧
    (∀ r v, s.st ≠ .busy → r ≠ 0 → ¬ (r = 2 ∧ v ≤ s.cfg.srcCap) → transact (.regWrite r v) s = s) ∧
    transact (.regRead 0) s = { s with readData := s.readData ++ [s.cmd.toNat] } ∧
    transact (.regRead 1) s = { s with readData := s.readData ++ [(statusWord s).toNat] } ∧
    (s.st ≠ .busy → transact (.regRead 2) s = { s with readData := s.readData ++ [s.srcLen] }) ∧
    (s.st ≠ .busy → transact (.regRead 3) s = { s with readData := s.readData ++ [s.dstLen] }) ∧
    transact (.regRead 4) s = { s with readData := s.readData ++ [s.cfg.srcCap] } ∧
    transact (.regRead 5) s = { s with readData := s.readData ++ [s.cfg.dstCap] } ∧
    (∀ r, s.st = .busy → r = 2 ∨ r = 3 → transact (.regRead r) s =
      { s with readData := s.readData ++ [Config.unspecifiedRead s.freeReads % 2 ^ s.cfg.lenw], freeReads := s.freeReads + 1 })

/-- The SRC space: a write stores its byte and nothing else, a read returns it (R62). -/
def Obligations.SrcSpaceAccess : Prop :=
  ∀ (s : State) (k : Nat) (b : Byte), s.st ≠ .busy → k < s.cfg.srcCap →
    srcByte (transact (.srcWrite k b) s) k = b ∧
    (∀ j, j ≠ k → srcByte (transact (.srcWrite k b) s) j = srcByte s j) ∧
    transact (.srcWrite k b) s = { s with src := (transact (.srcWrite k b) s).src } ∧
    transact (.srcRead k) s = { s with readData := s.readData ++ [(srcByte s k).toNat] }

/-- The DST space: a read returns the byte, a host write has no effect in any state (R63). -/
def Obligations.DstSpaceAccess : Prop :=
  (∀ (s : State) (k : Nat), s.st ≠ .busy → k < s.cfg.dstCap →
    transact (.dstRead k) s = { s with readData := s.readData ++ [(dstByte s k).toNat] }) ∧
  (∀ (s : State) (k : Nat) (b : Byte), transact (.dstWrite k b) s = s)

/-- Out-of-range and reserved accesses: writes do nothing, reads return an unspecified value (20_memory.md R69). -/
def Obligations.OutOfRangeAccess : Prop :=
  ∀ s : State,
    (∀ k b, s.cfg.srcCap ≤ k → transact (.srcWrite k b) s = s) ∧
    (∀ k b, transact (.dstWrite k b) s = s) ∧
    (∀ r v, 6 ≤ r → transact (.regWrite r v) s = s) ∧
    (∀ k, s.cfg.srcCap ≤ k → transact (.srcRead k) s =
      { s with readData := s.readData ++ [Config.unspecifiedRead s.freeReads % 256], freeReads := s.freeReads + 1 }) ∧
    (∀ k, s.cfg.dstCap ≤ k → transact (.dstRead k) s =
      { s with readData := s.readData ++ [Config.unspecifiedRead s.freeReads % 256], freeReads := s.freeReads + 1 }) ∧
    (∀ r, 6 ≤ r → transact (.regRead r) s =
      { s with readData := s.readData ++ [Config.unspecifiedRead s.freeReads], freeReads := s.freeReads + 1 })

/-- No read changes the block, and repeating a write is the same as making it once (R68). -/
def Obligations.ReadsChangeNothingAndWritesRepeat : Prop :=
  (∀ (s : State) (t : Transaction), (∃ k, t = .regRead k ∨ t = .srcRead k ∨ t = .dstRead k) →
    ∃ v n, transact t s = { s with readData := s.readData ++ [v], freeReads := n }) ∧
  (∀ (s : State) (k : Nat) (b : Byte),
    transact (.srcWrite k b) (transact (.srcWrite k b) s) = transact (.srcWrite k b) s) ∧
  (∀ (s : State) (v : Nat), transact (.regWrite 2 v) (transact (.regWrite 2 v) s) = transact (.regWrite 2 v) s) ∧
  (∀ (s : State) (v w : Nat), transact (.regWrite 0 w) (transact (.regWrite 0 v) s) = transact (.regWrite 0 v) s) ∧
  (∀ (s : State) (v : Nat), s.st ≠ .busy → transact (.regWrite 0 v) s = issue (BitVec.ofNat 8 v) s) ∧
  (∀ (s : State) (k : Nat) (b : Byte), transact (.srcWrite k b) s = { s with src := (transact (.srcWrite k b) s).src }) ∧
  (∀ (s : State) (r v : Nat), r ≠ 0 → transact (.regWrite r v) s = { s with srcLen := (transact (.regWrite r v) s).srcLen })

/-- While BUSY the host can change nothing of the block but by Reset, and cannot see the buffers (R73). -/
def Obligations.BusyBlockBelongsToTheEngine : Prop :=
  ∀ s : State, s.st = .busy →
    (∀ r v, transact (.regWrite r v) s = s) ∧ (∀ k b, transact (.srcWrite k b) s = s) ∧
    (∀ k b, transact (.dstWrite k b) s = s) ∧
    (∀ k, transact (.srcRead k) s =
      { s with readData := s.readData ++ [Config.unspecifiedRead s.freeReads % 256], freeReads := s.freeReads + 1 }) ∧
    (∀ k, transact (.dstRead k) s =
      { s with readData := s.readData ++ [Config.unspecifiedRead s.freeReads % 256], freeReads := s.freeReads + 1 }) ∧
    (∀ r, r = 2 ∨ r = 3 → transact (.regRead r) s =
      { s with readData := s.readData ++ [Config.unspecifiedRead s.freeReads % 2 ^ s.cfg.lenw], freeReads := s.freeReads + 1 }) ∧
    regReadValue 0 s = .exact s.cmd.toNat ∧ regReadValue 1 s = .exact (statusWord s).toNat ∧
    regReadValue 4 s = .exact s.cfg.srcCap ∧ regReadValue 5 s = .exact s.cfg.dstCap ∧
    (∀ t : Transaction, t ≠ .reset → input (transact t s) = input s ∧ (transact t s).srcLen = s.srcLen ∧
      (transact t s).cmd = s.cmd ∧ (transact t s).dst = s.dst)

/-- STATUS is ST in bits 1:0 and ERR in bits 4:2, and takes the seven values of R26 (R26). -/
def Obligations.StatusWordLayout : Prop :=
  (∀ s : State,
    (statusWord s).toNat % 4 = (match s.st with | .idle => 0 | .busy => 1 | .done => 2) ∧
    (statusWord s).toNat / 4 = (match s.err with
      | none => 0 | some .invalidLength => 1 | some .invalidCharacter => 2 | some .overflow => 3 | some .illegalCommand => 4)) ∧
  (∀ s : State, ReachableInvariants s →
    (statusWord s).toNat ∈ [0x00, 0x01, 0x02, 0x06, 0x0A, 0x0E, 0x12]) ∧
  (∀ (s : State) (v : Nat),
    transact (.regRead 1) s = { s with readData := s.readData ++ [(statusWord s).toNat] } ∧
    transact (.regWrite 1 v) s = s ∧ statusWord (transact .reset s) = 0x00)

/-- SRC_CAP and DST_CAP read their configuration values and nothing changes them (R29). -/
def Obligations.CapacitiesNeverChange : Prop :=
  (∀ s : State, regReadValue 4 s = .exact s.cfg.srcCap ∧ regReadValue 5 s = .exact s.cfg.dstCap) ∧
  (∀ (s : State) (v : Nat), transact (.regWrite 4 v) s = s ∧ transact (.regWrite 5 v) s = s) ∧
  (∀ s t : State, step s = .next t → t.cfg = s.cfg) ∧
  (∀ s : State, s.cfg.wellFormed = true → s.cfg.srcCap < 2 ^ s.cfg.lenw ∧ s.cfg.dstCap < 2 ^ s.cfg.lenw)

/-- The helper functions on bytes and nibbles: digits and their cases, their values, the unreserved set, the sentinels, splitting and combining (40_common.md R118, R119, R120, R121, R122). -/
def Obligations.HelperFunctionTables : Prop :=
  (∀ n : Nibble, (loHex n).toNat = (if n.toNat ≤ 9 then 0x30 + n.toNat else 0x61 + (n.toNat - 10)) ∧
    (upHex n).toNat = (if n.toNat ≤ 9 then 0x30 + n.toNat else 0x41 + (n.toNat - 10))) ∧
  (List.range 16).map (fun n => loHex (BitVec.ofNat 4 n)) =
    [0x30, 0x31, 0x32, 0x33, 0x34, 0x35, 0x36, 0x37, 0x38, 0x39, 0x61, 0x62, 0x63, 0x64, 0x65, 0x66] ∧
  (List.range 16).map (fun n => upHex (BitVec.ofNat 4 n)) =
    [0x30, 0x31, 0x32, 0x33, 0x34, 0x35, 0x36, 0x37, 0x38, 0x39, 0x41, 0x42, 0x43, 0x44, 0x45, 0x46] ∧
  (∀ n : Nibble, hexval (loHex n) = some n ∧ hexval (upHex n) = some n) ∧
  (∀ d : Nat, d < 10 → hexval (BitVec.ofNat 8 (0x30 + d)) = some (BitVec.ofNat 4 d)) ∧
  (∀ d : Nat, d < 6 → hexval (BitVec.ofNat 8 (0x61 + d)) = some (BitVec.ofNat 4 (10 + d)) ∧
    hexval (BitVec.ofNat 8 (0x41 + d)) = some (BitVec.ofNat 4 (10 + d))) ∧
  ((List.range 256).filter (fun c => isHex (BitVec.ofNat 8 c))).length = 22 ∧
  ((List.range 256).filter (fun c => unreserved (BitVec.ofNat 8 c))).length = 66 ∧
  (∀ b : Byte, unreserved b = true ↔
    (0x41 ≤ b.toNat ∧ b.toNat ≤ 0x5A) ∨ (0x61 ≤ b.toNat ∧ b.toNat ≤ 0x7A) ∨ (0x30 ≤ b.toNat ∧ b.toNat ≤ 0x39) ∨
      b = 0x2D ∨ b = 0x2E ∨ b = 0x5F ∨ b = 0x7E) ∧
  (∀ b : Byte, (inZ b = true ↔ b = 0x00) ∧ (inZF b = true ↔ b = 0x00 ∨ b = 0xFF)) ∧
  unreserved 0x25 = false ∧ unreserved 0x2B = false ∧ unreserved 0x20 = false ∧
  (∀ b : Byte, b.toNat = 16 * (hiNibble b).toNat + (loNibble b).toNat) ∧
  (∀ h l : Nibble, (combine h l).toNat = 16 * h.toNat + l.toNat ∧ 16 * h.toNat + l.toNat < 256)

/-- The CHECK step of every command, where the function succeeds and the result fits (40_common.md R112, R113). -/
def Obligations.CheckAcceptsAndMeasures : Prop :=
  ∀ (i : Instr) (s : State) (out : List Byte), CheckReady s → commandFunction i (input s) = .ok out →
    fits i s.cfg s.srcLen out.length = true →
    exec i s = .next { s with l := out.length, ph := .scan }

/-- A CHECK step either opens the scan or completes with an error, and writes no buffer byte (40_common.md R112, R116; 60_exceptions.md R209). -/
def Obligations.CheckStepHasThreeOutcomes : Prop :=
  ∀ (i : Instr) (s : State), CheckReady s →
    (∃ out, commandFunction i (input s) = .ok out ∧ exec i s = .next { s with l := out.length, ph := .scan }) ∨
    (∃ e, commandFunction i (input s) = .err e ∧ exec i s = .next { s with err := some e, st := .done, ph := .off }) ∨
    (∃ out, commandFunction i (input s) = .ok out ∧
      exec i s = .next { s with l := out.length, err := some .overflow, st := .done, ph := .off })

/-- Overflow is raised exactly when the result does not fit, and never in place (R203). -/
def Obligations.OverflowExactlyWhenItDoesNotFit : Prop :=
  (∀ (i : Instr) (s : State) (out : List Byte), CheckReady s → commandFunction i (input s) = .ok out →
    ((i = .pctdec ∨ i = .pctdecP) →
      (s.cfg.dstCap < s.srcLen →
        exec i s = .next { s with l := out.length, err := some .overflow, st := .done, ph := .off }) ∧
      (s.srcLen ≤ s.cfg.dstCap → exec i s = .next { s with l := out.length, ph := .scan })) ∧
    (i ∈ [Instr.hexenc, .hexencSw, .hexdec, .pctenc, .rlencZ, .rlencZf, .rldecZ, .rldecZf] →
      (s.cfg.dstCap < out.length →
        exec i s = .next { s with l := out.length, err := some .overflow, st := .done, ph := .off }) ∧
      (out.length ≤ s.cfg.dstCap → exec i s = .next { s with l := out.length, ph := .scan })) ∧
    ((i = .pctdecIp ∨ i = .pctdecIpP) → exec i s = .next { s with l := out.length, ph := .scan })) ∧
  (∀ (i : Instr) (s : State) (e : ErrKind), CheckReady s → commandFunction i (input s) = .err e →
    e ≠ .overflow ∧ exec i s = .next { s with err := some e, st := .done, ph := .off }) ∧
  (∀ (i : Instr) (s t : State), exec i s = .next t → t.err = some .overflow → s.err = some .overflow ∨
    (s.ph = .check ∧ ∃ out, commandFunction i (input s) = .ok out ∧ fits i s.cfg s.srcLen out.length = false))

/-- HEXDEC on an odd length completes with InvalidLength whatever the characters; nothing else raises it (R201). -/
def Obligations.HexdecOddLengthIsInvalidLength : Prop :=
  (∀ s : State, CheckReady s → s.srcLen % 2 = 1 →
    exec .hexdec s = .next { s with err := some .invalidLength, st := .done, ph := .off }) ∧
  (∀ (i : Instr) (s t : State), i ≠ .hexdec → exec i s = .next t → t.err = some .invalidLength →
    s.err = some .invalidLength)

/-- HEXDEC on an even length with a byte that is no hex digit completes with InvalidCharacter (R202). -/
def Obligations.HexdecBadCharacterIsInvalidCharacter : Prop :=
  (∀ (s : State) (k : Nat), CheckReady s → s.srcLen % 2 = 0 → k < s.srcLen → hexval (srcByte s k) = none →
    exec .hexdec s = .next { s with err := some .invalidCharacter, st := .done, ph := .off }) ∧
  (∀ (i : Instr) (s t : State), i ≠ .hexdec → exec i s = .next t → t.err = some .invalidCharacter →
    s.err = some .invalidCharacter)

/-- A word that is no command completes with IllegalCommand in its CHECK step and changes nothing else (R204). -/
def Obligations.IllegalCommandCompletesInCheck : Prop :=
  ∀ s : State, s.ph = .check → (∀ row ∈ opcodeTable, s.cmd ≠ row.1) →
    engineTurn s = .next { s with err := some .illegalCommand, st := .done, ph := .off }

/-- An operation reports the first error that applies: IllegalCommand, InvalidLength, InvalidCharacter, Overflow (R208). -/
def Obligations.ErrorPriority : Prop :=
  ∀ s : State, CheckReady s → ∃ t, engineTurn s = .next t ∧
    (decode s.cmd = none → t.err = some .illegalCommand) ∧
    (decode s.cmd = some .hexdec → s.srcLen % 2 = 1 → t.err = some .invalidLength) ∧
    (decode s.cmd = some .hexdec → s.srcLen % 2 = 0 → (∃ c ∈ input s, hexval c = none) →
      t.err = some .invalidCharacter) ∧
    (∀ i out, decode s.cmd = some i → commandFunction i (input s) = .ok out →
      fits i s.cfg s.srcLen out.length = false → t.err = some .overflow) ∧
    (∀ i out, decode s.cmd = some i → commandFunction i (input s) = .ok out →
      fits i s.cfg s.srcLen out.length = true → t.err = s.err)

/-- Eleven of the twelve functions succeed on every input; only HEXDEC's can fail (40_common.md R129; 60_exceptions.md R205). -/
def Obligations.OnlyHexdecHasAFailingFunction : Prop :=
  (∀ (i : Instr) (bs : List Byte), i ≠ .hexdec → ∃ out, commandFunction i bs = .ok out) ∧
  (∀ bs : List Byte,
    (bs.length % 2 = 1 → commandFunction .hexdec bs = .err .invalidLength) ∧
    (bs.length % 2 = 0 → (∃ c ∈ bs, hexval c = none) → commandFunction .hexdec bs = .err .invalidCharacter) ∧
    (bs.length % 2 = 0 → (∀ c ∈ bs, hexval c ≠ none) → ∃ out, commandFunction .hexdec bs = .ok out))

/-- Under the conditions of R249 no command can end in Overflow (70_reset_and_hazards.md R249; 43_runlength.md R182). -/
def Obligations.SufficientCapacityRulesOutOverflow : Prop :=
  (∀ (i : Instr) (s : State) (out : List Byte), CheckReady s → sufficientCapacity i s.cfg (input s) →
    commandFunction i (input s) = .ok out → exec i s = .next { s with l := out.length, ph := .scan }) ∧
  (∀ (i : Instr) (s : State) (out : List Byte), CheckReady s → s.cfg = Config.reference → i ≠ .rldecZ → i ≠ .rldecZf →
    commandFunction i (input s) = .ok out → exec i s = .next { s with l := out.length, ph := .scan })

/-- The SCAN bodies of HEXENC and HEXENC.SW: two digits emitted to DST, I + 1, O + 2 (41_hex.md R140, R141). -/
def Obligations.HexencScanBodies : Prop :=
  ∀ s : State, ScanReady s → s.o + 2 ≤ s.cfg.dstCap →
    exec .hexenc s = .next { s with
      dst := Memory.write (Memory.write s.dst s.o (loHex (BitVec.ofNat 4 ((srcByte s s.i).toNat / 16))))
        (s.o + 1) (loHex (BitVec.ofNat 4 ((srcByte s s.i).toNat % 16)))
      o := s.o + 2, i := s.i + 1 } ∧
    exec .hexencSw s = .next { s with
      dst := Memory.write (Memory.write s.dst s.o (upHex (BitVec.ofNat 4 ((srcByte s s.i).toNat % 16))))
        (s.o + 1) (upHex (BitVec.ofNat 4 ((srcByte s s.i).toNat / 16)))
      o := s.o + 2, i := s.i + 1 }

/-- The SCAN body of HEXDEC: one byte from two digits, I + 2, O + 1 (41_hex.md R142). -/
def Obligations.HexdecScanBody : Prop :=
  ∀ (s : State) (h l : Nibble), ScanReady s → s.i + 1 < s.srcLen → s.o + 1 ≤ s.cfg.dstCap →
    hexval (srcByte s s.i) = some h → hexval (srcByte s (s.i + 1)) = some l →
    exec .hexdec s = .next { s with
      dst := Memory.write s.dst s.o (BitVec.ofNat 8 (16 * h.toNat + l.toNat)), o := s.o + 1, i := s.i + 2 }

/-- The SCAN body of PCTENC: an unreserved byte passes through, any other becomes a triplet (42_percent.md R150). -/
def Obligations.PctencScanBody : Prop :=
  ∀ s : State, ScanReady s →
    (unreserved (srcByte s s.i) = true → s.o + 1 ≤ s.cfg.dstCap →
      exec .pctenc s = .next { s with dst := Memory.write s.dst s.o (srcByte s s.i), o := s.o + 1, i := s.i + 1 }) ∧
    (unreserved (srcByte s s.i) = false → s.o + 3 ≤ s.cfg.dstCap →
      exec .pctenc s = .next { s with
        dst := Memory.write (Memory.write (Memory.write s.dst s.o 0x25)
          (s.o + 1) (upHex (hiNibble (srcByte s s.i)))) (s.o + 2) (upHex (loNibble (srcByte s s.i)))
        o := s.o + 3, i := s.i + 1 })

/-- The SCAN bodies of the four PCTDEC commands: escape, plus as space, literal (42_percent.md R153 to R157). -/
def Obligations.PctdecScanBodies : Prop :=
  ∀ (s : State) (i : Instr) (plus : Bool), ScanReady s →
    (i, plus) ∈ [(Instr.pctdec, false), (.pctdecP, true), (.pctdecIp, false), (.pctdecIpP, true)] →
    ∀ (v : Byte) (n : Nat),
    ((∃ h l : Nibble, srcByte s s.i = 0x25 ∧ s.i + 2 < s.srcLen ∧ hexval (srcByte s (s.i + 1)) = some h ∧
        hexval (srcByte s (s.i + 2)) = some l ∧ v = BitVec.ofNat 8 (16 * h.toNat + l.toNat) ∧ n = 3) ∨
      (¬ (srcByte s s.i = 0x25 ∧ s.i + 2 < s.srcLen ∧ (hexval (srcByte s (s.i + 1))).isSome = true ∧
          (hexval (srcByte s (s.i + 2))).isSome = true) ∧
        v = (if plus = true ∧ srcByte s s.i = 0x2B then 0x20 else srcByte s s.i) ∧ n = 1)) →
    (i = .pctdec ∨ i = .pctdecP → s.o + 1 ≤ s.cfg.dstCap →
      exec i s = .next { s with dst := Memory.write s.dst s.o v, o := s.o + 1, i := s.i + n }) ∧
    (i = .pctdecIp ∨ i = .pctdecIpP → s.o + 1 ≤ s.cfg.srcCap →
      exec i s = .next { s with src := Memory.write s.src s.o v, o := s.o + 1, i := s.i + n })

/-- The SCAN bodies of RLENC.Z and RLENC.ZF in COPY and in RUN (43_runlength.md R176). -/
def Obligations.RlencScanBodies : Prop :=
  ∀ (s : State) (i : Instr) (dual : Bool), ScanReady s → s.o + 1 ≤ s.cfg.dstCap →
    (i, dual) ∈ [(Instr.rlencZ, false), (.rlencZf, true)] →
    (s.fsm = .copy → (srcByte s s.i = 0x00 ∨ (dual = true ∧ srcByte s s.i = 0xFF)) →
      exec i s = .next { s with
        dst := Memory.write s.dst s.o (srcByte s s.i), o := s.o + 1, rv := srcByte s s.i, fsm := .run }) ∧
    (s.fsm = .copy → ¬ (srcByte s s.i = 0x00 ∨ (dual = true ∧ srcByte s s.i = 0xFF)) →
      exec i s = .next { s with dst := Memory.write s.dst s.o (srcByte s s.i), o := s.o + 1, i := s.i + 1 }) ∧
    (∀ c : Nat, s.fsm = .run → 1 ≤ c → c ≤ 250 → s.i + c ≤ s.srcLen → (∀ k, k < c → srcByte s (s.i + k) = s.rv) →
      (c = 250 ∨ s.i + c = s.srcLen ∨ srcByte s (s.i + c) ≠ s.rv) →
      exec i s = .next { s with
        dst := Memory.write s.dst s.o (BitVec.ofNat 8 c), o := s.o + 1, cnt := c, i := s.i + c, fsm := .copy })

/-- The SCAN bodies of RLDEC.Z and RLDEC.ZF in COPY and in RUN (43_runlength.md R177). -/
def Obligations.RldecScanBodies : Prop :=
  ∀ (s : State) (i : Instr) (dual : Bool), ScanReady s → (i, dual) ∈ [(Instr.rldecZ, false), (.rldecZf, true)] →
    (s.fsm = .copy → (srcByte s s.i = 0x00 ∨ (dual = true ∧ srcByte s s.i = 0xFF)) → s.i + 1 < s.srcLen →
      exec i s = .next { s with rv := srcByte s s.i, cnt := (srcByte s (s.i + 1)).toNat, fsm := .run }) ∧
    (s.fsm = .copy → ¬ ((srcByte s s.i = 0x00 ∨ (dual = true ∧ srcByte s s.i = 0xFF)) ∧ s.i + 1 < s.srcLen) →
      s.o + 1 ≤ s.cfg.dstCap →
      exec i s = .next { s with dst := Memory.write s.dst s.o (srcByte s s.i), o := s.o + 1, i := s.i + 1 }) ∧
    (s.fsm = .run → s.o + s.cnt ≤ s.cfg.dstCap →
      ∃ t, exec i s = .next t ∧ t = { s with dst := t.dst, o := s.o + s.cnt, i := s.i + 2, fsm := .copy } ∧
        (∀ k, s.o ≤ k → k < s.o + s.cnt → dstByte t k = s.rv) ∧
        (∀ k, ¬ (s.o ≤ k ∧ k < s.o + s.cnt) → dstByte t k = dstByte s k))

/-- The finish arm: the output length goes to DST_LEN, or in place to SRC_LEN, and the operation is done (40_common.md R115). -/
def Obligations.FinishDeliversTheLength : Prop :=
  ∀ (i : Instr) (s : State), s.ph = .scan → s.srcLen ≤ s.i →
    (i = .pctdecIp ∨ i = .pctdecIpP → exec i s = .next { s with srcLen := s.o, st := .done, ph := .off }) ∧
    (i ≠ .pctdecIp → i ≠ .pctdecIpP → exec i s = .next { s with dstLen := s.o, st := .done, ph := .off })

/-- I and O advance per SCAN body as the table of R125, and O by the number of bytes the body stores at O (40_common.md R125, R126). -/
def Obligations.ScanAdvancesAsTheTable : Prop :=
  ∀ (i : Instr) (s t : State), ScanReady s → exec i s = .next t →
    t.i = s.i + indexAdvance i s ∧ t.o = s.o + outputAdvance i s ∧ (s.fsm = .run → i ∈ [Instr.rlencZ, .rlencZf, .rldecZ, .rldecZf] →
      t.fsm = .copy) ∧
    ∃ bs : List Byte, bs.length = outputAdvance i s ∧
      (i ≠ .pctdecIp → i ≠ .pctdecIpP → t.dst = Memory.writeAll s.dst s.o bs ∧ t.src = s.src) ∧
      (i = .pctdecIp ∨ i = .pctdecIpP → t.src = Memory.writeAll s.src s.o bs ∧ t.dst = s.dst)

/-- The frame of a SCAN body: only the output bytes at O and the working registers change (20_memory.md R78, R79; 10_state.md R23, R31). -/
def Obligations.ScanWritesOnlyItsOutputBytes : Prop :=
  ∀ (i : Instr) (s t : State), ScanReady s → exec i s = .next t →
    t = { s with src := t.src, dst := t.dst, i := t.i, o := t.o, cnt := t.cnt, rv := t.rv, fsm := t.fsm } ∧
    (i ∉ [Instr.rlencZ, .rlencZf, .rldecZ, .rldecZf] → t.cnt = s.cnt ∧ t.rv = s.rv ∧ t.fsm = s.fsm) ∧
    (i ≠ .pctdecIp → i ≠ .pctdecIpP → (∀ k, srcByte t k = srcByte s k) ∧
      (∀ k, ¬ (s.o ≤ k ∧ k < s.o + outputAdvance i s) → dstByte t k = dstByte s k)) ∧
    (i = .pctdecIp ∨ i = .pctdecIpP → (∀ k, dstByte t k = dstByte s k) ∧
      (∀ k, k ≠ s.o → srcByte t k = srcByte s k))

/-- An engine step neither reads nor writes the host's side (20_memory.md R73; 00_scope.md R8). -/
def Obligations.EngineDoesNotSeeTheHost : Prop :=
  ∀ (i : Instr) (s : State) (p : List Transaction) (ts : List Agent) (d : List Nat) (n : Nat),
    exec i { s with program := p, turns := ts, readData := d, freeReads := n } =
      match exec i s with
      | .next t => .next { t with program := p, turns := ts, readData := d, freeReads := n }
      | .fault f => .fault f
      | .refused r => .refused r

/-- HEXENC and HEXENC.SW functions, digit by digit (41_hex.md R140, R141). -/
def Obligations.HexFunctionsDigitByDigit : Prop :=
  ∀ s : List Byte, ∃ out sw, commandFunction .hexenc s = .ok out ∧ commandFunction .hexencSw s = .ok sw ∧
    out.length = 2 * s.length ∧ sw.length = 2 * s.length ∧
    (∀ (k : Nat) (b : Byte), s[k]? = some b →
      out[2 * k]? = some (loHex (BitVec.ofNat 4 (b.toNat / 16))) ∧ out[2 * k + 1]? = some (loHex (BitVec.ofNat 4 (b.toNat % 16))) ∧
      sw[2 * k]? = some (upHex (BitVec.ofNat 4 (b.toNat % 16))) ∧ sw[2 * k + 1]? = some (upHex (BitVec.ofNat 4 (b.toNat / 16))))

/-- The HEXDEC function, pair by pair (41_hex.md R142). -/
def Obligations.HexdecFunctionPairByPair : Prop :=
  ∀ s out : List Byte, commandFunction .hexdec s = .ok out →
    s.length = 2 * out.length ∧
    (∀ k : Nat, k < out.length → ∃ (c d : Byte) (h l : Nibble), s[2 * k]? = some c ∧ s[2 * k + 1]? = some d ∧
      hexval c = some h ∧ hexval d = some l ∧ out[k]? = some (BitVec.ofNat 8 (16 * h.toNat + l.toNat)))

/-- Hex decoding inverts hex encoding, and the converse gives the text in lowercase (41_hex.md R143). -/
def Obligations.HexRoundTrip : Prop :=
  (∀ b : List Byte, ∃ e, commandFunction .hexenc b = .ok e ∧ commandFunction .hexdec e = .ok b) ∧
  (∀ t out : List Byte, commandFunction .hexdec t = .ok out → commandFunction .hexenc out = .ok (t.map lowerDigit))

/-- HEXDEC of HEXENC.SW output gives the bytes with their nibbles swapped (R144). -/
def Obligations.SwappedHexIsNotInverted : Prop :=
  ∀ b : List Byte, ∃ e, commandFunction .hexencSw b = .ok e ∧
    commandFunction .hexdec e = .ok (b.map (fun x => BitVec.ofNat 8 (16 * (x.toNat % 16) + x.toNat / 16)))

/-- The PCTENC output has 3N - 2U bytes, and at finish O is the L that CHECK computed (R151). -/
def Obligations.PctencLengthIsPrecomputed : Prop :=
  (∀ s out : List Byte, commandFunction .pctenc s = .ok out →
    out.length + 2 * (s.filter unreserved).length = 3 * s.length) ∧
  (∀ s t : State, CheckReady s → exec .pctenc s = .next t →
    t.l + 2 * ((input s).filter unreserved).length = 3 * s.srcLen) ∧
  (∀ s : State, MachineInv s → s.ph = .scan → s.srcLen ≤ s.i → s.o = s.l ∧ s.i = s.srcLen)

/-- PCTENC gives the input back exactly when every byte is unreserved (R152). -/
def Obligations.PctencUnchangedWhenUnreserved : Prop :=
  ∀ s out : List Byte, commandFunction .pctenc s = .ok out →
    (out.length = s.length ↔ ∀ b ∈ s, unreserved b = true) ∧ (out.length = s.length → out = s)

/-- Percent decoding inverts percent encoding, with either flag and in either place (42_percent.md R158). -/
def Obligations.PercentRoundTrip : Prop :=
  ∀ b : List Byte, ∃ e, commandFunction .pctenc b = .ok e ∧ commandFunction .pctdec e = .ok b ∧
    commandFunction .pctdecP e = .ok b ∧ commandFunction .pctdecIp e = .ok b ∧ commandFunction .pctdecIpP e = .ok b

/-- A decoded text is shorter by two bytes per decoded escape, whatever the flag (R159). -/
def Obligations.UrldecLength : Prop :=
  ∀ (plus : Bool) (s : List Byte),
    (urldec plus s).length + 2 * escapeCount s = s.length ∧ (urldec plus s).length ≤ s.length ∧
    ((urldec plus s).length = s.length ↔ escapeCount s = 0)

/-- Run-length decoding inverts run-length encoding with the same predicate (43_runlength.md R179). -/
def Obligations.RunRoundTrip : Prop :=
  (∀ (p : Byte → Bool) (b : List Byte), rldec p (rlenc p b) = b) ∧
  (∀ b : List Byte, (∃ e, commandFunction .rlencZ b = .ok e ∧ commandFunction .rldecZ e = .ok b) ∧
    (∃ e, commandFunction .rlencZf b = .ok e ∧ commandFunction .rldecZf e = .ok b))

/-- Every run-length encoding is a sequence of literals and (sentinel, count) pairs with counts 1 to 250 (43_runlength.md R178). -/
def Obligations.EncodedFormHasCountsAfterSentinels : Prop :=
  (∀ (p : Byte → Bool) (s : List Byte), RunCoded p (rlenc p s)) ∧
  (∀ c : Byte, 1 ≤ c.toNat → c.toNat ≤ Config.runMax → inZ c = false ∧ inZF c = false)

/-- A stretch of n sentinel bytes gives n div 250 full pairs and one pair for the rest, whatever follows it; two stretches never merge (43_runlength.md R170, R173, R180, R181). -/
def Obligations.LongRunsSplitGreedily : Prop :=
  (∀ (p : Byte → Bool) (v : Byte) (n : Nat) (rest : List Byte), p v = true → rest.head? ≠ some v →
    rlenc p (List.replicate n v ++ rest) = runPairs v n ++ rlenc p rest) ∧
  (∀ n : Nat, commandFunction .rlencZ (List.replicate n 0x00) = .ok (runPairs 0x00 n)) ∧
  (∀ m n : Nat, commandFunction .rlencZf (List.replicate m 0x00 ++ List.replicate n 0xFF) = .ok (runPairs 0x00 m ++ runPairs 0xFF n)) ∧
  (∀ m n : Nat, commandFunction .rlencZf (List.replicate m 0xFF ++ List.replicate n 0x00) = .ok (runPairs 0xFF m ++ runPairs 0x00 n)) ∧
  commandFunction .rlencZ (List.replicate 300 0x00) = .ok [0x00, 0xFA, 0x00, 0x32] ∧
  commandFunction .rlencZf [0x00, 0x00, 0xFF, 0xFF, 0xFF] = .ok [0x00, 0x02, 0xFF, 0x03]

/-- The size bounds of the run codecs (R182). -/
def Obligations.RunCodecSizes : Prop :=
  ∀ (p : Byte → Bool) (s : List Byte),
    (rlenc p s).length ≤ 2 * s.length ∧
    ((rlenc p s).length = 2 * s.length ↔ (∀ b ∈ s, p b = true) ∧ s.IsChain (· ≠ ·)) ∧
    ((∀ b ∈ s, p b = false) → rlenc p s = s) ∧
    (rldec p s).length ≤ 255 * (s.length / 2) + s.length % 2 ∧ (rldec p s).length ≤ 128 * s.length

/-- ERR is written by an issue and by Reset, to NONE, and by a completion with error; every other step keeps it (60_exceptions.md R211; 10_state.md R28). -/
def Obligations.ErrIsWrittenByCompletionIssueAndReset : Prop :=
  ∀ s t : State, MachineInv s → step s = .next t →
    (s.st = .busy → s.err = none) ∧
    (nextAgent s = some .host → s.program.head? = some .reset → t.err = none) ∧
    (∀ v, nextAgent s = some .host → s.program.head? = some (.regWrite 0 v) → s.st ≠ .busy → t.err = none) ∧
    (∀ x, nextAgent s = some .host → s.program.head? = some x → x ≠ .reset → (∀ v, x = .regWrite 0 v → s.st = .busy) →
      t.err = s.err) ∧
    (nextAgent s = some .engine → s.ph = .check → t.st = .done → ∃ e, t.err = some e) ∧
    (nextAgent s = some .engine → ¬ (s.ph = .check ∧ t.st = .done) → t.err = s.err) ∧
    (nextAgent s = none → t.err = s.err)

/-- The transitions of ST: issue, completion and reset, and no other (10_state.md R27). -/
def Obligations.StatusTransitions : Prop :=
  ∀ s t : State, MachineInv s → step s = .next t →
    t.st = s.st ∨
    (s.st ≠ .busy ∧ t.st = .busy ∧ nextAgent s = some .host ∧ ∃ v, s.program.head? = some (.regWrite 0 v)) ∨
    (s.st = .busy ∧ t.st = .done ∧ nextAgent s = some .engine) ∨
    (t.st = .idle ∧ nextAgent s = some .host ∧ s.program.head? = some .reset)

/-- Every step keeps the invariant (10_state.md R35; 20_memory.md R69). -/
def Obligations.EveryStepKeepsTheInvariant : Prop :=
  ∀ s t : State, MachineInv s → step s = .next t → MachineInv t

/-- In a state meeting the invariant no step faults or is refused (40_common.md R117; 20_memory.md R69). -/
def Obligations.NoStepStops : Prop :=
  ∀ s : State, MachineInv s → ∃ t, step s = .next t

/-- The seven invariants of R35 hold in every state reachable from reset (R35). -/
def Obligations.ReachableStatesMeetR35 : Prop :=
  ∀ s : State, Reachable s → ReachableInvariants s

/-- The two descriptions of every command agree: an operation delivers exactly its function's result (R130). -/
def Obligations.OperationComputesItsFunction : Prop :=
  ∀ (s : State) (op : Instr), CheckReady s → FreshOperation s → s.st = .busy → Transaction.reset ∉ s.program →
    decode s.cmd = some op →
    (∀ e, commandFunction op (input s) = .err e →
      ∃ (k : Nat) (t : State), k ≤ 1 + s.program.length ∧ runSteps k s = .next t ∧
        t = { s with
              err := some e, st := .done, ph := .off
              program := t.program, turns := t.turns, readData := t.readData, freeReads := t.freeReads }) ∧
    (∀ out, commandFunction op (input s) = .ok out → fits op s.cfg s.srcLen out.length = false →
      ∃ (k : Nat) (t : State), k ≤ 1 + s.program.length ∧ runSteps k s = .next t ∧
        t = { s with
              l := out.length, err := some .overflow, st := .done, ph := .off
              program := t.program, turns := t.turns, readData := t.readData, freeReads := t.freeReads }) ∧
    (∀ out, commandFunction op (input s) = .ok out → fits op s.cfg s.srcLen out.length = true →
      ∃ (k : Nat) (t : State), k ≤ 2 * s.srcLen + 2 + s.program.length ∧ runSteps k s = .next t ∧
        t = { s with
              src := t.src, srcLen := t.srcLen, dst := t.dst, dstLen := t.dstLen, st := .done, ph := .off
              i := s.srcLen, o := out.length, l := out.length, cnt := t.cnt, rv := t.rv, fsm := .copy
              program := t.program, turns := t.turns, readData := t.readData, freeReads := t.freeReads } ∧
        (inPlace op = false → t.dstLen = out.length ∧ dstSlice t 0 out.length = out ∧
          (∀ j, out.length ≤ j → dstByte t j = dstByte s j) ∧ t.src = s.src ∧ t.srcLen = s.srcLen) ∧
        (inPlace op = true → t.srcLen = out.length ∧ srcSlice t 0 out.length = out ∧
          (∀ j, out.length ≤ j → srcByte t j = srcByte s j) ∧ t.dst = s.dst ∧ t.dstLen = s.dstLen))

/-- Every issued operation completes, however the host interleaves, unless reset (40_common.md R117; 70_reset_and_hazards.md R254). -/
def Obligations.EveryIssuedOperationCompletes : Prop :=
  ∀ s : State, MachineInv s → s.st = .busy → Transaction.reset ∉ s.program →
    ∃ (k : Nat) (t : State), k ≤ 2 * s.srcLen + 2 + s.program.length ∧ runSteps k s = .next t ∧ t.st = .done

/-- The result of an operation depends on its command and its input only (00_scope.md R8; 60_exceptions.md R210). -/
def Obligations.ResultDependsOnCommandAndInputOnly : Prop :=
  ∀ (s s' t t' : State) (op : Instr) (k : Nat), CheckReady s → CheckReady s' → FreshOperation s → FreshOperation s' →
    s.program = [] → s'.program = [] → decode s.cmd = some op → s'.cmd = s.cmd → s'.cfg = s.cfg →
    s'.st = s.st → s'.err = s.err → s'.dstLen = s.dstLen → input s' = input s →
    runSteps k s = .next t → runSteps k s' = .next t' →
    t'.st = t.st ∧ t'.ph = t.ph ∧ t'.err = t.err ∧ t'.srcLen = t.srcLen ∧ t'.dstLen = t.dstLen ∧
    t'.i = t.i ∧ t'.o = t.o ∧ t'.l = t.l ∧
    t'.cnt = t.cnt ∧ t'.rv = t.rv ∧ t'.fsm = t.fsm ∧
    (inPlace op = false → dstSlice t' 0 t.o = dstSlice t 0 t.o) ∧
    (inPlace op = true → srcSlice t' 0 t.o = srcSlice t 0 t.o)

/-- A host that respects the hazards never reads an unspecified value (70_reset_and_hazards.md R244 to R248; 93_implementation_defined.md U3, U4, U5). -/
def Obligations.RespectedHazardsGiveExactReads : Prop :=
  ∀ (s : State) (t : Transaction), MachineInv s → respectsHazards s t = true →
    specifiedRead s t ∧ (transact t s).freeReads = s.freeReads
end

