-- ==== Sys2Proof/Laws/Memory.lean ====
section
/-! SUPPORT. The laws of buffers: a read after a write, the canonical form is kept, and the slices of SRC and DST. -/

namespace Sys2Proof.Machine

theorem Memory.read_write_same (m : Memory) (k : Nat) (v : Byte) : Memory.read (Memory.write m k v) k = some v := by
  induction m with
  | nil => simp [Memory.write, Memory.read]
  | cons c m ih =>
    obtain ⟨a, b⟩ := c
    by_cases h1 : k < a
    · simp [Memory.write, h1, Memory.read]
    · by_cases h2 : k = a
      · simp [Memory.write, h2, Memory.read]
      · simp [Memory.write, h1, h2, Memory.read, Ne.symm h2, ih]

theorem Memory.read_write_other (m : Memory) (k j : Nat) (v : Byte) (h : j ≠ k) :
    Memory.read (Memory.write m k v) j = Memory.read m j := by
  induction m with
  | nil => simp [Memory.write, Memory.read, Ne.symm h]
  | cons c m ih =>
    obtain ⟨a, b⟩ := c
    by_cases h1 : k < a
    · simp [Memory.write, h1, Memory.read, Ne.symm h]
    · by_cases h2 : k = a
      · subst h2; simp [Memory.write, Memory.read, Ne.symm h]
      · simp [Memory.write, h1, h2, Memory.read, ih]

/-- What `Memory.write` can do to a read. -/
theorem Memory.read_write (m : Memory) (k j : Nat) (v : Byte) :
    Memory.read (Memory.write m k v) j = if j = k then some v else Memory.read m j := by
  split
  · next h => subst h; exact Memory.read_write_same m j v
  · next h => exact Memory.read_write_other m k j v h

/-- What `Memory.writeAll` can do to a read. -/
theorem Memory.read_writeAll (m : Memory) (k j : Nat) (vs : List Byte) :
    Memory.read (Memory.writeAll m k vs) j =
      if k ≤ j ∧ j < k + vs.length then vs[j - k]? else Memory.read m j := by
  induction vs generalizing m k with
  | nil => simp [Memory.writeAll]
  | cons v vs ih =>
    rw [Memory.writeAll, ih, Memory.read_write]
    by_cases h : k = j
    · subst h; simp
    · by_cases h1 : k ≤ j ∧ j < k + (v :: vs).length
      · have h2 : k + 1 ≤ j ∧ j < k + 1 + vs.length := by
          simp only [List.length_cons] at h1; omega
        rw [if_pos h1, if_pos h2]
        obtain ⟨d, rfl⟩ := Nat.exists_eq_add_of_le h2.1
        rw [show k + 1 + d - (k + 1) = d by omega, show k + 1 + d - k = d + 1 by omega, List.getElem?_cons_succ]
      · have h2 : ¬ (k + 1 ≤ j ∧ j < k + 1 + vs.length) := by
          simp only [List.length_cons] at h1; omega
        rw [if_neg h1, if_neg h2, if_neg (Ne.symm h)]

@[simp] theorem Memory.writeAll_nil (m : Memory) (k : Nat) : Memory.writeAll m k [] = m := rfl

theorem Memory.writeAll_append (m : Memory) (k : Nat) (xs ys : List Byte) :
    Memory.writeAll m k (xs ++ ys) = Memory.writeAll (Memory.writeAll m k xs) (k + xs.length) ys := by
  induction xs generalizing m k with
  | nil => rfl
  | cons x xs ih =>
    simp only [List.cons_append, Memory.writeAll, ih, List.length_cons]
    congr 1; omega

/-- The canonical form of a buffer said of its head and its tail. -/
theorem Memory.wf_cons (cap a : Nat) (b : Byte) (m : Memory) :
    Memory.wf cap ((a, b) :: m) = true ↔ a < cap ∧ Memory.wf cap m = true ∧ (∀ c ∈ m.head?, a < c.1) := by
  cases m with
  | nil => simp [Memory.wf]
  | cons c m =>
    obtain ⟨a', b'⟩ := c
    have below : Memory.wf cap ((a', b') :: m) = true → a' < cap := by
      cases m with
      | nil => simp [Memory.wf]
      | cons c m =>
        intro h
        induction m generalizing a' b' c with
        | nil => obtain ⟨a2, b2⟩ := c; simp [Memory.wf] at h; omega
        | cons c2 m ih =>
          obtain ⟨a2, b2⟩ := c
          simp only [Memory.wf, Bool.and_eq_true, decide_eq_true_eq] at h
          have := ih a2 b2 c2 (by simpa [Memory.wf] using h.2)
          omega
    simp only [Memory.wf, Bool.and_eq_true, decide_eq_true_eq, List.head?_cons, Option.mem_def, Option.some.injEq,
      forall_eq']
    constructor
    · rintro ⟨h1, h2⟩; exact ⟨by have := below h2; omega, h2, h1⟩
    · rintro ⟨_, h2, h1⟩; exact ⟨h1, h2⟩

theorem Memory.wf_write (cap : Nat) (m : Memory) (k : Nat) (v : Byte) (hk : k < cap) (h : Memory.wf cap m = true) :
    Memory.wf cap (Memory.write m k v) = true := by
  induction m with
  | nil => simp [Memory.write, Memory.wf, hk]
  | cons c m ih =>
    obtain ⟨a, b⟩ := c
    obtain ⟨ha, hm, hh⟩ := (Memory.wf_cons cap a b m).1 h
    by_cases h1 : k < a
    · simp only [Memory.write, h1, if_true]
      exact (Memory.wf_cons cap k v _).2 ⟨hk, h, by simp [h1]⟩
    · by_cases h2 : k = a
      · subst h2
        simp only [Memory.write, lt_irrefl, if_false, if_true]
        exact (Memory.wf_cons cap k v m).2 ⟨hk, hm, hh⟩
      · simp only [Memory.write, h1, h2, if_false]
        refine (Memory.wf_cons cap a b _).2 ⟨ha, ih hm, ?_⟩
        cases m with
        | nil => simp [Memory.write]; omega
        | cons c m =>
          obtain ⟨a', b'⟩ := c
          have : a < a' := hh (a', b') (by simp)
          simp only [Memory.write]
          split
          · simp; omega
          · split
            · simp; omega
            · simp; omega

theorem Memory.wf_writeAll (cap : Nat) (m : Memory) (k : Nat) (vs : List Byte) (hk : k + vs.length ≤ cap)
    (h : Memory.wf cap m = true) : Memory.wf cap (Memory.writeAll m k vs) = true := by
  induction vs generalizing m k with
  | nil => exact h
  | cons v vs ih =>
    simp only [List.length_cons] at hk
    exact ih _ _ (by omega) (Memory.wf_write cap m k v (by omega) h)

/-- The buffers of the reset state, with no byte written, are in canonical form, whatever the capacity. -/
theorem Memory.wf_reset (cap : Nat) : Memory.wf cap State.reset.src = true ∧ Memory.wf cap State.reset.dst = true := ⟨rfl, rfl⟩

@[simp] theorem length_srcSlice (s : State) (k n : Nat) : (srcSlice s k n).length = n := by simp [srcSlice]

@[simp] theorem length_dstSlice (s : State) (k n : Nat) : (dstSlice s k n).length = n := by simp [dstSlice]

@[simp] theorem length_input (s : State) : (input s).length = s.srcLen := by simp [input]

@[simp] theorem length_unread (s : State) : (unread s).length = s.srcLen - s.i := by simp [unread]

theorem srcSlice_succ (s : State) (k n : Nat) : srcSlice s k (n + 1) = srcByte s k :: srcSlice s (k + 1) n := by
  simp [srcSlice, List.range'_succ]

theorem getElem?_srcSlice (s : State) (k n j : Nat) (h : j < n) : (srcSlice s k n)[j]? = some (srcByte s (k + j)) := by
  simp [srcSlice, h]

theorem drop_srcSlice (s : State) (k n j : Nat) : (srcSlice s k n).drop j = srcSlice s (k + j) (n - j) := by
  apply List.ext_getElem?
  intro x
  by_cases hx : x < n - j
  · rw [List.getElem?_drop, getElem?_srcSlice _ _ _ _ (by omega), getElem?_srcSlice _ _ _ _ hx, Nat.add_assoc]
  · rw [List.getElem?_eq_none (by simp; omega), List.getElem?_eq_none (by simp; omega)]

/-- A slice depends on the bytes in it only. -/
theorem srcSlice_congr (s t : State) (k n : Nat) (h : ∀ j, k ≤ j → j < k + n → srcByte s j = srcByte t j) :
    srcSlice s k n = srcSlice t k n := by
  unfold srcSlice
  refine List.map_congr_left fun j hj => ?_
  rw [List.mem_range'_1] at hj
  exact h j hj.1 hj.2

/-- The unread input, one byte at a time. -/
theorem unread_eq_cons (s : State) (h : s.i < s.srcLen) :
    unread s = srcByte s s.i :: srcSlice s (s.i + 1) (s.srcLen - (s.i + 1)) := by
  unfold unread
  rw [show s.srcLen - s.i = s.srcLen - (s.i + 1) + 1 by omega, srcSlice_succ]

theorem unread_eq_nil (s : State) (h : s.srcLen ≤ s.i) : unread s = [] := by
  apply List.eq_nil_of_length_eq_zero; simp; omega

theorem unread_zero (s : State) (h : s.i = 0) : unread s = input s := by simp [unread, input, h]

/-- `SRC[k]` depends on the bytes of SRC only. -/
theorem srcByte_congr {s t : State} (h : s.src = t.src) (k : Nat) : srcByte s k = srcByte t k := by
  unfold srcByte; rw [h]

theorem dstByte_congr {s t : State} (h : s.dst = t.dst) (k : Nat) : dstByte s k = dstByte t k := by
  unfold dstByte; rw [h]

/-- What an emission does to a byte of SRC. -/
theorem srcByte_emitBytes (op : Instr) (bs : List Byte) (s : State) (k : Nat) :
    srcByte (emitBytes op bs s) k =
      if inPlace op = true ∧ s.o ≤ k ∧ k < s.o + bs.length then bs.getD (k - s.o) 0 else srcByte s k := by
  unfold srcByte emitBytes
  by_cases hp : inPlace op = true
  · rw [if_pos hp]
    simp only [hp, true_and, Memory.read_writeAll]
    split
    · next h =>
      have h' : k - s.o < bs.length := by omega
      simp [List.getElem?_eq_getElem h', List.getD]
    · rfl
  · rw [if_neg hp]; simp [hp]

/-- What an emission does to a byte of DST. -/
theorem dstByte_emitBytes (op : Instr) (bs : List Byte) (s : State) (k : Nat) :
    dstByte (emitBytes op bs s) k =
      if inPlace op = false ∧ s.o ≤ k ∧ k < s.o + bs.length then bs.getD (k - s.o) 0 else dstByte s k := by
  unfold dstByte emitBytes
  by_cases hp : inPlace op = true
  · rw [if_pos hp]; simp [hp]
  · rw [if_neg hp]
    simp only [Bool.not_eq_true] at hp
    simp only [hp, true_and, Memory.read_writeAll]
    split
    · next h =>
      have h' : k - s.o < bs.length := by omega
      simp [List.getElem?_eq_getElem h', List.getD]
    · rfl

end Sys2Proof.Machine
end

