-- ==== Sys2Proof/Laws/State.lean ====
section
/-! SUPPORT. One lemma per field per named update of State, so that no later proof unfolds a record update. -/

namespace Sys2Proof.Machine

/-! `issue` -/

@[simp] theorem issue_cfg (w : Byte) (s : State) : (issue w s).cfg = s.cfg := rfl
@[simp] theorem issue_src (w : Byte) (s : State) : (issue w s).src = s.src := rfl
@[simp] theorem issue_srcLen (w : Byte) (s : State) : (issue w s).srcLen = s.srcLen := rfl
@[simp] theorem issue_dst (w : Byte) (s : State) : (issue w s).dst = s.dst := rfl
@[simp] theorem issue_dstLen (w : Byte) (s : State) : (issue w s).dstLen = 0 := rfl
@[simp] theorem issue_cmd (w : Byte) (s : State) : (issue w s).cmd = w := rfl
@[simp] theorem issue_st (w : Byte) (s : State) : (issue w s).st = .busy := rfl
@[simp] theorem issue_err (w : Byte) (s : State) : (issue w s).err = none := rfl
@[simp] theorem issue_ph (w : Byte) (s : State) : (issue w s).ph = .check := rfl
@[simp] theorem issue_i (w : Byte) (s : State) : (issue w s).i = 0 := rfl
@[simp] theorem issue_o (w : Byte) (s : State) : (issue w s).o = 0 := rfl
@[simp] theorem issue_l (w : Byte) (s : State) : (issue w s).l = 0 := rfl
@[simp] theorem issue_cnt (w : Byte) (s : State) : (issue w s).cnt = 0 := rfl
@[simp] theorem issue_rv (w : Byte) (s : State) : (issue w s).rv = 0x00 := rfl
@[simp] theorem issue_fsm (w : Byte) (s : State) : (issue w s).fsm = .copy := rfl
@[simp] theorem issue_program (w : Byte) (s : State) : (issue w s).program = s.program := rfl
@[simp] theorem issue_turns (w : Byte) (s : State) : (issue w s).turns = s.turns := rfl
@[simp] theorem issue_readData (w : Byte) (s : State) : (issue w s).readData = s.readData := rfl
@[simp] theorem issue_freeReads (w : Byte) (s : State) : (issue w s).freeReads = s.freeReads := rfl

/-! `resetBlock` -/

@[simp] theorem resetBlock_cfg (s : State) : (resetBlock s).cfg = s.cfg := rfl
@[simp] theorem resetBlock_src (s : State) : (resetBlock s).src = s.src := rfl
@[simp] theorem resetBlock_srcLen (s : State) : (resetBlock s).srcLen = 0 := rfl
@[simp] theorem resetBlock_dst (s : State) : (resetBlock s).dst = s.dst := rfl
@[simp] theorem resetBlock_dstLen (s : State) : (resetBlock s).dstLen = 0 := rfl
@[simp] theorem resetBlock_cmd (s : State) : (resetBlock s).cmd = 0x00 := rfl
@[simp] theorem resetBlock_st (s : State) : (resetBlock s).st = .idle := rfl
@[simp] theorem resetBlock_err (s : State) : (resetBlock s).err = none := rfl
@[simp] theorem resetBlock_ph (s : State) : (resetBlock s).ph = .off := rfl
@[simp] theorem resetBlock_i (s : State) : (resetBlock s).i = 0 := rfl
@[simp] theorem resetBlock_o (s : State) : (resetBlock s).o = 0 := rfl
@[simp] theorem resetBlock_l (s : State) : (resetBlock s).l = 0 := rfl
@[simp] theorem resetBlock_cnt (s : State) : (resetBlock s).cnt = 0 := rfl
@[simp] theorem resetBlock_rv (s : State) : (resetBlock s).rv = 0x00 := rfl
@[simp] theorem resetBlock_fsm (s : State) : (resetBlock s).fsm = .copy := rfl
@[simp] theorem resetBlock_program (s : State) : (resetBlock s).program = s.program := rfl
@[simp] theorem resetBlock_turns (s : State) : (resetBlock s).turns = s.turns := rfl
@[simp] theorem resetBlock_readData (s : State) : (resetBlock s).readData = s.readData := rfl
@[simp] theorem resetBlock_freeReads (s : State) : (resetBlock s).freeReads = s.freeReads := rfl

/-! `raiseError` -/

@[simp] theorem raiseError_cfg (e : ErrKind) (s : State) : (raiseError e s).cfg = s.cfg := rfl
@[simp] theorem raiseError_src (e : ErrKind) (s : State) : (raiseError e s).src = s.src := rfl
@[simp] theorem raiseError_srcLen (e : ErrKind) (s : State) : (raiseError e s).srcLen = s.srcLen := rfl
@[simp] theorem raiseError_dst (e : ErrKind) (s : State) : (raiseError e s).dst = s.dst := rfl
@[simp] theorem raiseError_dstLen (e : ErrKind) (s : State) : (raiseError e s).dstLen = s.dstLen := rfl
@[simp] theorem raiseError_cmd (e : ErrKind) (s : State) : (raiseError e s).cmd = s.cmd := rfl
@[simp] theorem raiseError_st (e : ErrKind) (s : State) : (raiseError e s).st = .done := rfl
@[simp] theorem raiseError_err (e : ErrKind) (s : State) : (raiseError e s).err = some e := rfl
@[simp] theorem raiseError_ph (e : ErrKind) (s : State) : (raiseError e s).ph = .off := rfl
@[simp] theorem raiseError_i (e : ErrKind) (s : State) : (raiseError e s).i = s.i := rfl
@[simp] theorem raiseError_o (e : ErrKind) (s : State) : (raiseError e s).o = s.o := rfl
@[simp] theorem raiseError_l (e : ErrKind) (s : State) : (raiseError e s).l = s.l := rfl
@[simp] theorem raiseError_cnt (e : ErrKind) (s : State) : (raiseError e s).cnt = s.cnt := rfl
@[simp] theorem raiseError_rv (e : ErrKind) (s : State) : (raiseError e s).rv = s.rv := rfl
@[simp] theorem raiseError_fsm (e : ErrKind) (s : State) : (raiseError e s).fsm = s.fsm := rfl
@[simp] theorem raiseError_program (e : ErrKind) (s : State) : (raiseError e s).program = s.program := rfl
@[simp] theorem raiseError_turns (e : ErrKind) (s : State) : (raiseError e s).turns = s.turns := rfl
@[simp] theorem raiseError_readData (e : ErrKind) (s : State) : (raiseError e s).readData = s.readData := rfl
@[simp] theorem raiseError_freeReads (e : ErrKind) (s : State) : (raiseError e s).freeReads = s.freeReads := rfl

/-! `finish` -/

@[simp] theorem finish_cfg (op : Instr) (s : State) : (finish op s).cfg = s.cfg := by
  unfold finish; split <;> rfl
@[simp] theorem finish_src (op : Instr) (s : State) : (finish op s).src = s.src := by
  unfold finish; split <;> rfl
@[simp] theorem finish_srcLen (op : Instr) (s : State) : (finish op s).srcLen = if inPlace op then s.o else s.srcLen := by
  unfold finish; split <;> rfl
@[simp] theorem finish_dst (op : Instr) (s : State) : (finish op s).dst = s.dst := by
  unfold finish; split <;> rfl
@[simp] theorem finish_dstLen (op : Instr) (s : State) : (finish op s).dstLen = if inPlace op then s.dstLen else s.o := by
  unfold finish; split <;> rfl
@[simp] theorem finish_cmd (op : Instr) (s : State) : (finish op s).cmd = s.cmd := by
  unfold finish; split <;> rfl
@[simp] theorem finish_st (op : Instr) (s : State) : (finish op s).st = .done := by
  unfold finish; split <;> rfl
@[simp] theorem finish_err (op : Instr) (s : State) : (finish op s).err = s.err := by
  unfold finish; split <;> rfl
@[simp] theorem finish_ph (op : Instr) (s : State) : (finish op s).ph = .off := by
  unfold finish; split <;> rfl
@[simp] theorem finish_i (op : Instr) (s : State) : (finish op s).i = s.i := by
  unfold finish; split <;> rfl
@[simp] theorem finish_o (op : Instr) (s : State) : (finish op s).o = s.o := by
  unfold finish; split <;> rfl
@[simp] theorem finish_l (op : Instr) (s : State) : (finish op s).l = s.l := by
  unfold finish; split <;> rfl
@[simp] theorem finish_cnt (op : Instr) (s : State) : (finish op s).cnt = s.cnt := by
  unfold finish; split <;> rfl
@[simp] theorem finish_rv (op : Instr) (s : State) : (finish op s).rv = s.rv := by
  unfold finish; split <;> rfl
@[simp] theorem finish_fsm (op : Instr) (s : State) : (finish op s).fsm = s.fsm := by
  unfold finish; split <;> rfl
@[simp] theorem finish_program (op : Instr) (s : State) : (finish op s).program = s.program := by
  unfold finish; split <;> rfl
@[simp] theorem finish_turns (op : Instr) (s : State) : (finish op s).turns = s.turns := by
  unfold finish; split <;> rfl
@[simp] theorem finish_readData (op : Instr) (s : State) : (finish op s).readData = s.readData := by
  unfold finish; split <;> rfl
@[simp] theorem finish_freeReads (op : Instr) (s : State) : (finish op s).freeReads = s.freeReads := by
  unfold finish; split <;> rfl

/-! `emitBytes` -/

@[simp] theorem emitBytes_cfg (op : Instr) (bs : List Byte) (s : State) : (emitBytes op bs s).cfg = s.cfg := by
  unfold emitBytes; split <;> rfl
@[simp] theorem emitBytes_src (op : Instr) (bs : List Byte) (s : State) : (emitBytes op bs s).src = if inPlace op then Memory.writeAll s.src s.o bs else s.src := by
  unfold emitBytes; split <;> rfl
@[simp] theorem emitBytes_srcLen (op : Instr) (bs : List Byte) (s : State) : (emitBytes op bs s).srcLen = s.srcLen := by
  unfold emitBytes; split <;> rfl
@[simp] theorem emitBytes_dst (op : Instr) (bs : List Byte) (s : State) : (emitBytes op bs s).dst = if inPlace op then s.dst else Memory.writeAll s.dst s.o bs := by
  unfold emitBytes; split <;> rfl
@[simp] theorem emitBytes_dstLen (op : Instr) (bs : List Byte) (s : State) : (emitBytes op bs s).dstLen = s.dstLen := by
  unfold emitBytes; split <;> rfl
@[simp] theorem emitBytes_cmd (op : Instr) (bs : List Byte) (s : State) : (emitBytes op bs s).cmd = s.cmd := by
  unfold emitBytes; split <;> rfl
@[simp] theorem emitBytes_st (op : Instr) (bs : List Byte) (s : State) : (emitBytes op bs s).st = s.st := by
  unfold emitBytes; split <;> rfl
@[simp] theorem emitBytes_err (op : Instr) (bs : List Byte) (s : State) : (emitBytes op bs s).err = s.err := by
  unfold emitBytes; split <;> rfl
@[simp] theorem emitBytes_ph (op : Instr) (bs : List Byte) (s : State) : (emitBytes op bs s).ph = s.ph := by
  unfold emitBytes; split <;> rfl
@[simp] theorem emitBytes_i (op : Instr) (bs : List Byte) (s : State) : (emitBytes op bs s).i = s.i := by
  unfold emitBytes; split <;> rfl
@[simp] theorem emitBytes_o (op : Instr) (bs : List Byte) (s : State) : (emitBytes op bs s).o = s.o + bs.length := by
  unfold emitBytes; split <;> rfl
@[simp] theorem emitBytes_l (op : Instr) (bs : List Byte) (s : State) : (emitBytes op bs s).l = s.l := by
  unfold emitBytes; split <;> rfl
@[simp] theorem emitBytes_cnt (op : Instr) (bs : List Byte) (s : State) : (emitBytes op bs s).cnt = s.cnt := by
  unfold emitBytes; split <;> rfl
@[simp] theorem emitBytes_rv (op : Instr) (bs : List Byte) (s : State) : (emitBytes op bs s).rv = s.rv := by
  unfold emitBytes; split <;> rfl
@[simp] theorem emitBytes_fsm (op : Instr) (bs : List Byte) (s : State) : (emitBytes op bs s).fsm = s.fsm := by
  unfold emitBytes; split <;> rfl
@[simp] theorem emitBytes_program (op : Instr) (bs : List Byte) (s : State) : (emitBytes op bs s).program = s.program := by
  unfold emitBytes; split <;> rfl
@[simp] theorem emitBytes_turns (op : Instr) (bs : List Byte) (s : State) : (emitBytes op bs s).turns = s.turns := by
  unfold emitBytes; split <;> rfl
@[simp] theorem emitBytes_readData (op : Instr) (bs : List Byte) (s : State) : (emitBytes op bs s).readData = s.readData := by
  unfold emitBytes; split <;> rfl
@[simp] theorem emitBytes_freeReads (op : Instr) (bs : List Byte) (s : State) : (emitBytes op bs s).freeReads = s.freeReads := by
  unfold emitBytes; split <;> rfl

/-! `deliver` -/

@[simp] theorem deliver_cfg (v : ReadValue) (s : State) : (deliver v s).cfg = s.cfg := by
  unfold deliver; split <;> rfl
@[simp] theorem deliver_src (v : ReadValue) (s : State) : (deliver v s).src = s.src := by
  unfold deliver; split <;> rfl
@[simp] theorem deliver_srcLen (v : ReadValue) (s : State) : (deliver v s).srcLen = s.srcLen := by
  unfold deliver; split <;> rfl
@[simp] theorem deliver_dst (v : ReadValue) (s : State) : (deliver v s).dst = s.dst := by
  unfold deliver; split <;> rfl
@[simp] theorem deliver_dstLen (v : ReadValue) (s : State) : (deliver v s).dstLen = s.dstLen := by
  unfold deliver; split <;> rfl
@[simp] theorem deliver_cmd (v : ReadValue) (s : State) : (deliver v s).cmd = s.cmd := by
  unfold deliver; split <;> rfl
@[simp] theorem deliver_st (v : ReadValue) (s : State) : (deliver v s).st = s.st := by
  unfold deliver; split <;> rfl
@[simp] theorem deliver_err (v : ReadValue) (s : State) : (deliver v s).err = s.err := by
  unfold deliver; split <;> rfl
@[simp] theorem deliver_ph (v : ReadValue) (s : State) : (deliver v s).ph = s.ph := by
  unfold deliver; split <;> rfl
@[simp] theorem deliver_i (v : ReadValue) (s : State) : (deliver v s).i = s.i := by
  unfold deliver; split <;> rfl
@[simp] theorem deliver_o (v : ReadValue) (s : State) : (deliver v s).o = s.o := by
  unfold deliver; split <;> rfl
@[simp] theorem deliver_l (v : ReadValue) (s : State) : (deliver v s).l = s.l := by
  unfold deliver; split <;> rfl
@[simp] theorem deliver_cnt (v : ReadValue) (s : State) : (deliver v s).cnt = s.cnt := by
  unfold deliver; split <;> rfl
@[simp] theorem deliver_rv (v : ReadValue) (s : State) : (deliver v s).rv = s.rv := by
  unfold deliver; split <;> rfl
@[simp] theorem deliver_fsm (v : ReadValue) (s : State) : (deliver v s).fsm = s.fsm := by
  unfold deliver; split <;> rfl
@[simp] theorem deliver_program (v : ReadValue) (s : State) : (deliver v s).program = s.program := by
  unfold deliver; split <;> rfl
@[simp] theorem deliver_turns (v : ReadValue) (s : State) : (deliver v s).turns = s.turns := by
  unfold deliver; split <;> rfl
@[simp] theorem deliver_readData (v : ReadValue) (s : State) : (deliver v s).readData = s.readData ++ [freeRead s v] := by
  unfold deliver; split <;> rfl

/-! `takeTurn` -/

@[simp] theorem takeTurn_cfg (s : State) : (takeTurn s).cfg = s.cfg := by
  unfold takeTurn; split <;> rfl
@[simp] theorem takeTurn_src (s : State) : (takeTurn s).src = s.src := by
  unfold takeTurn; split <;> rfl
@[simp] theorem takeTurn_srcLen (s : State) : (takeTurn s).srcLen = s.srcLen := by
  unfold takeTurn; split <;> rfl
@[simp] theorem takeTurn_dst (s : State) : (takeTurn s).dst = s.dst := by
  unfold takeTurn; split <;> rfl
@[simp] theorem takeTurn_dstLen (s : State) : (takeTurn s).dstLen = s.dstLen := by
  unfold takeTurn; split <;> rfl
@[simp] theorem takeTurn_cmd (s : State) : (takeTurn s).cmd = s.cmd := by
  unfold takeTurn; split <;> rfl
@[simp] theorem takeTurn_st (s : State) : (takeTurn s).st = s.st := by
  unfold takeTurn; split <;> rfl
@[simp] theorem takeTurn_err (s : State) : (takeTurn s).err = s.err := by
  unfold takeTurn; split <;> rfl
@[simp] theorem takeTurn_ph (s : State) : (takeTurn s).ph = s.ph := by
  unfold takeTurn; split <;> rfl
@[simp] theorem takeTurn_i (s : State) : (takeTurn s).i = s.i := by
  unfold takeTurn; split <;> rfl
@[simp] theorem takeTurn_o (s : State) : (takeTurn s).o = s.o := by
  unfold takeTurn; split <;> rfl
@[simp] theorem takeTurn_l (s : State) : (takeTurn s).l = s.l := by
  unfold takeTurn; split <;> rfl
@[simp] theorem takeTurn_cnt (s : State) : (takeTurn s).cnt = s.cnt := by
  unfold takeTurn; split <;> rfl
@[simp] theorem takeTurn_rv (s : State) : (takeTurn s).rv = s.rv := by
  unfold takeTurn; split <;> rfl
@[simp] theorem takeTurn_fsm (s : State) : (takeTurn s).fsm = s.fsm := by
  unfold takeTurn; split <;> rfl
@[simp] theorem takeTurn_program (s : State) : (takeTurn s).program = s.program := by
  unfold takeTurn; split <;> rfl
@[simp] theorem takeTurn_turns (s : State) : (takeTurn s).turns = if contested s then s.turns.tail else s.turns := by
  unfold takeTurn; split <;> rfl
@[simp] theorem takeTurn_readData (s : State) : (takeTurn s).readData = s.readData := by
  unfold takeTurn; split <;> rfl
@[simp] theorem takeTurn_freeReads (s : State) : (takeTurn s).freeReads = s.freeReads := by
  unfold takeTurn; split <;> rfl

/-! `placeCommand` -/

@[simp] theorem placeCommand_cfg (w : Byte) (s : State) : (placeCommand w s).cfg = s.cfg := rfl
@[simp] theorem placeCommand_src (w : Byte) (s : State) : (placeCommand w s).src = s.src := rfl
@[simp] theorem placeCommand_srcLen (w : Byte) (s : State) : (placeCommand w s).srcLen = s.srcLen := rfl
@[simp] theorem placeCommand_dst (w : Byte) (s : State) : (placeCommand w s).dst = s.dst := rfl
@[simp] theorem placeCommand_dstLen (w : Byte) (s : State) : (placeCommand w s).dstLen = 0 := rfl
@[simp] theorem placeCommand_cmd (w : Byte) (s : State) : (placeCommand w s).cmd = w := rfl
@[simp] theorem placeCommand_st (w : Byte) (s : State) : (placeCommand w s).st = .busy := rfl
@[simp] theorem placeCommand_err (w : Byte) (s : State) : (placeCommand w s).err = none := rfl
@[simp] theorem placeCommand_ph (w : Byte) (s : State) : (placeCommand w s).ph = .check := rfl
@[simp] theorem placeCommand_i (w : Byte) (s : State) : (placeCommand w s).i = 0 := rfl
@[simp] theorem placeCommand_o (w : Byte) (s : State) : (placeCommand w s).o = 0 := rfl
@[simp] theorem placeCommand_l (w : Byte) (s : State) : (placeCommand w s).l = 0 := rfl
@[simp] theorem placeCommand_cnt (w : Byte) (s : State) : (placeCommand w s).cnt = 0 := rfl
@[simp] theorem placeCommand_rv (w : Byte) (s : State) : (placeCommand w s).rv = 0x00 := rfl
@[simp] theorem placeCommand_fsm (w : Byte) (s : State) : (placeCommand w s).fsm = .copy := rfl
@[simp] theorem placeCommand_program (w : Byte) (s : State) : (placeCommand w s).program = s.program := rfl
@[simp] theorem placeCommand_turns (w : Byte) (s : State) : (placeCommand w s).turns = if s.program.isEmpty then s.turns else .engine :: s.turns := rfl
@[simp] theorem placeCommand_readData (w : Byte) (s : State) : (placeCommand w s).readData = s.readData := rfl
@[simp] theorem placeCommand_freeReads (w : Byte) (s : State) : (placeCommand w s).freeReads = s.freeReads := rfl

end Sys2Proof.Machine
end

