-- ==== Sys2Proof/Laws/Ops.lean ====
section
/-! SUPPORT. For each shared operation, once, everything it can do: "if it answers `next t`, then …". Later proofs cite these and do not
unfold the operations. -/

namespace Sys2Proof.Machine

theorem next_inj {σ φ ρ : Type} {a b : σ} : (Host.Outcome.next a : Host.Outcome σ φ ρ) = .next b ↔ a = b := by
  constructor
  · intro h; injection h
  · rintro rfl; rfl

/-- Everything an emission can do. -/
theorem emitOut_next {op : Instr} {bs : List Byte} {s t : State} :
    emitOut op bs s = .next t ↔ s.o + bs.length ≤ outCap op s.cfg ∧ t = emitBytes op bs s := by
  unfold emitOut
  split
  · next h => rw [next_inj]; exact ⟨fun e => ⟨h, e.symm⟩, fun e => e.2.symm⟩
  · next h =>
    refine ⟨fun e => ?_, fun e => absurd e.1 h⟩
    cases e

/-- Everything a CHECK step can do (R112). -/
theorem checkStep_next {op : Instr} {f : List Byte → CodecResult} {s t : State} (h : checkStep op f s = .next t) :
    s.srcLen ≤ s.cfg.srcCap ∧
    ((∃ e, f (input s) = .err e ∧ t = raiseError e s) ∨
     (∃ out, f (input s) = .ok out ∧ fits op s.cfg s.srcLen out.length = true ∧
        t = { s with l := out.length, ph := .scan }) ∨
     (∃ out, f (input s) = .ok out ∧ fits op s.cfg s.srcLen out.length = false ∧
        t = raiseError .overflow { s with l := out.length })) := by
  unfold checkStep at h
  split at h
  · cases h
  · next hc =>
    refine ⟨by omega, ?_⟩
    split at h
    · next e he => exact .inl ⟨e, he, (next_inj.1 h).symm⟩
    · next out ho =>
      split at h
      · next hf => exact .inr (.inl ⟨out, ho, hf, (next_inj.1 h).symm⟩)
      · next hf => exact .inr (.inr ⟨out, ho, by simpa using hf, (next_inj.1 h).symm⟩)

/-- Everything a SCAN step can do (R114, R115). -/
theorem scanStep_next {op : Instr} {body : State → Result State} {s t : State} (h : scanStep op body s = .next t) :
    (s.srcLen ≤ s.i ∧ t = finish op s) ∨ (s.i < s.srcLen ∧ s.srcLen ≤ s.cfg.srcCap ∧ body s = .next t) := by
  unfold scanStep at h
  split at h
  · next hi => exact .inl ⟨hi, (next_inj.1 h).symm⟩
  · next hi =>
    split at h
    · cases h
    · exact .inr ⟨by omega, by omega, h⟩

theorem engineStep_off {op : Instr} {f : List Byte → CodecResult} {body : State → Result State} {s : State}
    (h : s.ph = .off) : engineStep op f body s = .next s := by
  unfold engineStep; rw [h]

theorem engineStep_check {op : Instr} {f : List Byte → CodecResult} {body : State → Result State} {s : State}
    (h : s.ph = .check) : engineStep op f body s = checkStep op f s := by
  unfold engineStep; rw [h]

theorem engineStep_scan {op : Instr} {f : List Byte → CodecResult} {body : State → Result State} {s : State}
    (h : s.ph = .scan) : engineStep op f body s = scanStep op body s := by
  unfold engineStep; rw [h]

/-- The SCAN body of a command, by name. -/
def scanBody : Instr → State → Result State
  | .hexenc => hexencBody
  | .hexencSw => hexencSwBody
  | .hexdec => hexdecBody
  | .pctenc => pctencBody
  | .pctdec => pctdecBody .pctdec false
  | .pctdecP => pctdecBody .pctdecP true
  | .pctdecIp => pctdecBody .pctdecIp false
  | .pctdecIpP => pctdecBody .pctdecIpP true
  | .rlencZ => rlencBody .rlencZ inZ
  | .rlencZf => rlencBody .rlencZf inZF
  | .rldecZ => rldecBody .rldecZ inZ
  | .rldecZf => rldecBody .rldecZf inZF

/-- Every command is an engine step of its function and its SCAN body (R110). -/
theorem exec_eq (i : Instr) (s : State) : exec i s = engineStep i (commandFunction i) (scanBody i) s := by
  cases i <;> rfl

/-- Everything a HEXDEC body can do. -/
theorem hexdecBody_next {s t : State} (h : hexdecBody s = .next t) :
    ∃ b, s.i + 1 < s.srcLen ∧ hexPair (srcByte s s.i) (srcByte s (s.i + 1)) = some b ∧
      emitOut .hexdec [b] { s with i := s.i + 2 } = .next t := by
  unfold hexdecBody at h
  split at h
  · next hi =>
    split at h
    · next b hb => exact ⟨b, hi, hb, h⟩
    · cases h
  · cases h

/-- Everything an RLENC body can do (R176). -/
theorem rlencBody_next {op : Instr} {p : Byte → Bool} {s t : State} (h : rlencBody op p s = .next t) :
    (s.fsm = .copy ∧ p (srcByte s s.i) = true ∧
      emitOut op [srcByte s s.i] { s with rv := srcByte s s.i, fsm := .run } = .next t) ∨
    (s.fsm = .copy ∧ p (srcByte s s.i) = false ∧ emitOut op [srcByte s s.i] { s with i := s.i + 1 } = .next t) ∨
    (s.fsm = .run ∧ runLength s.rv (unread s) ≠ 0 ∧
      emitOut op [BitVec.ofNat 8 (runLength s.rv (unread s))]
        { s with cnt := runLength s.rv (unread s), i := s.i + runLength s.rv (unread s), fsm := .copy } = .next t) := by
  unfold rlencBody at h
  split at h
  · next hf =>
    split at h
    · next hp => exact .inl ⟨hf, hp, h⟩
    · next hp => exact .inr (.inl ⟨hf, by simpa using hp, h⟩)
  · next hf =>
    split at h
    · cases h
    · next hr => exact .inr (.inr ⟨hf, hr, h⟩)

/-- Everything an RLDEC body can do (R177). -/
theorem rldecBody_next {op : Instr} {p : Byte → Bool} {s t : State} (h : rldecBody op p s = .next t) :
    (s.fsm = .copy ∧ (p (srcByte s s.i) = true ∧ s.i + 1 < s.srcLen) ∧
      t = { s with rv := srcByte s s.i, cnt := (srcByte s (s.i + 1)).toNat, fsm := .run }) ∨
    (s.fsm = .copy ∧ ¬ (p (srcByte s s.i) = true ∧ s.i + 1 < s.srcLen) ∧
      emitOut op [srcByte s s.i] { s with i := s.i + 1 } = .next t) ∨
    (s.fsm = .run ∧ emitOut op (List.replicate s.cnt s.rv) { s with i := s.i + 2, fsm := .copy } = .next t) := by
  unfold rldecBody at h
  split at h
  · next hf =>
    split at h
    · next hp => exact .inl ⟨hf, hp, (next_inj.1 h).symm⟩
    · next hp => exact .inr (.inl ⟨hf, hp, h⟩)
  · next hf => exact .inr (.inr ⟨hf, h⟩)

/-- What a SCAN body makes of a state: new working registers, then an emission (R114, R125). -/
def ScanBodyEffect (op : Instr) (s t : State) : Prop :=
  ∃ bs i' cnt' rv' fsm', (bs = [] ∨ s.o + bs.length ≤ outCap op s.cfg) ∧
    t = emitBytes op bs { s with i := i', cnt := cnt', rv := rv', fsm := fsm' }

theorem emitOut_effect {op : Instr} {s t : State} {bs : List Byte} {i' cnt' : Nat} {rv' : Byte} {fsm' : RunState}
    (h : emitOut op bs { s with i := i', cnt := cnt', rv := rv', fsm := fsm' } = .next t) : ScanBodyEffect op s t :=
  ⟨bs, i', cnt', rv', fsm', .inr (emitOut_next.1 h).1, (emitOut_next.1 h).2⟩

/-- Everything a SCAN body can do: it changes working registers only, and emits. -/
theorem scanBody_next {op : Instr} {s t : State} (h : scanBody op s = .next t) : ScanBodyEffect op s t := by
  cases op
  case hexdec =>
    obtain ⟨b, -, -, he⟩ := hexdecBody_next h
    exact emitOut_effect he
  case pctdec | pctdecP | pctdecIp | pctdecIpP =>
    simp only [scanBody, pctdecBody] at h
    split at h <;> exact emitOut_effect h
  case rlencZ | rlencZf =>
    obtain ⟨-, -, he⟩ | ⟨-, -, he⟩ | ⟨-, -, he⟩ := rlencBody_next h <;> exact emitOut_effect he
  case rldecZ | rldecZf =>
    obtain ⟨-, -, rfl⟩ | ⟨-, -, he⟩ | ⟨-, he⟩ := rldecBody_next h
    · exact ⟨[], s.i, (srcByte s (s.i + 1)).toNat, srcByte s s.i, .run, .inl rfl, rfl⟩
    · exact emitOut_effect he
    · exact emitOut_effect he
  all_goals exact emitOut_effect h

/-- Everything one engine step of a command can do. -/
theorem exec_next {i : Instr} {s t : State} (h : exec i s = .next t) :
    (s.ph = .off ∧ t = s) ∨
    (s.ph = .check ∧ checkStep i (commandFunction i) s = .next t) ∨
    (s.ph = .scan ∧ s.srcLen ≤ s.i ∧ t = finish i s) ∨
    (s.ph = .scan ∧ s.i < s.srcLen ∧ s.srcLen ≤ s.cfg.srcCap ∧ scanBody i s = .next t) := by
  rw [exec_eq] at h
  cases hp : s.ph
  · rw [engineStep_off hp] at h
    exact .inl ⟨rfl, (next_inj.1 h).symm⟩
  · rw [engineStep_check hp] at h
    exact .inr (.inl ⟨rfl, h⟩)
  · rw [engineStep_scan hp] at h
    obtain ⟨hi, ht⟩ | ⟨hi, hc, hb⟩ := scanStep_next h
    · exact .inr (.inr (.inl ⟨rfl, hi, ht⟩))
    · exact .inr (.inr (.inr ⟨rfl, hi, hc, hb⟩))

/-- Everything the engine's move can do. -/
theorem engineTurn_next {s t : State} (h : engineTurn s = .next t) :
    (∃ i, decode s.cmd = some i ∧ exec i s = .next t) ∨
    (decode s.cmd = none ∧ s.ph = .off ∧ t = s) ∨
    (decode s.cmd = none ∧ s.ph = .check ∧ t = raiseError .illegalCommand s) := by
  unfold engineTurn at h
  split at h
  · next i hd => exact .inl ⟨i, hd, h⟩
  · next hd =>
    split at h
    · next hp => exact .inr (.inl ⟨hd, hp, (next_inj.1 h).symm⟩)
    · next hp => exact .inr (.inr ⟨hd, hp, (next_inj.1 h).symm⟩)
    · cases h

/-- Everything `RegWrite` can do (R61). -/
theorem regWrite_cases (r v : Nat) (s : State) :
    regWrite r v s = s ∨
    (s.st ≠ .busy ∧ r = 0 ∧ regWrite r v s = issue (BitVec.ofNat 8 v) s) ∨
    (s.st ≠ .busy ∧ r = 2 ∧ v ≤ s.cfg.srcCap ∧ regWrite r v s = { s with srcLen := v }) := by
  unfold regWrite
  by_cases h : s.st = .busy
  · rw [if_pos h]; exact .inl rfl
  · rw [if_neg h]
    by_cases h0 : r = 0
    · rw [if_pos h0]; exact .inr (.inl ⟨h, h0, rfl⟩)
    · rw [if_neg h0]
      by_cases h2 : r = 2 ∧ v ≤ s.cfg.srcCap
      · rw [if_pos h2]; exact .inr (.inr ⟨h, h2.1, h2.2, rfl⟩)
      · rw [if_neg h2]; exact .inl rfl

/-- Everything `SrcWrite` can do (R62). -/
theorem srcWrite_cases (k : Nat) (b : Byte) (s : State) :
    srcWrite k b s = s ∨
    (s.st ≠ .busy ∧ k < s.cfg.srcCap ∧ srcWrite k b s = { s with src := Memory.write s.src k b }) := by
  unfold srcWrite
  by_cases h : s.st = .busy ∨ s.cfg.srcCap ≤ k
  · rw [if_pos h]; exact .inl rfl
  · rw [if_neg h]
    rw [not_or] at h
    exact .inr ⟨h.1, by omega, rfl⟩

/-- A read hands one value to the host and changes nothing of the block (R68). -/
theorem deliver_eq (v : ReadValue) (s : State) :
    deliver v s = { s with readData := (deliver v s).readData, freeReads := (deliver v s).freeReads } := by
  unfold deliver; split <;> rfl

/-- Everything a host transaction can do (R98). -/
theorem transact_cases (t : Transaction) (s : State) :
    (∃ d n, transact t s = { s with readData := d, freeReads := n }) ∨
    (t = .reset ∧ transact t s = resetBlock s) ∨
    (∃ v, t = .regWrite 0 v ∧ s.st ≠ .busy ∧ transact t s = issue (BitVec.ofNat 8 v) s) ∨
    (∃ v, t = .regWrite 2 v ∧ s.st ≠ .busy ∧ v ≤ s.cfg.srcCap ∧ transact t s = { s with srcLen := v }) ∨
    (∃ k b, t = .srcWrite k b ∧ s.st ≠ .busy ∧ k < s.cfg.srcCap ∧
      transact t s = { s with src := Memory.write s.src k b }) := by
  cases t with
  | regWrite r v =>
    obtain h | ⟨hb, rfl, h⟩ | ⟨hb, rfl, hv, h⟩ := regWrite_cases r v s
    · exact .inl ⟨s.readData, s.freeReads, h⟩
    · exact .inr (.inr (.inl ⟨v, rfl, hb, h⟩))
    · exact .inr (.inr (.inr (.inl ⟨v, rfl, hb, hv, h⟩)))
  | srcWrite k b =>
    obtain h | ⟨hb, hk, h⟩ := srcWrite_cases k b s
    · exact .inl ⟨s.readData, s.freeReads, h⟩
    · exact .inr (.inr (.inr (.inr ⟨k, b, rfl, hb, hk, h⟩)))
  | regRead r => exact .inl ⟨_, _, deliver_eq _ s⟩
  | srcRead k => exact .inl ⟨_, _, deliver_eq _ s⟩
  | dstRead k => exact .inl ⟨_, _, deliver_eq _ s⟩
  | dstWrite k b => exact .inl ⟨s.readData, s.freeReads, rfl⟩
  | reset => exact .inr (.inl ⟨rfl, rfl⟩)

/-- Who moves, case by case (R72). -/
theorem nextAgent_cases (s : State) :
    (nextAgent s = none ∧ s.ph = .off ∧ s.program = []) ∨
    (nextAgent s = some .host ∧ s.program ≠ []) ∨
    (nextAgent s = some .engine ∧ s.ph ≠ .off) := by
  unfold nextAgent
  split
  · next hp hl => exact .inl ⟨rfl, hp, hl⟩
  · next hp hl => exact .inr (.inl ⟨rfl, by simp [hl]⟩)
  · next hl hp => exact .inr (.inr ⟨rfl, hp⟩)
  · next hl hp =>
    cases hd : s.turns.headD .engine
    · exact .inr (.inl ⟨rfl, by simp [hl]⟩)
    · exact .inr (.inr ⟨rfl, hp⟩)

/-- Everything a step can do: rest, a host transaction, or an engine step (R71, R72). -/
theorem step_next {s t : State} (h : step s = .next t) :
    (nextAgent s = none ∧ t = s) ∨
    (nextAgent s = some .host ∧ ∃ x xs, s.program = x :: xs ∧ t = transact x { takeTurn s with program := xs }) ∨
    (nextAgent s = some .engine ∧ s.ph ≠ .off ∧ engineTurn (takeTurn s) = .next t) := by
  unfold step at h
  obtain ⟨ha, -, -⟩ | ⟨ha, hp⟩ | ⟨ha, hp⟩ := nextAgent_cases s <;> rw [ha] at h
  · exact .inl ⟨ha, (next_inj.1 h).symm⟩
  · refine .inr (.inl ⟨ha, ?_⟩)
    obtain ⟨x, xs, hx⟩ := List.exists_cons_of_ne_nil hp
    refine ⟨x, xs, hx, ?_⟩
    have := (next_inj.1 h).symm
    rw [this, hostTurn, takeTurn_program, hx]
  · exact .inr (.inr ⟨ha, hp, h⟩)

end Sys2Proof.Machine
end

