-- ==== Sys2Proof/Laws/PerInstr.lean ====
section
/-! SUPPORT. Facts about every command as syntax, one lemma per constructor: its word is a row of the opcode table, the fields of that word are
the columns of R95, and they are legal. -/

namespace Sys2Proof.Laws.TableRow

/-- The command's word stands in the opcode table with this command, has the fields that R95 gives it, and they are legal by R96. -/
def Statement (i : Instr) : Prop :=
  (encode i, i) ∈ opcodeTable ∧ fieldsOf (encode i) = fieldsFor i ∧ (fieldsFor i).wellFormed = true ∧ i.wellFormed = true

theorem hexenc : Statement .hexenc := by unfold Statement; decide

theorem hexencSw : Statement .hexencSw := by unfold Statement; decide

theorem hexdec : Statement .hexdec := by unfold Statement; decide

theorem pctenc : Statement .pctenc := by unfold Statement; decide

theorem pctdec : Statement .pctdec := by unfold Statement; decide

theorem pctdecP : Statement .pctdecP := by unfold Statement; decide

theorem pctdecIp : Statement .pctdecIp := by unfold Statement; decide

theorem pctdecIpP : Statement .pctdecIpP := by unfold Statement; decide

theorem rlencZ : Statement .rlencZ := by unfold Statement; decide

theorem rlencZf : Statement .rlencZf := by unfold Statement; decide

theorem rldecZ : Statement .rldecZ := by unfold Statement; decide

theorem rldecZf : Statement .rldecZf := by unfold Statement; decide

end Sys2Proof.Laws.TableRow
end

