-- ==== Sys2Proof/Laws/Run.lean ====
section
/-! SUPPORT. Runs of several steps: `runSteps` is the host's `run` of this machine; runs compose; a step where no transaction is left. -/

namespace Sys2Proof.Machine

theorem runSteps_succ {s t : State} (k : Nat) (h : step s = .next t) : runSteps (k + 1) s = runSteps k t := by
  rw [runSteps, h]

theorem runSteps_one {s t : State} (h : step s = .next t) : runSteps 1 s = .next t := runSteps_succ 0 h

/-- A run of `a + 1` steps that goes on is one step and a run of `a`. -/
theorem runSteps_succ_next {s t : State} {a : Nat} (h : runSteps (a + 1) s = .next t) :
    ∃ u, step s = .next u ∧ runSteps a u = .next t := by
  rw [runSteps] at h
  split at h
  · next u hu => exact ⟨u, hu, h⟩
  · cases h
  · cases h

theorem runSteps_add {s t : State} (a b : Nat) (h : runSteps a s = .next t) : runSteps (a + b) s = runSteps b t := by
  induction a generalizing s with
  | zero => rw [Nat.zero_add, next_inj.1 h]
  | succ a ih =>
    obtain ⟨u, hu, hr⟩ := runSteps_succ_next h
    rw [Nat.add_right_comm, runSteps_succ _ hu, ih hr]

theorem run_succ_next (M : Host.Core) (k : Nat) (s t : M.State) (h : M.step s = .next t) : M.run (k + 1) s = M.run k t := by
  rw [Host.Core.run, h]

theorem run_succ_fault (M : Host.Core) (k : Nat) (s : M.State) (f : M.Fault) (h : M.step s = .fault f) :
    M.run (k + 1) s = .fault f := by
  rw [Host.Core.run, h]

theorem run_succ_refused (M : Host.Core) (k : Nat) (s : M.State) (r : M.Refusal) (h : M.step s = .refused r) :
    M.run (k + 1) s = .refused r := by
  rw [Host.Core.run, h]

/-- `runSteps` is the host's `run` of this machine. -/
theorem runSteps_eq_run (k : Nat) (s : State) : runSteps k s = Host.Core.run core k s := by
  induction k generalizing s with
  | zero => rfl
  | succ k ih =>
    rw [runSteps]
    cases h : step s with
    | next t => exact (ih t).trans (run_succ_next core k s t h).symm
    | fault f => exact (run_succ_fault core k s f h).symm
    | refused r => exact (run_succ_refused core k s r h).symm

/-- With no transaction left, a step of a busy engine is an engine step of the command (R72, R76). -/
theorem step_exec {s : State} {op : Instr} (hp : s.ph ≠ .off) (hl : s.program = []) (hd : decode s.cmd = some op) :
    step s = exec op s := by
  have ht : takeTurn s = s := by simp [takeTurn, contested, hl]
  have hn : nextAgent s = some .engine := by
    unfold nextAgent
    rw [hl]
    cases h : s.ph with
    | off => exact absurd h hp
    | check => rfl
    | scan => rfl
  unfold step
  rw [hn]
  dsimp only
  rw [ht, engineTurn, hd]

end Sys2Proof.Machine
end

