-- ==== Sys2Proof/Tests/Slice0.lean ====
section
/-! SUPPORT. The model's own tests: the checks of WellFormed, the decoding of every command from a word written out from R90 and R95, one or two
single steps per command with results taken from spec/95_test_vectors.md, and for each statement with hypotheses a state that meets them. -/

namespace Sys2Proof.Tests

open Sys2Proof Sys2Proof.Machine

/-! Helpers. -/

/-- Small parameters: SRC_CAP = 16, DST_CAP = 4 as in section 3.8 of the vectors, LENW = 5. -/
def tiny : Config.Params := { srcCap := 16, dstCap := 4, lenw := 5 }

/-- A buffer that holds the bytes at indices 0, 1, 2, ... -/
def buffer (bs : List Byte) : Memory := bs.zipIdx.map (fun p => (p.2, p.1))

/-- The reset state with small parameters and `bs` loaded as input. -/
def loaded (bs : List Byte) : State := { State.reset with cfg := tiny, src := buffer bs, srcLen := bs.length }

/-- Word `w` issued on input `bs`: phase CHECK. -/
def busyWord (w : Byte) (bs : List Byte) : State := issue w (loaded bs)

/-- Command `c` issued on input `bs`: phase CHECK. -/
def busy (c : Instr) (bs : List Byte) : State := busyWord (encode c) bs

/-- Phase SCAN at index `i0` with `o0` bytes emitted of `l0`. -/
def scanAt (c : Instr) (bs : List Byte) (i0 o0 l0 : Nat) : State := { busy c bs with ph := .scan, i := i0, o := o0, l := l0 }

/-- The next state of a step, if there is one. -/
def after (r : Result State) : Option State :=
  match r with
  | .next t => some t
  | .fault _ => none
  | .refused _ => none

/-- What a CHECK step leaves: STATUS, phase, L. -/
def checked (r : Result State) : Option (Byte × Phase × Nat) := (after r).map (fun t => (statusWord t, t.ph, t.l))

/-- What a SCAN body leaves: I, O, FSM and the first bytes of DST. -/
def scanned (n : Nat) (r : Result State) : Option (Nat × Nat × RunState × List Byte) :=
  (after r).map (fun t => (t.i, t.o, t.fsm, dstSlice t 0 n))

/-! WellFormed: an ill-formed term for each check, refused. -/

theorem test_reserved_bits_refused : Fields.illegal { rsv := 1, m1 := false, m0 := false, unit := 1 } = some .reservedBits := by decide
theorem test_unit_zero_refused : Fields.illegal { rsv := 0, m1 := false, m0 := false, unit := 0 } = some .noUnit := by decide
theorem test_unit_seven_refused : Fields.illegal { rsv := 0, m1 := false, m0 := false, unit := 7 } = some .noUnit := by decide
theorem test_m1_outside_pctdec_refused : Fields.illegal { rsv := 0, m1 := true, m0 := false, unit := 1 } = some .modeBit1 := by decide
theorem test_m0_on_hexdec_refused : Fields.illegal { rsv := 0, m1 := false, m0 := true, unit := 2 } = some .modeBit0 := by decide
theorem test_m0_on_pctenc_refused : Fields.wellFormed { rsv := 0, m1 := false, m0 := true, unit := 3 } = false := by decide
theorem test_params_reference_accepted : Config.reference.wellFormed = true := by decide
theorem test_params_no_src_refused : Config.Params.wellFormed { srcCap := 0, dstCap := 1, lenw := 8 } = false := by decide
theorem test_params_no_dst_refused : Config.Params.wellFormed { srcCap := 1, dstCap := 0, lenw := 8 } = false := by decide
theorem test_params_narrow_lenw_refused : Config.Params.wellFormed { srcCap := 16, dstCap := 4, lenw := 4 } = false := by decide
theorem test_reg_write_reserved_refused : Transaction.wellFormed tiny (.regWrite 6 0) = false := by decide
theorem test_reg_write_wide_refused : Transaction.wellFormed tiny (.regWrite 0 256) = false := by decide
theorem test_len_write_wide_refused : Transaction.wellFormed tiny (.regWrite 2 32) = false := by decide
theorem test_reg_read_reserved_refused : Transaction.wellFormed tiny (.regRead 6) = false := by decide
theorem test_src_write_beyond_refused : Transaction.wellFormed tiny (.srcWrite 16 0) = false := by decide
theorem test_src_read_beyond_refused : Transaction.wellFormed tiny (.srcRead 16) = false := by decide
theorem test_dst_read_beyond_refused : Transaction.wellFormed tiny (.dstRead 4) = false := by decide
theorem test_dst_write_refused : Transaction.wellFormed tiny (.dstWrite 0 0) = false := by decide

/-! Decoding: each word written out as RSV, M1, M0, UNIT from the table of R95. -/

theorem test_word_hexenc : decode 0b00000001#8 = some .hexenc := by decide
theorem test_word_hexencSw : decode 0b00001001#8 = some .hexencSw := by decide
theorem test_word_hexdec : decode 0b00000010#8 = some .hexdec := by decide
theorem test_word_pctenc : decode 0b00000011#8 = some .pctenc := by decide
theorem test_word_pctdec : decode 0b00000100#8 = some .pctdec := by decide
theorem test_word_pctdecP : decode 0b00001100#8 = some .pctdecP := by decide
theorem test_word_pctdecIp : decode 0b00010100#8 = some .pctdecIp := by decide
theorem test_word_pctdecIpP : decode 0b00011100#8 = some .pctdecIpP := by decide
theorem test_word_rlencZ : decode 0b00000101#8 = some .rlencZ := by decide
theorem test_word_rlencZf : decode 0b00001101#8 = some .rlencZf := by decide
theorem test_word_rldecZ : decode 0b00000110#8 = some .rldecZ := by decide
theorem test_word_rldecZf : decode 0b00001110#8 = some .rldecZf := by decide
theorem test_word_illegal_by_name :
    decodeByName 0b00100001#8 = .error .reservedBits ∧ decodeByName 0b00000111#8 = .error .noUnit ∧
    decodeByName 0b00010101#8 = .error .modeBit1 ∧ decodeByName 0b00001010#8 = .error .modeBit0 := ⟨rfl, rfl, rfl, rfl⟩
theorem test_table_word : decodeTableWord 8 0x1C = some .pctdecIpP ∧ decodeTableWord 8 0xFF = none := by decide

/-! One CHECK step and one SCAN body per command; expected results from spec/95_test_vectors.md, sections 3.1 to 3.8. -/

theorem test_hexenc_check_overflow : checked (exec .hexenc (busy .hexenc [0x61, 0x62, 0x63])) = some (0x0E, .off, 6) := by decide
theorem test_hexenc_scan : scanned 2 (exec .hexenc (scanAt .hexenc [0xAB] 0 0 2)) = some (1, 2, .copy, [0x61, 0x62]) := by decide
theorem test_hexencSw_check_overflow : checked (exec .hexencSw (busy .hexencSw [0x61, 0x62, 0x63])) = some (0x0E, .off, 6) := by decide
theorem test_hexencSw_scan : scanned 2 (exec .hexencSw (scanAt .hexencSw [0xAB] 0 0 2)) = some (1, 2, .copy, [0x42, 0x41]) := by decide
theorem test_hexdec_odd_wins : checked (exec .hexdec (busy .hexdec [0x31, 0x67, 0x33])) = some (0x06, .off, 0) := by decide
theorem test_hexdec_scan : scanned 1 (exec .hexdec (scanAt .hexdec [0x31, 0x61, 0x46, 0x66] 0 0 2)) = some (2, 1, .copy, [0x1A]) := by decide
theorem test_pctenc_check_overflow : checked (exec .pctenc (busy .pctenc [0x61, 0x62, 0x20, 0x63])) = some (0x0E, .off, 6) := by decide
theorem test_pctenc_scan : scanned 3 (exec .pctenc (scanAt .pctenc [0x20] 0 0 3)) = some (1, 3, .copy, [0x25, 0x32, 0x30]) := by decide
theorem test_pctdec_escape_at_end : scanned 1 (exec .pctdec (scanAt .pctdec [0x25, 0x32, 0x30] 0 0 1)) = some (3, 1, .copy, [0x20]) := by decide
theorem test_pctdec_truncated_escape : scanned 1 (exec .pctdec (scanAt .pctdec [0x25, 0x32] 0 0 2)) = some (1, 1, .copy, [0x25]) := by decide
theorem test_pctdecP_plus : scanned 1 (exec .pctdecP (scanAt .pctdecP [0x2B, 0x25, 0x32, 0x42, 0x2B] 0 0 3)) = some (1, 1, .copy, [0x20]) := by decide
theorem test_pctdecP_escaped_plus : (after (exec .pctdecP (scanAt .pctdecP [0x2B, 0x25, 0x32, 0x42, 0x2B] 1 1 3))).map (fun t => (t.i, t.o, dstByte t 1)) = some (4, 2, 0x2B) := by decide
theorem test_pctdecIp_writes_src :
    (after (exec .pctdecIp (scanAt .pctdecIp [0x61, 0x2B, 0x62, 0x25, 0x34, 0x31] 3 3 4))).map
      (fun t => (t.i, t.o, srcSlice t 0 6, t.dst)) = some (6, 4, [0x61, 0x2B, 0x62, 0x41, 0x34, 0x31], []) := by decide
theorem test_pctdecIpP_plus :
    (after (exec .pctdecIpP (scanAt .pctdecIpP [0x61, 0x2B, 0x62, 0x25, 0x34, 0x31] 1 1 4))).map
      (fun t => (t.i, t.o, srcSlice t 0 6)) = some (2, 2, [0x61, 0x20, 0x62, 0x25, 0x34, 0x31]) := by decide
theorem test_pctdecIp_finish :
    (after (exec .pctdecIp (scanAt .pctdecIp [0x61, 0x2B, 0x62, 0x41, 0x34, 0x31] 6 4 4))).map
      (fun t => (statusWord t, t.srcLen, t.dstLen, t.ph)) = some (0x02, 4, 0, .off) := by decide
theorem test_rlencZ_count :
    scanned 2 (exec .rlencZ { scanAt .rlencZ [0x00, 0x00, 0xFF] 0 1 3 with fsm := .run, rv := 0x00, dst := [(0, 0x00)] }) =
      some (2, 2, .copy, [0x00, 0x02]) := by decide
theorem test_rlencZf_ff_is_sentinel : (after (exec .rlencZf (scanAt .rlencZf [0xFF, 0x00] 0 0 4))).map (fun t => (t.i, t.o, t.fsm, t.rv)) = some (0, 1, .run, 0xFF) := by decide
theorem test_rlencZ_ff_is_literal : scanned 1 (exec .rlencZ (scanAt .rlencZ [0xFF] 0 0 1)) = some (1, 1, .copy, [0xFF]) := by decide
theorem test_rldecZf_pair_read : (after (exec .rldecZf (scanAt .rldecZf [0xFF, 0x03] 0 0 3))).map (fun t => (t.i, t.o, t.fsm, t.cnt)) = some (0, 0, .run, 3) := by decide
theorem test_rldecZ_trailing_sentinel : scanned 1 (exec .rldecZ (scanAt .rldecZ [0x00] 0 0 1)) = some (1, 1, .copy, [0x00]) := by decide
theorem test_rldecZf_run :
    scanned 3 (exec .rldecZf { scanAt .rldecZf [0xFF, 0x03] 0 0 3 with fsm := .run, rv := 0xFF, cnt := 3 }) =
      some (2, 3, .copy, [0xFF, 0xFF, 0xFF]) := by decide
theorem test_rldecZ_check_overflow : checked (exec .rldecZ (busy .rldecZ [0x00, 0xFF])) = some (0x0E, .off, 255) := by decide +kernel
theorem test_illegal_word : checked (engineTurn (busyWord 0x0A [0x61])) = some (0x12, .off, 0) := by decide
theorem test_placed_word_runs :
    checked (step (State.reset.withFetchWord 8 0x02)) = some (0x01, .scan, 0) ∧
    checked (step (State.reset.withFetchWord 8 0x20)) = some (0x12, .off, 0) := by decide

/-! HostProgram: `LOAD "1g"` is two byte writes and the length (R100), and a command mnemonic stands for its word (R99). -/

theorem test_load_text : loadText "1g" = [.srcWrite 0 0x31, .srcWrite 1 0x67, .regWrite 2 2] := by decide
theorem test_run_mnemonic : runCommand .hexdec 1 = [.regWrite 0 2, .regRead 1] := by decide

/-! States that meet the invariant: idle, in CHECK, in SCAN, at the end of SCAN, done with an error. -/

/-- Nothing issued, two transactions to come. -/
def idleState : State := { loaded [0x61] with program := [.regWrite 0 1, .regRead 1], turns := [.host] }

/-- HEXENC issued. -/
def checkState : State := busy .hexenc [0xAB]

/-- HEXENC after its CHECK step. -/
def scanState : State := scanAt .hexenc [0xAB] 0 0 2

/-- PCTDEC.IP with everything read, before its finish. -/
def endState : State := scanAt .pctdecIp [0x41, 0x34, 0x31] 3 1 1

/-- HEXDEC completed with InvalidLength. -/
def errorState : State := raiseError .invalidLength (busy .hexdec [0x31])

theorem inv_idleState : MachineInv idleState :=
  ⟨⟨by decide, by decide, by decide, by decide, by decide, fun h => absurd h (by decide), by decide⟩,
   ⟨by decide, by decide, by decide, by decide, by decide, by decide⟩,
   fun h => absurd h (by decide), fun h => absurd h (by decide), by decide⟩

theorem inv_checkState : MachineInv checkState :=
  ⟨⟨by decide, by decide, by decide, by decide, by decide, fun h => absurd h (by decide), by decide⟩,
   ⟨by decide, by decide, by decide, by decide, by decide, by decide⟩,
   fun _ => ⟨by decide, by decide, by decide⟩, fun h => absurd h (by decide), by decide⟩

theorem inv_scanState : MachineInv scanState :=
  ⟨⟨by decide, by decide, by decide, by decide, by decide,
     fun _ => ⟨by decide, by decide, .hexenc, by decide, by decide, by decide⟩, by decide⟩,
   ⟨by decide, by decide, by decide, by decide, by decide, by decide⟩,
   fun h => absurd h (by decide),
   fun _ => ⟨.hexenc, [0x61, 0x62], by decide, by decide, by decide, by decide, by decide, by decide, by decide⟩, by decide⟩

theorem inv_endState : MachineInv endState :=
  ⟨⟨by decide, by decide, by decide, by decide, by decide,
     fun _ => ⟨by decide, by decide, .pctdecIp, by decide, by decide, by decide⟩, by decide⟩,
   ⟨by decide, by decide, by decide, by decide, by decide, by decide⟩,
   fun h => absurd h (by decide),
   fun _ => ⟨.pctdecIp, [], by decide, by decide, by decide, by decide, by decide, by decide, by decide⟩, by decide⟩

theorem inv_errorState : MachineInv errorState :=
  ⟨⟨by decide, by decide, by decide, by decide, by decide, fun h => absurd h (by decide), by decide⟩,
   ⟨by decide, by decide, by decide, by decide, by decide, by decide⟩,
   fun h => absurd h (by decide), fun h => absurd h (by decide), by decide⟩

theorem reachable_tiny : Reachable (loaded []) := .start _ ⟨rfl, by decide, by decide, by decide⟩

/-! For each statement with hypotheses: a state and operands that meet all of them, each clause at the edge of its range. -/

theorem witness_DecodeInvertsEncode : Instr.hexenc.wellFormed = true := by decide

theorem witness_StepRunsTheDecodedCommand :
    nextAgent checkState = some .engine ∧ decode checkState.cmd = some .hexenc ∧ Instr.hexenc.wellFormed = true := by decide

theorem witness_PlacedWordRunsNext : decode (BitVec.ofNat 8 0x1C) = some .pctdecIpP ∧ decode (BitVec.ofNat 8 0x101) = some .hexenc := by decide

theorem witness_EngineMovesOnlyWhileBusy :
    (MachineInv idleState ∧ idleState.st ≠ .busy ∧ idleState.program ≠ []) ∧
    (MachineInv errorState ∧ errorState.st ≠ .busy ∧ errorState.program = []) ∧
    (MachineInv checkState ∧ checkState.st = .busy ∧ checkState.program = [] ∧ nextAgent checkState = some .engine) ∧
    (MachineInv (issue 0x01 idleState) ∧ (issue 0x01 idleState).st = .busy ∧ (issue 0x01 idleState).program ≠ []) :=
  ⟨⟨inv_idleState, by decide, by decide⟩, ⟨inv_errorState, by decide, by decide⟩,
   ⟨inv_checkState, by decide, by decide, by decide⟩,
   ⟨⟨⟨by decide, by decide, by decide, by decide, by decide, fun h => absurd h (by decide), by decide⟩,
     ⟨by decide, by decide, by decide, by decide, by decide, by decide⟩,
     fun _ => ⟨by decide, by decide, by decide⟩, fun h => absurd h (by decide), by decide⟩, by decide, by decide⟩⟩

theorem witness_ResetStateReadsAsTheTable : AfterReset { loaded [] with src := [(15, 0x61)], dst := [(3, 0x62)] } :=
  ⟨rfl, by decide, by decide, by decide⟩

theorem witness_CommandWriteIssues : idleState.st ≠ .busy ∧ checkState.st = .busy := by decide

/-- SRC_LEN at SRC_CAP is taken, one above it is not, and a write of a read-only or a reserved register is not. -/
theorem witness_RegisterSpaceMap :
    idleState.st ≠ .busy ∧ checkState.st = .busy ∧ 16 ≤ idleState.cfg.srcCap ∧
    (2 ≠ 0 ∧ ¬ (2 = 2 ∧ 17 ≤ idleState.cfg.srcCap)) ∧ (1 ≠ 0 ∧ ¬ (1 = 2 ∧ 0 ≤ idleState.cfg.srcCap)) ∧
    (6 ≠ 0 ∧ ¬ (6 = 2 ∧ 0 ≤ idleState.cfg.srcCap)) := by decide

theorem witness_SrcSpaceAccess : idleState.st ≠ .busy ∧ 0 < idleState.cfg.srcCap ∧ 15 < idleState.cfg.srcCap ∧ 14 ≠ 15 := by decide

theorem witness_DstSpaceAccess : idleState.st ≠ .busy ∧ 0 < idleState.cfg.dstCap ∧ 3 < idleState.cfg.dstCap := by decide

theorem witness_OutOfRangeAccess : idleState.cfg.srcCap ≤ 16 ∧ idleState.cfg.dstCap ≤ 4 ∧ 6 ≤ 6 := by decide

theorem witness_ReadsChangeNothingAndWritesRepeat :
    (∃ k, Transaction.srcRead 0 = .regRead k ∨ Transaction.srcRead 0 = .srcRead k ∨ Transaction.srcRead 0 = .dstRead k) ∧
    idleState.st ≠ .busy ∧ 2 ≠ 0 := ⟨⟨0, .inr (.inl rfl)⟩, by decide, by decide⟩

theorem witness_BusyBlockBelongsToTheEngine :
    checkState.st = .busy ∧ (2 = 2 ∨ 2 = 3) ∧ (3 = 2 ∨ 3 = 3) ∧ Transaction.regWrite 0 1 ≠ .reset := by decide

theorem witness_StatusWordLayout : ReachableInvariants idleState ∧ ReachableInvariants checkState ∧ ReachableInvariants errorState :=
  ⟨inv_idleState.spec, inv_checkState.spec, inv_errorState.spec⟩

theorem witness_CapacitiesNeverChange : (∃ t, step checkState = .next t) ∧ checkState.cfg.wellFormed = true := ⟨⟨_, rfl⟩, by decide⟩

theorem witness_HelperFunctionTables : 0 < 10 ∧ 9 < 10 ∧ 0 < 6 ∧ 5 < 6 := by decide

theorem ready_busy (c : Instr) (bs : List Byte) (h : bs.length ≤ 16) : CheckReady (busy c bs) := ⟨rfl, h⟩

/-- For each command an input whose result fits exactly or nearly. -/
theorem witness_CheckAcceptsAndMeasures :
    [(Instr.hexenc, [(0x61 : Byte), 0x62], 4), (.hexencSw, [0x61, 0x62], 4), (.hexdec, [0x31, 0x41], 1), (.pctenc, [0x20, 0x61], 4),
     (.pctdec, [0x25, 0x32, 0x30], 1), (.pctdecP, [0x2B], 1), (.pctdecIp, [0x25, 0x32], 2), (.pctdecIpP, [], 0),
     (.rlencZ, [0x00], 2), (.rlencZf, [0x00, 0xFF], 4), (.rldecZ, [0x00, 0x04], 4), (.rldecZf, [0xFF, 0x00], 0)].all (fun r =>
      match commandFunction r.1 (input (busy r.1 r.2.1)) with
      | .ok out => decide (out.length = r.2.2) && fits r.1 tiny r.2.1.length out.length && decide (CheckReady (busy r.1 r.2.1))
      | .err _ => false) = true := by decide

theorem witness_CheckStepHasThreeOutcomes :
    CheckReady checkState ∧ CheckReady (busy .hexdec [0x31]) ∧ CheckReady (busy .hexenc [0x61, 0x62, 0x63]) := by decide

/-- Each clause on both sides of its edge: SRC_LEN 4 and 5 for PCTDEC, output length 4 and 6 for HEXENC, the in-place form, and a failing function. -/
theorem witness_OverflowExactlyWhenItDoesNotFit :
    (CheckReady (busy .pctdec [0, 0, 0, 0, 0]) ∧ (∃ out, commandFunction .pctdec (input (busy .pctdec [0, 0, 0, 0, 0])) = .ok out) ∧ 4 < 5) ∧
    (CheckReady (busy .pctdecP [0, 0, 0, 0]) ∧ (∃ out, commandFunction .pctdecP (input (busy .pctdecP [0, 0, 0, 0])) = .ok out) ∧ 4 ≤ 4) ∧
    (CheckReady (busy .hexenc [1, 2, 3]) ∧ (∃ out, commandFunction .hexenc (input (busy .hexenc [1, 2, 3])) = .ok out ∧ 4 < out.length)) ∧
    (CheckReady (busy .hexenc [1, 2]) ∧ (∃ out, commandFunction .hexenc (input (busy .hexenc [1, 2])) = .ok out ∧ out.length ≤ 4)) ∧
    (CheckReady (busy .pctdecIp [0, 0, 0, 0, 0]) ∧ ∃ out, commandFunction .pctdecIp (input (busy .pctdecIp [0, 0, 0, 0, 0])) = .ok out) ∧
    (CheckReady (busy .hexdec [0x67]) ∧ commandFunction .hexdec (input (busy .hexdec [0x67])) = .err .invalidLength) ∧
    (∃ t, exec .hexenc (busy .hexenc [1, 2, 3]) = .next t ∧ t.err = some .overflow) :=
  ⟨⟨by decide, ⟨_, rfl⟩, by decide⟩, ⟨by decide, ⟨_, rfl⟩, by decide⟩, ⟨by decide, _, rfl, by decide⟩, ⟨by decide, _, rfl, by decide⟩,
   ⟨by decide, _, rfl⟩, ⟨by decide, by decide⟩, ⟨_, rfl, rfl⟩⟩

theorem witness_HexdecOddLengthIsInvalidLength :
    (CheckReady (busy .hexdec [0x31]) ∧ (busy .hexdec [0x31]).srcLen % 2 = 1) ∧
    (Instr.hexenc ≠ .hexdec ∧ ∃ t, exec .hexenc errorState = .next t ∧ t.err = some .invalidLength) := ⟨by decide, by decide, _, rfl, rfl⟩

/-- The bad character in the last position, and in the first. -/
theorem witness_HexdecBadCharacterIsInvalidCharacter :
    (CheckReady (busy .hexdec [0x31, 0x67]) ∧ (busy .hexdec [0x31, 0x67]).srcLen % 2 = 0 ∧ 1 < (busy .hexdec [0x31, 0x67]).srcLen ∧
      hexval (srcByte (busy .hexdec [0x31, 0x67]) 1) = none) ∧
    (CheckReady (busy .hexdec [0x67, 0x31]) ∧ hexval (srcByte (busy .hexdec [0x67, 0x31]) 0) = none) ∧
    (Instr.pctdec ≠ .hexdec ∧ ∃ t, exec .pctdec (raiseError .invalidCharacter checkState) = .next t ∧ t.err = some .invalidCharacter) :=
  ⟨by decide, by decide, by decide, _, rfl, rfl⟩

theorem witness_IllegalCommandCompletesInCheck :
    (busyWord 0x0A [0x61]).ph = .check ∧ ∀ row ∈ opcodeTable, (busyWord 0x0A [0x61]).cmd ≠ row.1 := by decide

theorem witness_ErrorPriority :
    (CheckReady (busyWord 0x00 [0x67]) ∧ decode (busyWord 0x00 [0x67]).cmd = none) ∧
    (CheckReady (busy .hexdec [0x67]) ∧ decode (busy .hexdec [0x67]).cmd = some .hexdec ∧ (busy .hexdec [0x67]).srcLen % 2 = 1) ∧
    (CheckReady (busy .hexdec [0x31, 0x67]) ∧ (busy .hexdec [0x31, 0x67]).srcLen % 2 = 0 ∧
      ∃ c ∈ input (busy .hexdec [0x31, 0x67]), hexval c = none) ∧
    (CheckReady (busy .hexenc [1, 2, 3]) ∧ ∃ out, commandFunction .hexenc (input (busy .hexenc [1, 2, 3])) = .ok out ∧
      fits .hexenc (busy .hexenc [1, 2, 3]).cfg (busy .hexenc [1, 2, 3]).srcLen out.length = false) ∧
    (CheckReady checkState ∧ ∃ out, commandFunction .hexenc (input checkState) = .ok out ∧
      fits .hexenc checkState.cfg checkState.srcLen out.length = true) :=
  ⟨by decide, by decide, by decide, ⟨by decide, _, rfl, by decide⟩, ⟨by decide, _, rfl, by decide⟩⟩

theorem witness_OnlyHexdecHasAFailingFunction :
    Instr.pctdec ≠ .hexdec ∧ [(0x67 : Byte)].length % 2 = 1 ∧
    ([(0x31 : Byte), 0x67].length % 2 = 0 ∧ ∃ c ∈ [(0x31 : Byte), 0x67], hexval c = none) ∧
    ([(0x31 : Byte), 0x66].length % 2 = 0 ∧ ∀ c ∈ [(0x31 : Byte), 0x66], hexval c ≠ none) := by decide

/-- Inputs at the edge of the sufficient condition with DST_CAP = 4: 2 bytes for HEXENC, 8 for HEXDEC, 4 for PCTDEC, 1 for RLDEC; for RLDEC's second condition the
encoding of 4 zeros, too long for the first; an input of the reference parameters. -/
theorem witness_SufficientCapacityRulesOutOverflow :
    (CheckReady (busy .hexenc [1, 2]) ∧ sufficientCapacity .hexenc tiny (input (busy .hexenc [1, 2])) ∧
      ∃ out, commandFunction .hexenc (input (busy .hexenc [1, 2])) = .ok out) ∧
    (CheckReady (busy .hexdec (List.replicate 8 0x31)) ∧ sufficientCapacity .hexdec tiny (input (busy .hexdec (List.replicate 8 0x31))) ∧
      ∃ out, commandFunction .hexdec (input (busy .hexdec (List.replicate 8 0x31))) = .ok out) ∧
    (CheckReady (busy .pctdec [0, 0, 0, 0]) ∧ sufficientCapacity .pctdec tiny (input (busy .pctdec [0, 0, 0, 0])) ∧
      ∃ out, commandFunction .pctdec (input (busy .pctdec [0, 0, 0, 0])) = .ok out) ∧
    (CheckReady (busy .rldecZ [5]) ∧ sufficientCapacity .rldecZ tiny (input (busy .rldecZ [5])) ∧
      ∃ out, commandFunction .rldecZ (input (busy .rldecZ [5])) = .ok out) ∧
    (CheckReady (busy .rldecZ [0, 4]) ∧ sufficientCapacity .rldecZ tiny (input (busy .rldecZ [0, 4])) ∧ ¬ 255 * (2 / 2) + 2 % 2 ≤ tiny.dstCap ∧
      ∃ out, commandFunction .rldecZ (input (busy .rldecZ [0, 4])) = .ok out) ∧
    (CheckReady { checkState with cfg := Config.reference } ∧ Instr.hexenc ≠ .rldecZ ∧ Instr.hexenc ≠ .rldecZf ∧
      ∃ out, commandFunction .hexenc (input { checkState with cfg := Config.reference }) = .ok out) :=
  ⟨⟨by decide, by unfold sufficientCapacity; decide, _, rfl⟩, ⟨by decide, by unfold sufficientCapacity; decide, _, rfl⟩,
   ⟨by decide, by unfold sufficientCapacity; decide, _, rfl⟩, ⟨by decide, .inl (by decide), _, rfl⟩,
   ⟨by decide, .inr ⟨[0, 0, 0, 0], by decide, by decide⟩, by decide, _, rfl⟩, ⟨by decide, by decide, by decide, _, rfl⟩⟩

/-- Room for exactly two bytes: O = 2 of DST_CAP = 4. -/
theorem witness_HexencScanBodies : ScanReady (scanAt .hexenc [0xAB, 0xCD] 1 2 4) ∧ (scanAt .hexenc [0xAB, 0xCD] 1 2 4).o + 2 ≤ tiny.dstCap := by decide

theorem witness_HexdecScanBody :
    ScanReady (scanAt .hexdec [0x31, 0x66] 0 3 4) ∧ 0 + 1 < 2 ∧ 3 + 1 ≤ tiny.dstCap ∧
    hexval (srcByte (scanAt .hexdec [0x31, 0x66] 0 3 4) 0) = some 1 ∧ hexval (srcByte (scanAt .hexdec [0x31, 0x66] 0 3 4) 1) = some 15 := by decide

theorem witness_PctencScanBody :
    (ScanReady (scanAt .pctenc [0x7E] 0 3 4) ∧ unreserved (srcByte (scanAt .pctenc [0x7E] 0 3 4) 0) = true ∧ 3 + 1 ≤ tiny.dstCap) ∧
    (ScanReady (scanAt .pctenc [0x25] 0 1 4) ∧ unreserved (srcByte (scanAt .pctenc [0x25] 0 1 4) 0) = false ∧ 1 + 3 ≤ tiny.dstCap) := by decide

/-- An escape that ends at the last byte; one byte short of it; `+` with and without the flag; the two in-place forms. -/
theorem witness_PctdecScanBodies :
    (ScanReady (scanAt .pctdec [0x25, 0x32, 0x42] 0 3 4) ∧ srcByte (scanAt .pctdec [0x25, 0x32, 0x42] 0 3 4) 0 = 0x25 ∧ 0 + 2 < 3 ∧
      hexval (srcByte (scanAt .pctdec [0x25, 0x32, 0x42] 0 3 4) 1) = some 2 ∧ hexval (srcByte (scanAt .pctdec [0x25, 0x32, 0x42] 0 3 4) 2) = some 11 ∧
      (0x2B : Byte) = BitVec.ofNat 8 (16 * (2 : Nibble).toNat + (11 : Nibble).toNat) ∧ 3 + 1 ≤ tiny.dstCap) ∧
    (ScanReady (scanAt .pctdecIp [0x25, 0x32] 0 0 2) ∧
      ¬ (srcByte (scanAt .pctdecIp [0x25, 0x32] 0 0 2) 0 = 0x25 ∧ 0 + 2 < 2 ∧
        (hexval (srcByte (scanAt .pctdecIp [0x25, 0x32] 0 0 2) 1)).isSome = true ∧ (hexval (srcByte (scanAt .pctdecIp [0x25, 0x32] 0 0 2) 2)).isSome = true) ∧
      (0x25 : Byte) = (if false = true ∧ srcByte (scanAt .pctdecIp [0x25, 0x32] 0 0 2) 0 = 0x2B then 0x20 else srcByte (scanAt .pctdecIp [0x25, 0x32] 0 0 2) 0) ∧
      0 + 1 ≤ tiny.srcCap) ∧
    (ScanReady (scanAt .pctdecIpP [0x2B] 0 0 1) ∧
      (0x20 : Byte) = (if true = true ∧ srcByte (scanAt .pctdecIpP [0x2B] 0 0 1) 0 = 0x2B then 0x20 else srcByte (scanAt .pctdecIpP [0x2B] 0 0 1) 0)) := by
  refine ⟨by decide, ⟨by decide, fun h => absurd h.2.1 (by decide), by decide, by decide⟩, by decide⟩

/-- A sentinel; a literal that is a sentinel of the other command only; a count up to the end of the input; a count stopped by another byte. -/
theorem witness_RlencScanBodies :
    (ScanReady (scanAt .rlencZ [0x00] 0 3 4) ∧ 3 + 1 ≤ tiny.dstCap ∧ srcByte (scanAt .rlencZ [0x00] 0 3 4) 0 = 0x00) ∧
    (ScanReady (scanAt .rlencZ [0xFF] 0 0 1) ∧ ¬ (srcByte (scanAt .rlencZ [0xFF] 0 0 1) 0 = 0x00 ∨ (false = true ∧ srcByte (scanAt .rlencZ [0xFF] 0 0 1) 0 = 0xFF))) ∧
    (ScanReady { scanAt .rlencZf [0xFF, 0xFF] 0 1 2 with fsm := .run, rv := 0xFF } ∧
      (∀ k, k < 2 → srcByte (scanAt .rlencZf [0xFF, 0xFF] 0 1 2) (0 + k) = 0xFF) ∧ 0 + 2 = 2) ∧
    (ScanReady { scanAt .rlencZf [0xFF, 0x00] 0 1 4 with fsm := .run, rv := 0xFF } ∧
      (∀ k, k < 1 → srcByte (scanAt .rlencZf [0xFF, 0x00] 0 1 4) (0 + k) = 0xFF) ∧ srcByte (scanAt .rlencZf [0xFF, 0x00] 0 1 4) (0 + 1) ≠ 0xFF) := by
  refine ⟨by decide, by decide, ⟨by decide, by decide, by decide⟩, ⟨by decide, by decide, by decide⟩⟩

/-- A run capped at 250: the input is longer than the run counted. -/
theorem witness_RlencScanBodies_cap :
    ∃ s : State, ScanReady s ∧ s.o + 1 ≤ s.cfg.dstCap ∧ s.fsm = .run ∧ s.i + 250 ≤ s.srcLen ∧
      ∀ k, k < 250 → srcByte s (s.i + k) = s.rv := by
  refine ⟨{ State.reset with src := buffer (List.replicate 251 0x00), srcLen := 251, ph := .scan, fsm := .run }, by decide, by decide, rfl, by decide, ?_⟩
  decide +kernel

theorem witness_RldecScanBodies :
    (ScanReady (scanAt .rldecZ [0x00, 0x03] 0 0 3) ∧ srcByte (scanAt .rldecZ [0x00, 0x03] 0 0 3) 0 = 0x00 ∧ 0 + 1 < 2) ∧
    (ScanReady (scanAt .rldecZf [0xFF] 0 3 4) ∧
      ¬ ((srcByte (scanAt .rldecZf [0xFF] 0 3 4) 0 = 0x00 ∨ (true = true ∧ srcByte (scanAt .rldecZf [0xFF] 0 3 4) 0 = 0xFF)) ∧ 0 + 1 < 1) ∧ 3 + 1 ≤ tiny.dstCap) ∧
    (ScanReady { scanAt .rldecZ [0x00, 0x03] 0 1 4 with fsm := .run, rv := 0x00, cnt := 3 } ∧ 1 + 3 ≤ tiny.dstCap) ∧
    (ScanReady { scanAt .rldecZ [0x00, 0x00] 0 4 4 with fsm := .run, rv := 0x00, cnt := 0 } ∧ 4 + 0 ≤ tiny.dstCap) := by decide

theorem witness_FinishDeliversTheLength :
    (endState.ph = .scan ∧ endState.srcLen ≤ endState.i) ∧
    ((scanAt .hexenc [0xAB] 1 2 2).ph = .scan ∧ (scanAt .hexenc [0xAB] 1 2 2).srcLen ≤ (scanAt .hexenc [0xAB] 1 2 2).i ∧
      Instr.hexenc ≠ .pctdecIp ∧ Instr.hexenc ≠ .pctdecIpP) := by decide

theorem witness_ScanAdvancesAsTheTable :
    (ScanReady scanState ∧ ∃ t, exec .hexenc scanState = .next t) ∧
    (ScanReady { scanAt .rldecZ [0x00, 0x03] 0 0 3 with fsm := .run, rv := 0x00, cnt := 3 } ∧
      ∃ t, exec .rldecZ { scanAt .rldecZ [0x00, 0x03] 0 0 3 with fsm := .run, rv := 0x00, cnt := 3 } = .next t) :=
  ⟨⟨by decide, _, rfl⟩, ⟨by decide, _, rfl⟩⟩

theorem witness_ScanWritesOnlyItsOutputBytes :
    (ScanReady scanState ∧ (∃ t, exec .hexenc scanState = .next t) ∧ Instr.hexenc ∉ [Instr.rlencZ, .rlencZf, .rldecZ, .rldecZf]) ∧
    (ScanReady (scanAt .pctdecIp [0x25, 0x34, 0x31] 0 0 1) ∧ ∃ t, exec .pctdecIp (scanAt .pctdecIp [0x25, 0x34, 0x31] 0 0 1) = .next t) :=
  ⟨⟨by decide, ⟨_, rfl⟩, by decide⟩, ⟨by decide, _, rfl⟩⟩

theorem witness_HexFunctionsDigitByDigit : [(0xAB : Byte), 0xCD][1]? = some 0xCD := by decide

theorem witness_HexdecFunctionPairByPair : commandFunction .hexdec [0x31, 0x66] = .ok [0x1F] ∧ 0 < [(0x1F : Byte)].length := by decide

theorem witness_HexRoundTrip : commandFunction .hexdec [0x31, 0x41] = .ok [0x1A] := by decide

theorem witness_PctencLengthIsPrecomputed :
    commandFunction .pctenc [0x61, 0x20] = .ok [0x61, 0x25, 0x32, 0x30] ∧
    (CheckReady (busy .pctenc [0x61, 0x20]) ∧ ∃ t, exec .pctenc (busy .pctenc [0x61, 0x20]) = .next t) ∧
    (MachineInv endState ∧ endState.ph = .scan ∧ endState.srcLen ≤ endState.i) :=
  ⟨by decide, ⟨by decide, _, rfl⟩, inv_endState, by decide, by decide⟩

theorem witness_PctencUnchangedWhenUnreserved :
    commandFunction .pctenc [0x61, 0x62, 0x63] = .ok [0x61, 0x62, 0x63] ∧ commandFunction .pctenc [0x20] = .ok [0x25, 0x32, 0x30] := by decide

theorem witness_EncodedFormHasCountsAfterSentinels :
    (1 ≤ (1 : Byte).toNat ∧ (1 : Byte).toNat ≤ Config.runMax) ∧ (1 ≤ (250 : Byte).toNat ∧ (250 : Byte).toNat ≤ Config.runMax) := by decide

/-- A stretch of either sentinel followed by nothing, by the other sentinel, by a literal; 0xFF under the single predicate is no sentinel. -/
theorem witness_LongRunsSplitGreedily :
    (inZ 0x00 = true ∧ [].head? ≠ some (0x00 : Byte)) ∧ (inZF 0xFF = true ∧ [0x00].head? ≠ some (0xFF : Byte)) ∧
    (inZF 0x00 = true ∧ [0x61].head? ≠ some (0x00 : Byte)) ∧ inZ 0xFF = false := by decide

theorem witness_RunCodecSizes : ∀ b ∈ [(0x01 : Byte), 0xFE], inZF b = false := by decide

/-- A state for each clause: Reset and an issue after an error, a read after an error, a CMD write while BUSY, a CHECK step that fails and one that does not, no agent. -/
theorem witness_ErrIsWrittenByCompletionIssueAndReset :
    (∀ x ∈ [Transaction.reset, .regWrite 0 1, .regRead 1], MachineInv { errorState with program := [x] } ∧
      nextAgent { errorState with program := [x] } = some .host ∧ { errorState with program := [x] }.st ≠ .busy ∧
      { errorState with program := [x] }.err ≠ none ∧ StepGoesOn { errorState with program := [x] }) ∧
    (MachineInv { checkState with program := [.regWrite 0 1], turns := [.host] } ∧
      nextAgent { checkState with program := [.regWrite 0 1], turns := [.host] } = some .host ∧
      StepGoesOn { checkState with program := [.regWrite 0 1], turns := [.host] }) ∧
    (MachineInv (busy .hexdec [0x31]) ∧ nextAgent (busy .hexdec [0x31]) = some .engine ∧ (busy .hexdec [0x31]).ph = .check ∧
      ∃ t, step (busy .hexdec [0x31]) = .next t ∧ t.st = .done) ∧
    (MachineInv checkState ∧ nextAgent checkState = some .engine ∧ ∃ t, step checkState = .next t ∧ t.st ≠ .done) ∧
    (MachineInv errorState ∧ nextAgent errorState = none ∧ StepGoesOn errorState) := by
  refine ⟨?_, ⟨?_, by decide, _, rfl⟩, ⟨?_, by decide, by decide, _, rfl, by decide⟩,
    ⟨inv_checkState, by decide, _, rfl, by decide⟩, inv_errorState, by decide, _, rfl⟩
  · have inv : ∀ xs, MachineInv { errorState with program := xs } := fun xs =>
      ⟨⟨inv_errorState.spec.lengths, inv_errorState.spec.busyIffPhase, inv_errorState.spec.busyClean, inv_errorState.spec.idleClean,
        inv_errorState.spec.errorDone, inv_errorState.spec.scanBounds, inv_errorState.spec.offCopy⟩,
       ⟨inv_errorState.legal.params, inv_errorState.legal.srcWf, inv_errorState.legal.dstWf, inv_errorState.legal.iRange,
        inv_errorState.legal.oRange, inv_errorState.legal.cntRange⟩,
       fun h => absurd (show errorState.ph = .check from h) (by decide), fun h => absurd (show errorState.ph = .scan from h) (by decide),
       inv_errorState.result⟩
    intro x hx
    simp only [List.mem_cons, List.not_mem_nil, or_false] at hx
    obtain rfl | rfl | rfl := hx <;> exact ⟨inv _, by decide, by decide, by decide, _, rfl⟩
  · exact ⟨⟨by decide, by decide, by decide, by decide, by decide, fun h => absurd h (by decide), by decide⟩,
      ⟨by decide, by decide, by decide, by decide, by decide, by decide⟩,
      fun _ => ⟨by decide, by decide, by decide⟩, fun h => absurd h (by decide), by decide⟩
  · exact ⟨⟨by decide, by decide, by decide, by decide, by decide, fun h => absurd h (by decide), by decide⟩,
      ⟨by decide, by decide, by decide, by decide, by decide, by decide⟩,
      fun _ => ⟨by decide, by decide, by decide⟩, fun h => absurd h (by decide), by decide⟩

theorem witness_StatusTransitions :
    (MachineInv idleState ∧ ∃ t, step idleState = .next t) ∧ (MachineInv endState ∧ ∃ t, step endState = .next t) :=
  ⟨⟨inv_idleState, _, rfl⟩, ⟨inv_endState, _, rfl⟩⟩

theorem witness_EveryStepKeepsTheInvariant :
    (MachineInv checkState ∧ ∃ t, step checkState = .next t) ∧ (MachineInv scanState ∧ ∃ t, step scanState = .next t) :=
  ⟨⟨inv_checkState, _, rfl⟩, ⟨inv_scanState, _, rfl⟩⟩

theorem witness_NoStepStops : MachineInv idleState ∧ MachineInv checkState ∧ MachineInv scanState ∧ MachineInv endState ∧ MachineInv errorState :=
  ⟨inv_idleState, inv_checkState, inv_scanState, inv_endState, inv_errorState⟩

/-- A state reachable in two steps: a byte written, then a command issued. -/
theorem witness_ReachableStatesMeetR35 :
    ∃ t, Reachable t ∧ t.st = .busy := by
  have h0 : Reachable { loaded [] with program := [.srcWrite 0 0x61, .regWrite 0 1] } := .start _ ⟨rfl, by decide, by decide, by decide⟩
  exact ⟨_, .next _ _ (.next _ _ h0 rfl) rfl, rfl⟩

/-- One witness per clause, with a host program that interferes: a failing function, a result that does not fit, one that does, in DST and in place. -/
theorem witness_OperationComputesItsFunction :
    [busy .hexdec [0x67], busy .hexenc [1, 2, 3], checkState, busy .pctdecIp [0x25, 0x34, 0x31]].all (fun s =>
      decide (CheckReady { s with program := [.srcWrite 0 0] }) && decide (s.i = 0 ∧ s.o = 0 ∧ s.l = 0 ∧ s.cnt = 0) &&
      decide (s.rv = 0x00) && decide (s.fsm = .copy) && decide (s.st = .busy) && decide (Transaction.reset ∉ [Transaction.srcWrite 0 0]) &&
      (decode s.cmd).isSome) = true ∧
    commandFunction .hexdec (input (busy .hexdec [0x67])) = .err .invalidLength ∧
    (∃ out, commandFunction .hexenc (input (busy .hexenc [1, 2, 3])) = .ok out ∧ fits .hexenc tiny 3 out.length = false) ∧
    (∃ out, commandFunction .hexenc (input checkState) = .ok out ∧ fits .hexenc tiny 1 out.length = true) ∧
    (∃ out, commandFunction .pctdecIp (input (busy .pctdecIp [0x25, 0x34, 0x31])) = .ok out ∧ fits .pctdecIp tiny 3 out.length = true) :=
  ⟨by decide, by decide, ⟨_, rfl, by decide⟩, ⟨_, rfl, by decide⟩, ⟨_, rfl, by decide⟩⟩

theorem witness_EveryIssuedOperationCompletes :
    MachineInv checkState ∧ checkState.st = .busy ∧ Transaction.reset ∉ checkState.program := ⟨inv_checkState, by decide, by decide⟩

/-- Two states with the same input and command, and different bytes beyond the input. -/
theorem witness_ResultDependsOnCommandAndInputOnly :
    CheckReady checkState ∧ CheckReady { checkState with src := [(0, 0xAB), (9, 0x11)], dst := [(3, 0x22)] } ∧
    FreshOperation checkState ∧ FreshOperation { checkState with src := [(0, 0xAB), (9, 0x11)], dst := [(3, 0x22)] } ∧
    checkState.program = [] ∧ decode checkState.cmd = some .hexenc ∧
    checkState.dstLen = 0 ∧ input { checkState with src := [(0, 0xAB), (9, 0x11)], dst := [(3, 0x22)] } = input checkState ∧
    (∃ t, runSteps 3 checkState = .next t) ∧
    (∃ t, runSteps 3 { checkState with src := [(0, 0xAB), (9, 0x11)], dst := [(3, 0x22)] } = .next t) :=
  ⟨by decide, by decide, ⟨by decide, by decide, by decide⟩, ⟨by decide, by decide, by decide⟩, by decide, by decide, by decide, by decide, ⟨_, rfl⟩, ⟨_, rfl⟩⟩

/-- HEXENC done with two bytes. -/
def doneState : State := { loaded [0xAB] with dst := [(0, 0x61), (1, 0x62)], dstLen := 2, cmd := 0x01, st := .done, i := 1, o := 2, l := 2 }

/-- PCTDEC.IP done: SRC_LEN = 1 and a tail of two bytes. -/
def doneInPlaceState : State := { loaded [0x41, 0x34, 0x31] with srcLen := 1, cmd := 0x14, st := .done, i := 3, o := 1, l := 1 }

theorem inv_doneState : MachineInv doneState :=
  ⟨⟨by decide, by decide, by decide, by decide, by decide, fun h => absurd h (by decide), by decide⟩,
   ⟨by decide, by decide, by decide, by decide, by decide, by decide⟩,
   fun h => absurd h (by decide), fun h => absurd h (by decide), by decide⟩

theorem inv_doneInPlaceState : MachineInv doneInPlaceState :=
  ⟨⟨by decide, by decide, by decide, by decide, by decide, fun h => absurd h (by decide), by decide⟩,
   ⟨by decide, by decide, by decide, by decide, by decide, by decide⟩,
   fun h => absurd h (by decide), fun h => absurd h (by decide), by decide⟩

/-- The last byte of a result of two and of an in-place result, a byte of SRC beyond SRC_LEN, the status while BUSY, an issue on a written input; and what is shut out:
the tails, an unwritten byte of SRC, an issue on one. -/
theorem witness_RespectedHazardsGiveExactReads :
    (MachineInv doneState ∧ respectsHazards doneState (.dstRead 1) = true ∧ respectsHazards doneState (.dstRead 2) = false ∧
      respectsHazards doneState (.srcRead 0) = true ∧ respectsHazards doneState (.srcRead 1) = false ∧
      respectsHazards doneState (.regWrite 0 4) = true ∧ respectsHazards { doneState with srcLen := 2 } (.regWrite 0 4) = false) ∧
    (MachineInv doneInPlaceState ∧ respectsHazards doneInPlaceState (.srcRead 0) = true ∧ respectsHazards doneInPlaceState (.srcRead 1) = false) ∧
    (MachineInv checkState ∧ respectsHazards checkState (.regRead 1) = true ∧ respectsHazards checkState (.srcRead 0) = false) :=
  ⟨⟨inv_doneState, by decide⟩, ⟨inv_doneInPlaceState, by decide⟩, inv_checkState, by decide⟩

end Sys2Proof.Tests
end

section
/-! SUPPORT. One equation per case of the CHECK step and of the SCAN bodies that branch: what each answers, given what it tests; a block
at rest; the slices of DST. -/

namespace Sys2Proof.Machine

variable {op : Instr} {s : State}

/-! The CHECK step (R112). -/

theorem checkStep_of_err {f : List Byte → CodecResult} {e : ErrKind} (hc : s.srcLen ≤ s.cfg.srcCap)
    (he : f (input s) = .err e) : checkStep op f s = .next (raiseError e s) := by
  rw [checkStep, if_neg hc.not_gt, he]

theorem checkStep_of_fits {f : List Byte → CodecResult} {out : List Byte} (hc : s.srcLen ≤ s.cfg.srcCap)
    (ho : f (input s) = .ok out) (hf : fits op s.cfg s.srcLen out.length = true) :
    checkStep op f s = .next { s with l := out.length, ph := .scan } := by
  rw [checkStep, if_neg hc.not_gt, ho]
  exact if_pos hf

theorem checkStep_of_not_fits {f : List Byte → CodecResult} {out : List Byte} (hc : s.srcLen ≤ s.cfg.srcCap)
    (ho : f (input s) = .ok out) (hf : fits op s.cfg s.srcLen out.length = false) :
    checkStep op f s = .next (raiseError .overflow { s with l := out.length }) := by
  rw [checkStep, if_neg hc.not_gt, ho]
  exact if_neg (by simp [hf])

/-! The PCTDEC body (R153). -/

theorem pctdecBody_of_escape {plus : Bool} {v : Byte} (he : escapeAtIndex s = some v) :
    pctdecBody op plus s = emitOut op [v] { s with i := s.i + 3 } := by
  rw [pctdecBody, he]

theorem pctdecBody_of_literal {plus : Bool} (he : escapeAtIndex s = none) :
    pctdecBody op plus s = emitOut op [literalByte plus (srcByte s s.i)] { s with i := s.i + 1 } := by
  rw [pctdecBody, he]

/-! The RLENC bodies (R176). -/

theorem rlencBody_of_sentinel {p : Byte → Bool} (hf : s.fsm = .copy) (hp : p (srcByte s s.i) = true) :
    rlencBody op p s = emitOut op [srcByte s s.i] { s with rv := srcByte s s.i, fsm := .run } := by
  rw [rlencBody, hf]
  exact if_pos hp

theorem rlencBody_of_literal {p : Byte → Bool} (hf : s.fsm = .copy) (hp : p (srcByte s s.i) = false) :
    rlencBody op p s = emitOut op [srcByte s s.i] { s with i := s.i + 1 } := by
  rw [rlencBody, hf]
  exact (if_neg (by simp [hp])).trans (by rw [← hf])

theorem rlencBody_of_run {p : Byte → Bool} (hf : s.fsm = .run) (hr : runLength s.rv (unread s) ≠ 0) :
    rlencBody op p s = emitOut op [BitVec.ofNat 8 (runLength s.rv (unread s))]
      { s with cnt := runLength s.rv (unread s), i := s.i + runLength s.rv (unread s), fsm := .copy } := by
  rw [rlencBody, hf]
  exact if_neg hr

/-! The RLDEC bodies (R177). -/

theorem rldecBody_of_sentinel {p : Byte → Bool} (hf : s.fsm = .copy) (hp : p (srcByte s s.i) = true ∧ s.i + 1 < s.srcLen) :
    rldecBody op p s = .next { s with rv := srcByte s s.i, cnt := (srcByte s (s.i + 1)).toNat, fsm := .run } := by
  rw [rldecBody, hf]
  exact if_pos hp

theorem rldecBody_of_literal {p : Byte → Bool} (hf : s.fsm = .copy)
    (hp : ¬ (p (srcByte s s.i) = true ∧ s.i + 1 < s.srcLen)) :
    rldecBody op p s = emitOut op [srcByte s s.i] { s with i := s.i + 1 } := by
  rw [rldecBody, hf]
  exact (if_neg hp).trans (by rw [← hf])

theorem rldecBody_of_run {p : Byte → Bool} (hf : s.fsm = .run) :
    rldecBody op p s = emitOut op (List.replicate s.cnt s.rv) { s with i := s.i + 2, fsm := .copy } := by
  rw [rldecBody, hf]

/-! Rest, and the slices of DST. -/

/-- With PH = OFF and no transaction left, the block rests (R72, R219). -/
theorem step_rest (hp : s.ph = .off) (hl : s.program = []) : step s = .next s := by
  rw [step, nextAgent, hp, hl]

/-- A slice of DST depends on the bytes in it only. -/
theorem dstSlice_congr (s t : State) (k n : Nat) (h : ∀ j, k ≤ j → j < k + n → dstByte s j = dstByte t j) :
    dstSlice s k n = dstSlice t k n := by
  unfold dstSlice
  refine List.map_congr_left fun j hj => ?_
  rw [List.mem_range'_1] at hj
  exact h j hj.1 hj.2

end Sys2Proof.Machine
end

section
/-! CLAIM O59: noninterference. Two states are in the same operation when they agree on the registers, on the input and on the output emitted so far. Every
engine step reads no more than that, so it keeps the two states in the same operation. -/

namespace Sys2Proof.Machine

/-- The parameters, registers and program of a state: everything but the buffers and what the host keeps to itself. -/
def registers (s : State) : State := { s with src := [], dst := [], turns := [], readData := [], freeReads := 0 }

/-- `OUT[k]`: a byte of the buffer that the command delivers to (R93, R114). -/
def outByte (op : Instr) (s : State) (k : Nat) : Byte := if inPlace op then srcByte s k else dstByte s k

/-- The states `s` and `s'` are at the same point of an operation of `op` on the same input, with no transaction interfering. -/
structure SameOperation (op : Instr) (s s' : State) : Prop where
  /-- The command in progress. -/
  command : decode s.cmd = some op
  /-- No transaction is left. -/
  alone : s.program = []
  /-- The registers agree. -/
  registers : registers s' = registers s
  /-- The inputs agree. -/
  input : ∀ k < s.srcLen, srcByte s' k = srcByte s k
  /-- The outputs emitted so far agree. -/
  output : ∀ k < s.o, outByte op s' k = outByte op s k

theorem registers_emitBytes (op : Instr) (bs : List Byte) (s : State) :
    registers (emitBytes op bs s) = { registers s with o := (registers s).o + bs.length } := by
  unfold emitBytes; split <;> rfl

theorem registers_finish (op : Instr) (s : State) : registers (finish op s) = finish op (registers s) := by
  unfold finish; split <;> rfl

theorem outByte_emitBytes (op : Instr) (bs : List Byte) (s : State) (k : Nat) :
    outByte op (emitBytes op bs s) k =
      if s.o ≤ k ∧ k < s.o + bs.length then bs.getD (k - s.o) 0 else outByte op s k := by
  unfold outByte
  rw [srcByte_emitBytes, dstByte_emitBytes]
  cases inPlace op <;> simp

theorem outByte_finish (op : Instr) (s : State) (k : Nat) : outByte op (finish op s) k = outByte op s k := by
  rw [outByte, srcByte_congr (finish_src op s), dstByte_congr (finish_dst op s), outByte]

namespace SameOperation

variable {op : Instr} {s s' t t' : State}

/-! What two states in the same operation have in common. -/

theorem cfg_eq (h : SameOperation op s s') : s'.cfg = s.cfg := (congrArg State.cfg h.registers :)
theorem cmd_eq (h : SameOperation op s s') : s'.cmd = s.cmd := (congrArg State.cmd h.registers :)
theorem program_eq (h : SameOperation op s s') : s'.program = s.program := (congrArg State.program h.registers :)
theorem st_eq (h : SameOperation op s s') : s'.st = s.st := (congrArg State.st h.registers :)
theorem ph_eq (h : SameOperation op s s') : s'.ph = s.ph := (congrArg State.ph h.registers :)
theorem err_eq (h : SameOperation op s s') : s'.err = s.err := (congrArg State.err h.registers :)
theorem srcLen_eq (h : SameOperation op s s') : s'.srcLen = s.srcLen := (congrArg State.srcLen h.registers :)
theorem dstLen_eq (h : SameOperation op s s') : s'.dstLen = s.dstLen := (congrArg State.dstLen h.registers :)
theorem i_eq (h : SameOperation op s s') : s'.i = s.i := (congrArg State.i h.registers :)
theorem o_eq (h : SameOperation op s s') : s'.o = s.o := (congrArg State.o h.registers :)
theorem l_eq (h : SameOperation op s s') : s'.l = s.l := (congrArg State.l h.registers :)
theorem cnt_eq (h : SameOperation op s s') : s'.cnt = s.cnt := (congrArg State.cnt h.registers :)
theorem rv_eq (h : SameOperation op s s') : s'.rv = s.rv := (congrArg State.rv h.registers :)
theorem fsm_eq (h : SameOperation op s s') : s'.fsm = s.fsm := (congrArg State.fsm h.registers :)

theorem input_eq (h : SameOperation op s s') : Machine.input s' = Machine.input s := by
  unfold Machine.input
  rw [h.srcLen_eq]
  exact srcSlice_congr _ _ _ _ fun k _ hk => h.input k (by omega)

theorem unread_eq (h : SameOperation op s s') : unread s' = unread s := by
  unfold unread
  rw [h.srcLen_eq, h.i_eq]
  exact srcSlice_congr _ _ _ _ fun k _ hk => h.input k (by omega)

theorem currentByte_eq (h : SameOperation op s s') (hi : s.i < s.srcLen) : srcByte s' s'.i = srcByte s s.i := by
  rw [h.i_eq]; exact h.input _ hi

theorem nextByte_eq (h : SameOperation op s s') (hi : s.i + 1 < s.srcLen) :
    srcByte s' (s'.i + 1) = srcByte s (s.i + 1) := by
  rw [h.i_eq]; exact h.input _ hi

theorem escapeAtIndex_eq (h : SameOperation op s s') : escapeAtIndex s' = escapeAtIndex s := by
  unfold escapeAtIndex
  rw [h.srcLen_eq, h.i_eq]
  split
  · next hi => rw [h.input _ (by omega), h.input _ (by omega), h.input _ hi]
  · rfl

theorem runLength_eq (h : SameOperation op s s') : runLength s'.rv (unread s') = runLength s.rv (unread s) := by
  rw [h.rv_eq, h.unread_eq]

/-! The state updates of the engine keep two states in the same operation. -/

theorem setLength (h : SameOperation op s s') (n : Nat) : SameOperation op { s with l := n } { s' with l := n } :=
  ⟨h.command, h.alone, congrArg (fun u => { u with l := n }) h.registers, h.input, h.output⟩

theorem setPhase (h : SameOperation op s s') (p : Phase) : SameOperation op { s with ph := p } { s' with ph := p } :=
  ⟨h.command, h.alone, congrArg (fun u => { u with ph := p }) h.registers, h.input, h.output⟩

theorem raiseError (h : SameOperation op s s') (e : ErrKind) :
    SameOperation op (Machine.raiseError e s) (Machine.raiseError e s') :=
  ⟨h.command, h.alone, congrArg (Machine.raiseError e) h.registers, h.input, h.output⟩

/-- New working registers, each computed from its old value (R125). -/
theorem working (h : SameOperation op s s') (i cnt : Nat → Nat) (rv : Byte → Byte) (fsm : RunState → RunState) :
    SameOperation op { s with i := i s.i, cnt := cnt s.cnt, rv := rv s.rv, fsm := fsm s.fsm }
      { s' with i := i s'.i, cnt := cnt s'.cnt, rv := rv s'.rv, fsm := fsm s'.fsm } :=
  ⟨h.command, h.alone,
    congrArg (fun u : State => { u with i := i u.i, cnt := cnt u.cnt, rv := rv u.rv, fsm := fsm u.fsm }) h.registers,
    h.input, h.output⟩

/-- The same bytes stored at the same place, even over the input (R156), leave input and output in agreement. -/
theorem emitBytes (h : SameOperation op s s') (bs : List Byte) :
    SameOperation op (Machine.emitBytes op bs s) (Machine.emitBytes op bs s') where
  command := by rw [emitBytes_cmd]; exact h.command
  alone := by rw [emitBytes_program]; exact h.alone
  registers := by rw [registers_emitBytes, registers_emitBytes, h.registers]
  input k hk := by
    rw [emitBytes_srcLen] at hk
    rw [srcByte_emitBytes, srcByte_emitBytes, h.o_eq, h.input k hk]
  output k hk := by
    rw [emitBytes_o] at hk
    rw [outByte_emitBytes, outByte_emitBytes, h.o_eq]
    split
    · rfl
    · exact h.output k (by omega)

theorem emitOut {bs bs' : List Byte} (h : SameOperation op s s') (hb : bs' = bs) (ht : emitOut op bs s = .next t)
    (ht' : Machine.emitOut op bs' s' = .next t') : SameOperation op t t' := by
  rw [(emitOut_next.1 ht).2, (emitOut_next.1 ht').2, hb]
  exact h.emitBytes bs

/-- The finish of an in-place command makes the output the input (R115), so both agreements are needed. -/
theorem finish (h : SameOperation op s s') : SameOperation op (Machine.finish op s) (Machine.finish op s') where
  command := by rw [finish_cmd]; exact h.command
  alone := by rw [finish_program]; exact h.alone
  registers := by rw [registers_finish, registers_finish, h.registers]
  input k hk := by
    rw [srcByte_congr (finish_src op s'), srcByte_congr (finish_src op s)]
    rw [finish_srcLen] at hk
    split at hk
    · next hp => simpa [outByte, hp] using h.output k hk
    · exact h.input k hk
  output k hk := by
    rw [finish_o] at hk
    rw [outByte_finish, outByte_finish]
    exact h.output k hk

/-! The engine's steps. -/

theorem checkStep {f : List Byte → CodecResult} (h : SameOperation op s s') (ht : checkStep op f s = .next t)
    (ht' : Machine.checkStep op f s' = .next t') : SameOperation op t t' := by
  obtain ⟨hc, outcome⟩ := checkStep_next ht
  have hc' : s'.srcLen ≤ s'.cfg.srcCap := by rw [h.srcLen_eq, h.cfg_eq]; exact hc
  have fits_eq (n : Nat) : fits op s'.cfg s'.srcLen n = fits op s.cfg s.srcLen n := by rw [h.cfg_eq, h.srcLen_eq]
  obtain ⟨e, he, rfl⟩ | ⟨out, ho, hf, rfl⟩ | ⟨out, ho, hf, rfl⟩ := outcome
  · rw [checkStep_of_err hc' (h.input_eq ▸ he), next_inj] at ht'
    exact ht' ▸ h.raiseError e
  · rw [checkStep_of_fits hc' (h.input_eq ▸ ho) ((fits_eq _).trans hf), next_inj] at ht'
    exact ht' ▸ (h.setLength out.length).setPhase .scan
  · rw [checkStep_of_not_fits hc' (h.input_eq ▸ ho) ((fits_eq _).trans hf), next_inj] at ht'
    exact ht' ▸ (h.setLength out.length).raiseError .overflow

theorem hexdecBody (h : SameOperation .hexdec s s') (ht : hexdecBody s = .next t)
    (ht' : Machine.hexdecBody s' = .next t') : SameOperation .hexdec t t' := by
  obtain ⟨b, hi, hb, he⟩ := hexdecBody_next ht
  obtain ⟨b', -, hb', he'⟩ := hexdecBody_next ht'
  rw [h.currentByte_eq (by omega), h.nextByte_eq hi, hb, Option.some.injEq] at hb'
  exact (h.working (· + 2) id id id).emitOut (by rw [hb']) he he'

theorem pctdecBody {plus : Bool} (h : SameOperation op s s') (hi : s.i < s.srcLen) (ht : pctdecBody op plus s = .next t)
    (ht' : Machine.pctdecBody op plus s' = .next t') : SameOperation op t t' := by
  cases he : escapeAtIndex s with
  | some v =>
    rw [pctdecBody_of_escape he] at ht
    rw [pctdecBody_of_escape (h.escapeAtIndex_eq.trans he)] at ht'
    exact (h.working (· + 3) id id id).emitOut rfl ht ht'
  | none =>
    rw [pctdecBody_of_literal he] at ht
    rw [pctdecBody_of_literal (h.escapeAtIndex_eq.trans he)] at ht'
    exact (h.working (· + 1) id id id).emitOut (by rw [h.currentByte_eq hi]) ht ht'

theorem rlencBody {p : Byte → Bool} (h : SameOperation op s s') (hi : s.i < s.srcLen) (ht : rlencBody op p s = .next t)
    (ht' : Machine.rlencBody op p s' = .next t') : SameOperation op t t' := by
  have hb := h.currentByte_eq hi
  obtain ⟨hf, hp, he⟩ | ⟨hf, hp, he⟩ | ⟨hf, hr, he⟩ := rlencBody_next ht
  · rw [rlencBody_of_sentinel (h.fsm_eq.trans hf) (hb ▸ hp), hb] at ht'
    exact (h.working id id (fun _ => srcByte s s.i) fun _ => .run).emitOut rfl he ht'
  · rw [rlencBody_of_literal (h.fsm_eq.trans hf) (hb ▸ hp), hb] at ht'
    exact (h.working (· + 1) id id id).emitOut rfl he ht'
  · rw [rlencBody_of_run (h.fsm_eq.trans hf) (h.runLength_eq ▸ hr), h.runLength_eq] at ht'
    exact (h.working (· + runLength s.rv (unread s)) (fun _ => runLength s.rv (unread s)) id fun _ => .copy).emitOut rfl he ht'

theorem rldecBody {p : Byte → Bool} (h : SameOperation op s s') (hi : s.i < s.srcLen) (ht : rldecBody op p s = .next t)
    (ht' : Machine.rldecBody op p s' = .next t') : SameOperation op t t' := by
  have hb := h.currentByte_eq hi
  have sentinel_iff : (p (srcByte s' s'.i) = true ∧ s'.i + 1 < s'.srcLen) ↔ (p (srcByte s s.i) = true ∧ s.i + 1 < s.srcLen) := by
    rw [hb, h.i_eq, h.srcLen_eq]
  obtain ⟨hf, hp, rfl⟩ | ⟨hf, hp, he⟩ | ⟨hf, he⟩ := rldecBody_next ht
  · rw [rldecBody_of_sentinel (h.fsm_eq.trans hf) (sentinel_iff.2 hp), next_inj, hb, h.nextByte_eq hp.2] at ht'
    exact ht' ▸ h.working id (fun _ => (srcByte s (s.i + 1)).toNat) (fun _ => srcByte s s.i) fun _ => .run
  · rw [rldecBody_of_literal (h.fsm_eq.trans hf) (sentinel_iff.not.2 hp)] at ht'
    exact (h.working (· + 1) id id id).emitOut (by rw [hb]) he ht'
  · rw [rldecBody_of_run (h.fsm_eq.trans hf)] at ht'
    exact (h.working (· + 2) id id fun _ => .copy).emitOut (by rw [h.cnt_eq, h.rv_eq]) he ht'

/-- A SCAN body reads the working registers and the input at and after I, below SRC_LEN, and nothing else. -/
theorem scanBody (h : SameOperation op s s') (hi : s.i < s.srcLen) (ht : scanBody op s = .next t)
    (ht' : Machine.scanBody op s' = .next t') : SameOperation op t t' := by
  cases op with
  | hexenc | hexencSw | pctenc =>
    exact (h.working (· + 1) id id id).emitOut (by rw [h.currentByte_eq hi]) ht ht'
  | hexdec => exact h.hexdecBody ht ht'
  | pctdec | pctdecP | pctdecIp | pctdecIpP => exact h.pctdecBody hi ht ht'
  | rlencZ | rlencZf => exact h.rlencBody hi ht ht'
  | rldecZ | rldecZf => exact h.rldecBody hi ht ht'

theorem scanStep (h : SameOperation op s s') (ht : scanStep op (Machine.scanBody op) s = .next t)
    (ht' : Machine.scanStep op (Machine.scanBody op) s' = .next t') : SameOperation op t t' := by
  have outcome' := scanStep_next ht'
  rw [h.srcLen_eq, h.i_eq] at outcome'
  obtain ⟨hi, rfl⟩ | ⟨hi, -, hb⟩ := scanStep_next ht
  · obtain ⟨-, rfl⟩ | ⟨hi', -⟩ := outcome'
    · exact h.finish
    · omega
  · obtain ⟨hi', -⟩ | ⟨-, -, hb'⟩ := outcome'
    · omega
    · exact h.scanBody hi hb hb'

theorem exec (h : SameOperation op s s') (ht : exec op s = .next t) (ht' : Machine.exec op s' = .next t') :
    SameOperation op t t' := by
  rw [exec_eq] at ht ht'
  cases hp : s.ph with
  | off =>
    rw [engineStep_off hp, next_inj] at ht
    rw [engineStep_off (h.ph_eq.trans hp), next_inj] at ht'
    exact ht ▸ ht' ▸ h
  | check =>
    rw [engineStep_check hp] at ht
    rw [engineStep_check (h.ph_eq.trans hp)] at ht'
    exact h.checkStep ht ht'
  | scan =>
    rw [engineStep_scan hp] at ht
    rw [engineStep_scan (h.ph_eq.trans hp)] at ht'
    exact h.scanStep ht ht'

theorem step (h : SameOperation op s s') (ht : step s = .next t) (ht' : Machine.step s' = .next t') :
    SameOperation op t t' := by
  have hl' : s'.program = [] := h.program_eq.trans h.alone
  by_cases hp : s.ph = .off
  · rw [step_rest hp h.alone, next_inj] at ht
    rw [step_rest (h.ph_eq.trans hp) hl', next_inj] at ht'
    exact ht ▸ ht' ▸ h
  · rw [step_exec hp h.alone h.command] at ht
    rw [step_exec (h.ph_eq ▸ hp) hl' (h.cmd_eq ▸ h.command)] at ht'
    exact h.exec ht ht'

theorem runSteps {k : Nat} (h : SameOperation op s s') (ht : runSteps k s = .next t)
    (ht' : Machine.runSteps k s' = .next t') : SameOperation op t t' := by
  induction k generalizing s s' with
  | zero => exact next_inj.1 ht ▸ next_inj.1 ht' ▸ h
  | succ k ih =>
    obtain ⟨u, hu, hr⟩ := runSteps_succ_next ht
    obtain ⟨u', hu', hr'⟩ := runSteps_succ_next ht'
    exact ih (h.step hu hu') hr hr'

end SameOperation

/-- Two states as an issue leaves them, with the same command and input, begin the same operation. -/
theorem sameOperation_of_fresh {op : Instr} {s s' : State} (hr : CheckReady s) (hr' : CheckReady s')
    (hn : FreshOperation s) (hn' : FreshOperation s') (hl : s.program = []) (hl' : s'.program = [])
    (hd : decode s.cmd = some op) (hcmd : s'.cmd = s.cmd) (hcfg : s'.cfg = s.cfg) (hst : s'.st = s.st)
    (herr : s'.err = s.err) (hdst : s'.dstLen = s.dstLen) (hin : input s' = input s) : SameOperation op s s' := by
  obtain ⟨⟨hi, ho, hL, hcnt⟩, hrv, hfsm⟩ := hn
  obtain ⟨⟨hi', ho', hL', hcnt'⟩, hrv', hfsm'⟩ := hn'
  have hlen : s'.srcLen = s.srcLen := by simpa using congrArg List.length hin
  refine ⟨hd, hl, ?_, fun k hk => ?_, fun k hk => by omega⟩
  · simp only [registers, hcfg, hlen, hdst, hcmd, hst, herr, hr.1, hr'.1, hi, hi', ho, ho', hL, hL', hcnt, hcnt',
      hrv, hrv', hfsm, hfsm', hl, hl']
  · have hbyte := congrArg (·[k]?) hin
    simpa only [input, hlen, getElem?_srcSlice _ _ _ _ hk, Nat.zero_add, Option.some.injEq] using hbyte

/-- Settles O59: the two runs stay in the same operation, step by step, and that is what the statement compares. -/
theorem resultDependsOnCommandAndInputOnly : Obligations.ResultDependsOnCommandAndInputOnly := by
  unfold Obligations.ResultDependsOnCommandAndInputOnly
  intro s s' t t' op k hr hr' hn hn' hl hl' hd hcmd hcfg hst herr hdst hin ht ht'
  have h : SameOperation op t t' :=
    (sameOperation_of_fresh hr hr' hn hn' hl hl' hd hcmd hcfg hst herr hdst hin).runSteps ht ht'
  refine ⟨h.st_eq, h.ph_eq, h.err_eq, h.srcLen_eq, h.dstLen_eq, h.i_eq, h.o_eq, h.l_eq, h.cnt_eq, h.rv_eq, h.fsm_eq, ?_, ?_⟩
  · exact fun hp => dstSlice_congr _ _ _ _ fun j _ hj => by simpa [outByte, hp] using h.output j (by omega)
  · exact fun hp => srcSlice_congr _ _ _ _ fun j _ hj => by simpa [outByte, hp] using h.output j (by omega)

end Sys2Proof.Machine
end

section
/-! SUPPORT. What each command's function does at the front of the unread input: the part that one SCAN body emits, and the function of what the body
leaves unread (R140 to R142, R150, R153, R170, R171). -/

namespace Sys2Proof.Machine

variable {s : State}

/-! The unread input as I advances. -/

theorem unread_advance (n cnt : Nat) (rv : Byte) (fsm : RunState) :
    unread { s with i := s.i + n, cnt := cnt, rv := rv, fsm := fsm } = (unread s).drop n := by
  rw [unread, unread, drop_srcSlice, Nat.sub_sub]
  rfl

theorem unread_eq_cons_drop (h : s.i < s.srcLen) : unread s = srcByte s s.i :: (unread s).drop 1 := by
  rw [unread_eq_cons s h, List.drop_one, List.tail_cons]

theorem unread_eq_cons_cons_drop (h : s.i + 1 < s.srcLen) :
    unread s = srcByte s s.i :: srcByte s (s.i + 1) :: (unread s).drop 2 := by
  have tail_eq : (unread s).drop 1 = srcByte s (s.i + 1) :: (unread s).drop 2 := by
    rw [← unread_advance 1 s.cnt s.rv s.fsm, unread_eq_cons_drop (by exact h), unread_advance, List.drop_drop]
    rfl
  rw [unread_eq_cons_drop (by omega), tail_eq]
  rfl

theorem unread_eq_cons_cons_cons_drop (h : s.i + 2 < s.srcLen) :
    unread s = srcByte s s.i :: srcByte s (s.i + 1) :: srcByte s (s.i + 2) :: (unread s).drop 3 := by
  have tail_eq : (unread s).drop 2 = srcByte s (s.i + 2) :: (unread s).drop 3 := by
    rw [← unread_advance 2 s.cnt s.rv s.fsm, unread_eq_cons_drop (by exact h), unread_advance, List.drop_drop]
    rfl
  rw [unread_eq_cons_cons_drop (by omega), tail_eq]
  rfl

/-! HEXDEC (R142). -/

theorem fHexdec_eq_ok_iff (bs out : List Byte) :
    fHexdec bs = .ok out ↔ bs.length % 2 = 0 ∧ hexPairs bs = some out := by
  unfold fHexdec
  split
  · next odd => simp [odd]
  · next even =>
    have : bs.length % 2 = 0 := by omega
    cases hexPairs bs <;> simp [this]

theorem hexPairs_cons_cons_eq_some {h l : Byte} {bs out : List Byte} (ho : hexPairs (h :: l :: bs) = some out) :
    ∃ b rest, hexPair h l = some b ∧ hexPairs bs = some rest ∧ out = b :: rest := by
  rw [hexPairs] at ho
  split at ho
  · next b rest hb hr => exact ⟨b, rest, hb, hr, (Option.some.inj ho).symm⟩
  · cases ho

/-! PCTDEC (R153). -/

theorem urldec_of_escape {plus : Bool} {v : Byte} (he : escapeAtIndex s = some v) :
    s.i + 2 < s.srcLen ∧ urldec plus (unread s) = v :: urldec plus ((unread s).drop 3) := by
  unfold escapeAtIndex at he
  split at he
  · next hi =>
    refine ⟨hi, ?_⟩
    conv_lhs => rw [unread_eq_cons_cons_cons_drop hi, urldec, he]
  · cases he

theorem urldec_of_literal {plus : Bool} (hi : s.i < s.srcLen) (he : escapeAtIndex s = none) :
    urldec plus (unread s) = literalByte plus (srcByte s s.i) :: urldec plus ((unread s).drop 1) := by
  unfold escapeAtIndex at he
  split at he
  · next h2 =>
    rw [unread_eq_cons_cons_cons_drop h2, urldec, he]
    rfl
  · next h2 =>
    have few : ((unread s).drop 1).length ≤ 1 := by simp; omega
    rw [unread_eq_cons_drop hi]
    match (unread s).drop 1, few with
    | [], _ => rfl
    | [_], _ => rfl

theorem length_urldec_le (plus : Bool) (bs : List Byte) : (urldec plus bs).length ≤ bs.length := by
  induction bs using urldec.induct with
  | case1 => simp [urldec]
  | case2 => simp [urldec]
  | case3 => simp [urldec]
  | case4 b h l rest v he ih => simp only [urldec, he, List.length_cons]; omega
  | case5 b h l rest he ih => simp only [urldec, he, List.length_cons] at ih ⊢; omega

/-! RLENC (R170, R176). -/

theorem runLength_le_length (v : Byte) (bs : List Byte) : runLength v bs ≤ bs.length :=
  (List.takeWhile_sublist _).length_le.trans (List.length_take_le' _ _)

theorem runLength_le_runMax (v : Byte) (bs : List Byte) : runLength v bs ≤ Config.runMax :=
  (List.takeWhile_sublist _).length_le.trans (List.length_take_le _ _)

theorem runLength_cons_self_pos (v : Byte) (bs : List Byte) : 0 < runLength v (v :: bs) := by
  simp [runLength, Config.runMax]

theorem rlencFrom_eq_drop (p : Byte → Bool) (skip : Nat) (bs : List Byte) :
    rlencFrom p skip bs = rlenc p (bs.drop skip) := by
  induction bs generalizing skip with
  | nil => cases skip <;> rfl
  | cons b bs ih =>
    cases skip with
    | zero => rfl
    | succ skip => exact ih skip

theorem rlenc_cons_of_literal {p : Byte → Bool} {b : Byte} (hp : p b = false) (bs : List Byte) :
    rlenc p (b :: bs) = b :: rlenc p bs := by
  simp [rlenc, rlencFrom, hp]

theorem rlenc_cons_of_sentinel {p : Byte → Bool} {b : Byte} (hp : p b = true) (bs : List Byte) :
    rlenc p (b :: bs) =
      b :: BitVec.ofNat 8 (runLength b (b :: bs)) :: rlenc p ((b :: bs).drop (runLength b (b :: bs))) := by
  obtain ⟨n, hn⟩ := Nat.exists_eq_add_one_of_ne_zero (runLength_cons_self_pos b bs).ne'
  rw [rlenc, rlencFrom, if_pos hp, rlencFrom_eq_drop, hn]
  rfl

/-! RLDEC (R171, R177). -/

theorem rldec_cons_cons_of_sentinel {p : Byte → Bool} {b : Byte} (hp : p b = true) (c : Byte) (bs : List Byte) :
    rldec p (b :: c :: bs) = List.replicate c.toNat b ++ rldec p bs := by
  rw [rldec, if_pos hp]

/-- A byte that is no sentinel, or that no count follows, is a literal. -/
theorem rldec_cons_of_literal {p : Byte → Bool} {b : Byte} {bs : List Byte} (h : p b = false ∨ bs = []) :
    rldec p (b :: bs) = b :: rldec p bs := by
  cases bs with
  | nil => rfl
  | cons c bs => simp_all [rldec]

end Sys2Proof.Machine
end

section
/-! SUPPORT. What remains to be emitted (the SCAN half of R130), case by case, and one SCAN body's share of it: from a state in which `out` remains, the body of every
command emits the front of `out` and leaves the rest. -/

namespace Sys2Proof.Machine

variable {op : Instr} {s : State} {out : List Byte}

/-! `remainingOutput`, by the state of FSM. -/

theorem plainRemaining_eq_some_iff {f : List Byte → CodecResult} :
    plainRemaining f s = some out ↔ s.fsm = .copy ∧ f (unread s) = .ok out := by
  unfold plainRemaining
  cases s.fsm <;> cases f (unread s) <;> simp

theorem rlencRemaining_of_copy (p : Byte → Bool) (hf : s.fsm = .copy) :
    rlencRemaining p s = some (rlenc p (unread s)) := by
  rw [rlencRemaining, hf]

theorem rlencRemaining_of_run_eq_some_iff {p : Byte → Bool} (hf : s.fsm = .run) :
    rlencRemaining p s = some out ↔
      ((unread s).head? = some s.rv ∧ p s.rv = true) ∧ (rlenc p (unread s)).tail = out := by
  simp [rlencRemaining, hf]

theorem rldecRemaining_of_copy (p : Byte → Bool) (hf : s.fsm = .copy) :
    rldecRemaining p s = some (rldec p (unread s)) := by
  rw [rldecRemaining, hf]

theorem rldecRemaining_of_run_eq_some_iff {p : Byte → Bool} (hf : s.fsm = .run) :
    rldecRemaining p s = some out ↔
      ((unread s).take 2 = [s.rv, BitVec.ofNat 8 s.cnt] ∧ p s.rv = true) ∧ rldec p (unread s) = out := by
  simp [rldecRemaining, hf]

/-- What remains is a function of the unread input, FSM, RV and CNT. -/
theorem remainingOutput_congr {t : State} (op : Instr) (hu : unread t = unread s) (hf : t.fsm = s.fsm)
    (hr : t.rv = s.rv) (hc : t.cnt = s.cnt) : remainingOutput op t = remainingOutput op s := by
  cases op <;> simp [remainingOutput, plainRemaining, rlencRemaining, rldecRemaining, hu, hf, hr, hc]

/-- Before the first SCAN body the whole result remains (R112). -/
theorem remainingOutput_of_start (hf : s.fsm = .copy) (hi : s.i = 0) (ho : commandFunction op (input s) = .ok out) :
    remainingOutput op s = some out := by
  rw [← unread_zero s hi] at ho
  cases op with
  | rlencZ | rlencZf => exact (rlencRemaining_of_copy _ hf).trans (congrArg some (CodecResult.ok.inj ho))
  | rldecZ | rldecZf => exact (rldecRemaining_of_copy _ hf).trans (congrArg some (CodecResult.ok.inj ho))
  | hexenc | hexencSw | hexdec | pctenc | pctdec | pctdecP | pctdecIp | pctdecIpP =>
    exact plainRemaining_eq_some_iff.2 ⟨hf, ho⟩

/-- Once the input is read, nothing remains, and no run is open (R114). -/
theorem remainingOutput_at_end (hu : unread s = []) (hr : remainingOutput op s = some out) : s.fsm = .copy ∧ out = [] := by
  cases op with
  | rlencZ | rlencZf =>
    cases hf : s.fsm with
    | copy => simpa [hu, rlenc, rlencFrom, eq_comm] using (rlencRemaining_of_copy _ hf).symm.trans hr
    | run => simpa [hu] using (rlencRemaining_of_run_eq_some_iff hf).1 hr
  | rldecZ | rldecZf =>
    cases hf : s.fsm with
    | copy => simpa [hu, rldec, eq_comm] using (rldecRemaining_of_copy _ hf).symm.trans hr
    | run => simpa [hu] using (rldecRemaining_of_run_eq_some_iff hf).1 hr
  | hexenc | hexencSw | hexdec | pctenc | pctdec | pctdecP | pctdecIp | pctdecIpP =>
    obtain ⟨hf, ho⟩ := plainRemaining_eq_some_iff.1 hr
    rw [hu] at ho
    exact ⟨hf, (CodecResult.ok.inj ho).symm⟩

/-! One SCAN body. -/

/-- The SCAN body `body` of `op` in state `s`, from which on `out` remains: with the new working registers of `u` it emits `bs`, the front of `out`, and
`rest` remains. In place it emits no further than it has read (R156). -/
structure EmitsFront (op : Instr) (body : State → Result State) (remaining : State → Option (List Byte)) (s : State)
    (out bs rest : List Byte) (u : State) : Prop where
  /-- The body ends in an emission. -/
  emits : body s = emitOut op bs u
  /-- Only I, CNT, RV and FSM are new. -/
  frame : ∃ i cnt rv fsm, u = { s with i := i, cnt := cnt, rv := rv, fsm := fsm }
  /-- The output is split in two. -/
  split : out = bs ++ rest
  /-- The second part remains. -/
  remains : remaining u = some rest
  /-- I stays inside the input. -/
  index : u.i ≤ s.srcLen
  /-- CNT stays a byte. -/
  count : u.cnt ≤ 255
  /-- In place, O does not overtake I. -/
  behind : inPlace op = true → s.i + bs.length ≤ u.i

/-- A body without run state that goes on by `n` positions. -/
theorem emitsFront_plain {f : List Byte → CodecResult} {body : State → Result State} {bs rest : List Byte} (n : Nat)
    (hb : body s = emitOut op bs { s with i := s.i + n }) (hf : s.fsm = .copy) (hs : out = bs ++ rest)
    (hr : f ((unread s).drop n) = .ok rest) (hn : s.i + n ≤ s.srcLen) (hc : s.cnt ≤ 255)
    (hp : inPlace op = true → bs.length ≤ n) :
    EmitsFront op body (plainRemaining f) s out bs rest { s with i := s.i + n } where
  emits := hb
  frame := ⟨_, _, _, _, rfl⟩
  split := hs
  remains := plainRemaining_eq_some_iff.2 ⟨hf, (congrArg f (unread_advance n s.cnt s.rv s.fsm)).trans hr⟩
  index := hn
  count := hc
  behind hp' := Nat.add_le_add_left (hp hp') _

/-- The body of a command that maps byte by byte: HEXENC, HEXENC.SW, PCTENC. -/
theorem emitsFront_flatMap {g : Byte → List Byte} {body : State → Result State} (hp : inPlace op = false)
    (hb : body s = emitOut op (g (srcByte s s.i)) { s with i := s.i + 1 }) (hi : s.i < s.srcLen) (hc : s.cnt ≤ 255)
    (hr : plainRemaining (fun bs => .ok (bs.flatMap g)) s = some out) :
    ∃ bs rest u, EmitsFront op body (plainRemaining fun bs => .ok (bs.flatMap g)) s out bs rest u := by
  obtain ⟨hf, ho⟩ := plainRemaining_eq_some_iff.1 hr
  rw [unread_eq_cons_drop hi, List.flatMap_cons] at ho
  exact ⟨_, _, _, emitsFront_plain 1 hb hf (CodecResult.ok.inj ho).symm rfl hi hc (by simp [hp])⟩

theorem emitsFront_hexdec (hi : s.i < s.srcLen) (hc : s.cnt ≤ 255) (hr : plainRemaining fHexdec s = some out) :
    ∃ bs rest u, EmitsFront .hexdec hexdecBody (plainRemaining fHexdec) s out bs rest u := by
  obtain ⟨hf, ho⟩ := plainRemaining_eq_some_iff.1 hr
  obtain ⟨even, hx⟩ := (fHexdec_eq_ok_iff _ _).1 ho
  rw [length_unread] at even
  have hi1 : s.i + 1 < s.srcLen := by omega
  rw [unread_eq_cons_cons_drop hi1] at hx
  obtain ⟨b, rest, hb, hx', rfl⟩ := hexPairs_cons_cons_eq_some hx
  have body_eq : hexdecBody s = emitOut .hexdec [b] { s with i := s.i + 2 } := by
    rw [hexdecBody, if_pos hi1, hb]
  refine ⟨_, _, _, emitsFront_plain 2 body_eq hf rfl ((fHexdec_eq_ok_iff _ _).2 ⟨?_, hx'⟩) hi1 hc (by simp [inPlace])⟩
  rw [List.length_drop, length_unread]
  omega

theorem emitsFront_pctdec {plus : Bool} (hi : s.i < s.srcLen) (hc : s.cnt ≤ 255)
    (hr : plainRemaining (fun bs => .ok (urldec plus bs)) s = some out) :
    ∃ bs rest u, EmitsFront op (pctdecBody op plus) (plainRemaining fun bs => .ok (urldec plus bs)) s out bs rest u := by
  obtain ⟨hf, ho⟩ := plainRemaining_eq_some_iff.1 hr
  have out_eq := (CodecResult.ok.inj ho).symm
  cases he : escapeAtIndex s with
  | some v =>
    obtain ⟨hi2, hu⟩ := urldec_of_escape (plus := plus) he
    exact ⟨_, _, _, emitsFront_plain 3 (pctdecBody_of_escape he) hf (out_eq.trans hu) rfl hi2 hc (by simp)⟩
  | none =>
    exact ⟨_, _, _, emitsFront_plain 1 (pctdecBody_of_literal he) hf (out_eq.trans (urldec_of_literal hi he)) rfl hi hc
      (by simp)⟩

theorem emitsFront_rlenc {p : Byte → Bool} (hp : inPlace op = false) (hi : s.i < s.srcLen) (hc : s.cnt ≤ 255)
    (hr : rlencRemaining p s = some out) :
    ∃ bs rest u, EmitsFront op (rlencBody op p) (rlencRemaining p) s out bs rest u := by
  have not_inPlace {n m : Nat} : inPlace op = true → n ≤ m := by simp [hp]
  cases hf : s.fsm with
  | copy =>
    rw [rlencRemaining_of_copy p hf, Option.some.injEq] at hr
    have hu := unread_eq_cons_drop hi
    cases hb : p (srcByte s s.i) with
    | false =>
      refine ⟨_, _, _, rlencBody_of_literal hf hb, ⟨_, _, _, _, rfl⟩, ?_, rlencRemaining_of_copy p hf, hi, hc, not_inPlace⟩
      rw [unread_advance 1 s.cnt s.rv s.fsm, ← hr, hu, rlenc_cons_of_literal hb]
      rfl
    | true =>
      refine ⟨_, (rlenc p (unread s)).tail, _, rlencBody_of_sentinel hf hb, ⟨_, _, _, _, rfl⟩, ?_,
        (rlencRemaining_of_run_eq_some_iff rfl).2 ⟨⟨?_, hb⟩, rfl⟩, hi.le, hc, not_inPlace⟩
      · rw [← hr, hu, rlenc_cons_of_sentinel hb]
        rfl
      · exact (congrArg List.head? hu).trans rfl
  | run =>
    obtain ⟨⟨hh, hb⟩, ho⟩ := (rlencRemaining_of_run_eq_some_iff hf).1 hr
    obtain ⟨bs, hu⟩ := List.head?_eq_some_iff.1 hh
    have counted : runLength s.rv (unread s) ≠ 0 := by rw [hu]; exact (runLength_cons_self_pos _ _).ne'
    have inside := runLength_le_length s.rv (unread s)
    have small := runLength_le_runMax s.rv (unread s)
    rw [length_unread] at inside
    refine ⟨_, _, _, rlencBody_of_run hf counted, ⟨_, _, _, _, rfl⟩, ?_, rlencRemaining_of_copy p rfl,
      (by show s.i + _ ≤ _; omega), small.trans (by decide), not_inPlace⟩
    rw [unread_advance, ← ho]
    conv_lhs => rw [hu, rlenc_cons_of_sentinel hb, ← hu]
    rfl

theorem emitOut_nil (h : s.o ≤ outCap op s.cfg) : emitOut op [] s = .next s :=
  emitOut_next.2 ⟨h, by simp [emitBytes]⟩

/-- A sentinel that a count follows opens a run and emits nothing, so O has to be inside OUT for the body to be an emission. -/
theorem emitsFront_rldec {p : Byte → Bool} (hp : inPlace op = false) (hi : s.i < s.srcLen) (hc : s.cnt ≤ 255)
    (hroom : s.o ≤ outCap op s.cfg) (hr : rldecRemaining p s = some out) :
    ∃ bs rest u, EmitsFront op (rldecBody op p) (rldecRemaining p) s out bs rest u := by
  have not_inPlace {n m : Nat} : inPlace op = true → n ≤ m := by simp [hp]
  cases hf : s.fsm with
  | copy =>
    rw [rldecRemaining_of_copy p hf, Option.some.injEq] at hr
    by_cases hb : p (srcByte s s.i) = true ∧ s.i + 1 < s.srcLen
    · have hu := unread_eq_cons_cons_drop hb.2
      refine ⟨[], out, _, (rldecBody_of_sentinel hf hb).trans (emitOut_nil (by exact hroom)).symm,
        ⟨_, _, _, _, rfl⟩, rfl, (rldecRemaining_of_run_eq_some_iff rfl).2 ⟨⟨?_, hb.1⟩, hr⟩, hi.le, ?_, not_inPlace⟩
      · refine (congrArg (List.take 2) hu).trans ?_
        simp
      · exact Nat.le_of_lt_succ (srcByte s (s.i + 1)).isLt
    · refine ⟨_, _, _, rldecBody_of_literal hf hb, ⟨_, _, _, _, rfl⟩, ?_, rldecRemaining_of_copy p hf, hi, hc, not_inPlace⟩
      have literal : p (srcByte s s.i) = false ∨ (unread s).drop 1 = [] := by
        simp only [not_and_or, Bool.not_eq_true] at hb
        refine hb.imp_right fun last => List.eq_nil_of_length_eq_zero ?_
        simp; omega
      rw [unread_advance 1 s.cnt s.rv s.fsm, ← hr, unread_eq_cons_drop hi, rldec_cons_of_literal literal]
      rfl
  | run =>
    obtain ⟨⟨hh, hb⟩, ho⟩ := (rldecRemaining_of_run_eq_some_iff hf).1 hr
    have hu : unread s = s.rv :: BitVec.ofNat 8 s.cnt :: (unread s).drop 2 := by
      conv_lhs => rw [← List.take_append_drop 2 (unread s), hh]
      rfl
    have hlen : s.i + 2 ≤ s.srcLen := by
      have := congrArg List.length hu
      simp at this
      omega
    have count_eq : (BitVec.ofNat 8 s.cnt).toNat = s.cnt := by simp; omega
    refine ⟨_, _, _, rldecBody_of_run hf, ⟨_, _, _, _, rfl⟩, ?_, rldecRemaining_of_copy p rfl, hlen, hc, not_inPlace⟩
    rw [unread_advance, ← ho]
    conv_lhs => rw [hu, rldec_cons_cons_of_sentinel hb, count_eq]

/-- Every SCAN body emits the front of what remains (R125, R130). -/
theorem scanBody_emitsFront (hi : s.i < s.srcLen) (hc : s.cnt ≤ 255) (hroom : s.o ≤ outCap op s.cfg)
    (hr : remainingOutput op s = some out) :
    ∃ bs rest u, EmitsFront op (scanBody op) (remainingOutput op) s out bs rest u := by
  cases op with
  | hexenc | hexencSw | pctenc => exact emitsFront_flatMap rfl rfl hi hc hr
  | hexdec => exact emitsFront_hexdec hi hc hr
  | pctdec | pctdecP | pctdecIp | pctdecIpP => exact emitsFront_pctdec hi hc hr
  | rlencZ | rlencZf => exact emitsFront_rlenc rfl hi hc hr
  | rldecZ | rldecZf => exact emitsFront_rldec rfl hi hc hroom hr

/-- An emission that does not overtake I leaves the unread input alone, even in place (R156). -/
theorem unread_emitBytes (bs : List Byte) (h : inPlace op = true → s.o + bs.length ≤ s.i) :
    unread (emitBytes op bs s) = unread s := by
  unfold unread
  rw [emitBytes_i, emitBytes_srcLen]
  refine srcSlice_congr _ _ _ _ fun j hj _ => ?_
  rw [srcByte_emitBytes, if_neg]
  rintro ⟨hp, -, hlt⟩
  have := h hp
  omega

theorem remainingOutput_emitBytes (bs : List Byte) (h : inPlace op = true → s.o + bs.length ≤ s.i) :
    remainingOutput op (emitBytes op bs s) = remainingOutput op s :=
  remainingOutput_congr op (unread_emitBytes bs h) (emitBytes_fsm ..) (emitBytes_rv ..) (emitBytes_cnt ..)

end Sys2Proof.Machine
end

section
/-! SUPPORT. `MachineInv` phase by phase: what it says in each phase, and that every shared operation leads from it to it. -/

namespace Sys2Proof.Machine

variable {s t : State}

/-! The invariant in each phase. -/

/-- `ScanAgrees` with the command and the output still to come by name. -/
structure Scanning (op : Instr) (out : List Byte) (s : State) : Prop where
  /-- CMD holds the command. -/
  command : decode s.cmd = some op
  /-- The SCAN steps to come emit `out`. -/
  remains : remainingOutput op s = some out
  /-- What has been emitted and what remains make up L bytes. -/
  length : s.o + out.length = s.l
  /-- I is inside the input. -/
  index : s.i ≤ s.srcLen
  /-- The result fits DST. -/
  fits : inPlace op = false → s.l ≤ s.cfg.dstCap
  /-- In place, O does not overtake I. -/
  behind : inPlace op = true → s.o ≤ s.i
  /-- What has been emitted to DST stands there. -/
  written : inPlace op = false → ∀ k, k < s.o → (Memory.read s.dst k).isSome = true

theorem scanAgrees_iff : ScanAgrees s ↔ ∃ op out, Scanning op out s :=
  ⟨fun ⟨op, out, h1, h2, h3, h4, h5, h6, h7⟩ => ⟨op, out, h1, h2, h3, h4, h5, h6, h7⟩,
    fun ⟨op, out, h1, h2, h3, h4, h5, h6, h7⟩ => ⟨op, out, h1, h2, h3, h4, h5, h6, h7⟩⟩

/-- The invariant in a state with no operation in progress. -/
theorem machineInv_off (hp : s.ph = .off) (hst : s.st ≠ .busy) (hlen : s.srcLen ≤ s.cfg.srcCap ∧ s.dstLen ≤ s.cfg.dstCap)
    (hidle : s.st = .idle → s.err = none ∧ s.dstLen = 0 ∧ s.cmd = 0x00)
    (herr : s.err ≠ none → s.st = .done ∧ s.dstLen = 0) (hf : s.fsm = .copy) (hlegal : LegalValues s)
    (hres : ∀ k, k < s.dstLen → (Memory.read s.dst k).isSome = true) : MachineInv s where
  spec :=
    { lengths := hlen
      busyIffPhase := by simp [hst, hp]
      busyClean := fun h => absurd h hst
      idleClean := hidle
      errorDone := herr
      scanBounds := by simp [hp]
      offCopy := fun _ => hf }
  legal := hlegal
  fresh := by simp [hp]
  scan := by simp [hp]
  result := hres

/-- The invariant in a state with an operation in progress. -/
theorem machineInv_on (hp : s.ph ≠ .off) (hst : s.st = .busy) (herr : s.err = none) (hd : s.dstLen = 0)
    (hlen : s.srcLen ≤ s.cfg.srcCap) (hlegal : LegalValues s) (hfresh : s.ph = .check → FreshOperation s)
    (hscan : s.ph = .scan → ∃ op out, Scanning op out s) : MachineInv s where
  spec :=
    { lengths := ⟨hlen, by simp [hd]⟩
      busyIffPhase := by simp [hst, hp]
      busyClean := fun _ => ⟨herr, hd⟩
      idleClean := by simp [hst]
      errorDone := fun h => absurd herr h
      scanBounds := fun h => by
        obtain ⟨op, out, hs⟩ := hscan h
        exact ⟨hs.index, hs.length ▸ Nat.le_add_right _ _, op, hs.command, hs.fits, hs.behind⟩
      offCopy := fun h => absurd h hp }
  legal := hlegal
  fresh := hfresh
  scan h := scanAgrees_iff.2 (hscan h)
  result := by simp [hd]

/-- An accepted result of a command that delivers to DST fits DST; for PCTDEC, because it is no longer than the input (R113). -/
theorem length_le_of_fits {op : Instr} {out : List Byte} (hp : inPlace op = false)
    (ho : commandFunction op (input s) = .ok out) (hf : fits op s.cfg s.srcLen out.length = true) :
    out.length ≤ s.cfg.dstCap := by
  have pctdec {plus : Bool} (hu : CodecResult.ok (urldec plus (input s)) = .ok out) (hn : s.srcLen ≤ s.cfg.dstCap) :
      out.length ≤ s.cfg.dstCap := by
    have := length_urldec_le plus (input s)
    rw [CodecResult.ok.inj hu, length_input] at this
    exact this.trans hn
  cases op with
  | pctdec | pctdecP => exact pctdec ho (of_decide_eq_true hf)
  | pctdecIp | pctdecIpP => cases hp
  | hexenc | hexencSw | hexdec | pctenc | rlencZ | rlencZf | rldecZ | rldecZf => exact of_decide_eq_true hf

namespace MachineInv

theorem busy_of_on (h : MachineInv s) (hp : s.ph ≠ .off) : s.st = .busy := h.spec.busyIffPhase.2 hp

theorem clean_of_on (h : MachineInv s) (hp : s.ph ≠ .off) : s.err = none ∧ s.dstLen = 0 :=
  h.spec.busyClean (h.busy_of_on hp)

theorem off_of_not_busy (h : MachineInv s) (hst : s.st ≠ .busy) : s.ph = .off :=
  not_not.1 (mt h.busy_of_on hst)

/-! The host's transactions. -/

/-- The invariant does not see the host's side (R68). -/
theorem hostSide (h : MachineInv s) (p : List Transaction) (ts : List Agent) (d : List Nat) (n : Nat) :
    MachineInv { s with program := p, turns := ts, readData := d, freeReads := n } where
  spec := ⟨h.spec.lengths, h.spec.busyIffPhase, h.spec.busyClean, h.spec.idleClean, h.spec.errorDone, h.spec.scanBounds,
    h.spec.offCopy⟩
  legal := ⟨h.legal.params, h.legal.srcWf, h.legal.dstWf, h.legal.iRange, h.legal.oRange, h.legal.cntRange⟩
  fresh hp := ⟨(h.fresh hp).zero, (h.fresh hp).rv, (h.fresh hp).fsm⟩
  scan := h.scan
  result := h.result

theorem resetBlock (h : MachineInv s) : MachineInv (resetBlock s) :=
  machineInv_off rfl nofun ⟨Nat.zero_le _, Nat.zero_le _⟩ (fun _ => ⟨rfl, rfl, rfl⟩) (fun h => absurd rfl h) rfl
    ⟨h.legal.params, h.legal.srcWf, h.legal.dstWf, Nat.zero_le _, Nat.zero_le _, Nat.zero_le _⟩ nofun

theorem issue (h : MachineInv s) (w : Byte) : MachineInv (issue w s) :=
  machineInv_on nofun rfl rfl rfl h.spec.lengths.1
    ⟨h.legal.params, h.legal.srcWf, h.legal.dstWf, Nat.zero_le _, Nat.zero_le _, Nat.zero_le _⟩
    (fun _ => ⟨⟨rfl, rfl, rfl, rfl⟩, rfl, rfl⟩) nofun

theorem setSrcLen (h : MachineInv s) (hst : s.st ≠ .busy) {n : Nat} (hn : n ≤ s.cfg.srcCap) :
    MachineInv { s with srcLen := n } :=
  have hp := h.off_of_not_busy hst
  machineInv_off hp hst ⟨hn, h.spec.lengths.2⟩ h.spec.idleClean h.spec.errorDone (h.spec.offCopy hp)
    ⟨h.legal.params, h.legal.srcWf, h.legal.dstWf, h.legal.iRange, h.legal.oRange, h.legal.cntRange⟩ h.result

theorem writeSrc (h : MachineInv s) (hst : s.st ≠ .busy) {k : Nat} (hk : k < s.cfg.srcCap) (b : Byte) :
    MachineInv { s with src := Memory.write s.src k b } :=
  have hp := h.off_of_not_busy hst
  machineInv_off hp hst h.spec.lengths h.spec.idleClean h.spec.errorDone (h.spec.offCopy hp)
    ⟨h.legal.params, Memory.wf_write _ _ _ _ hk h.legal.srcWf, h.legal.dstWf, h.legal.iRange, h.legal.oRange,
      h.legal.cntRange⟩ h.result

theorem transact (h : MachineInv s) (x : Transaction) : MachineInv (transact x s) := by
  obtain ⟨d, n, hx⟩ | ⟨-, hx⟩ | ⟨v, -, -, hx⟩ | ⟨v, -, hst, hv, hx⟩ | ⟨k, b, -, hst, hk, hx⟩ := transact_cases x s <;> rw [hx]
  · exact h.hostSide s.program s.turns d n
  · exact h.resetBlock
  · exact h.issue _
  · exact h.setSrcLen hst hv
  · exact h.writeSrc hst hk b

theorem takeTurn (h : MachineInv s) : MachineInv (takeTurn s) := by
  unfold Machine.takeTurn
  split
  · exact h.hostSide s.program s.turns.tail s.readData s.freeReads
  · exact h

/-! The CHECK step (R112, R116). -/

/-- Completion with error in the CHECK step, whether or not L has been computed. -/
theorem raiseError (h : MachineInv s) (hp : s.ph = .check) (e : ErrKind) (n : Nat) :
    MachineInv (raiseError e { s with l := n }) :=
  have hd : s.dstLen = 0 := (h.clean_of_on (by simp [hp])).2
  machineInv_off rfl nofun h.spec.lengths nofun (fun _ => ⟨rfl, hd⟩) (h.fresh hp).fsm
    ⟨h.legal.params, h.legal.srcWf, h.legal.dstWf, h.legal.iRange, h.legal.oRange, h.legal.cntRange⟩
    h.result

/-- An accepted CHECK step opens the scan with the whole result to come and nothing emitted. -/
theorem startScan (h : MachineInv s) (hp : s.ph = .check) {op : Instr} {out : List Byte} (hd : decode s.cmd = some op)
    (ho : commandFunction op (input s) = .ok out) (hf : fits op s.cfg s.srcLen out.length = true) :
    MachineInv { s with l := out.length, ph := .scan } := by
  have on : s.ph ≠ .off := by simp [hp]
  obtain ⟨herr, hdst⟩ := h.clean_of_on on
  obtain ⟨⟨hi, hzero, -, -⟩, -, hfsm⟩ := h.fresh hp
  have scanning : Scanning op out { s with l := out.length, ph := .scan } :=
    { command := hd
      remains := remainingOutput_of_start hfsm hi ho
      length := by simp [hzero]
      index := by simp [hi]
      fits := fun hp => length_le_of_fits hp ho hf
      behind := by simp [hzero]
      written := by simp [hzero] }
  exact machineInv_on nofun (h.busy_of_on on) herr hdst h.spec.lengths.1
    ⟨h.legal.params, h.legal.srcWf, h.legal.dstWf, h.legal.iRange, h.legal.oRange, h.legal.cntRange⟩ nofun
    fun _ => ⟨op, out, scanning⟩

theorem checkStep (h : MachineInv s) (hp : s.ph = .check) {op : Instr} (hd : decode s.cmd = some op)
    (ht : checkStep op (commandFunction op) s = .next t) : MachineInv t := by
  obtain ⟨-, ⟨e, -, rfl⟩ | ⟨out, ho, hf, rfl⟩ | ⟨out, -, -, rfl⟩⟩ := checkStep_next ht
  · exact h.raiseError hp e s.l
  · exact h.startScan hp hd ho hf
  · exact h.raiseError hp .overflow out.length

/-! The SCAN steps (R114, R115). -/

theorem scanning (h : MachineInv s) (hp : s.ph = .scan) {op : Instr} (hd : decode s.cmd = some op) :
    ∃ out, Scanning op out s := by
  obtain ⟨op', out, hs⟩ := scanAgrees_iff.1 (h.scan hp)
  obtain rfl : op' = op := Option.some.inj (hs.command.symm.trans hd)
  exact ⟨out, hs⟩

/-- At the finish the emitted bytes are the whole result, and they have been written. -/
theorem finish (h : MachineInv s) (hp : s.ph = .scan) {op : Instr} (hd : decode s.cmd = some op) (hi : s.srcLen ≤ s.i) :
    MachineInv (finish op s) := by
  obtain ⟨herr, hdst⟩ := h.clean_of_on (by simp [hp])
  obtain ⟨out, hs⟩ := h.scanning hp hd
  obtain ⟨hfsm, rfl⟩ := remainingOutput_at_end (unread_eq_nil s hi) hs.remains
  have hlen := h.spec.lengths
  have legal : LegalValues (Machine.finish op s) :=
    ⟨by simpa using h.legal.params, by simpa using h.legal.srcWf, by simpa using h.legal.dstWf,
      by simpa using h.legal.iRange, by simpa using h.legal.oRange, by simpa using h.legal.cntRange⟩
  have off := machineInv_off (s := Machine.finish op s) (finish_ph ..) (by simp)
  cases hpl : inPlace op with
  | false =>
    have all_emitted : s.o = s.l := hs.length
    have := hs.fits hpl
    exact off (by simp [hpl]; omega) (by simp) (by simp [herr]) ((finish_fsm ..).trans hfsm) legal
      (by simpa [hpl] using hs.written hpl)
  | true =>
    have := hs.behind hpl
    have := hs.index
    exact off (by simp [hpl, hdst]; omega) (by simp) (by simp [herr]) ((finish_fsm ..).trans hfsm) legal
      (by simp [hpl, hdst])

/-- In phase SCAN a body has a front of the remaining output to emit, and room for it. -/
theorem emitsFront (h : MachineInv s) (hp : s.ph = .scan) {op : Instr} (hd : decode s.cmd = some op) (hi : s.i < s.srcLen) :
    ∃ out bs rest u, Scanning op out s ∧ EmitsFront op (Machine.scanBody op) (remainingOutput op) s out bs rest u ∧
      s.o + bs.length ≤ outCap op s.cfg := by
  obtain ⟨out, hs⟩ := h.scanning hp hd
  have hsrc := h.spec.lengths.1
  have hlen := hs.length
  cases hpl : inPlace op with
  | false =>
    have cap_eq : outCap op s.cfg = s.cfg.dstCap := by simp [outCap, hpl]
    have := hs.fits hpl
    obtain ⟨bs, rest, u, e⟩ := scanBody_emitsFront hi h.legal.cntRange (by omega) hs.remains
    have := congrArg List.length e.split
    rw [List.length_append] at this
    exact ⟨out, bs, rest, u, hs, e, by omega⟩
  | true =>
    have cap_eq : outCap op s.cfg = s.cfg.srcCap := by simp [outCap, hpl]
    have := hs.behind hpl
    obtain ⟨bs, rest, u, e⟩ := scanBody_emitsFront hi h.legal.cntRange (by omega) hs.remains
    have := e.behind hpl
    have := e.index
    exact ⟨out, bs, rest, u, hs, e, by omega⟩

end MachineInv

section
variable {op : Instr} {out bs rest : List Byte} {u : State} {remaining : State → Option (List Byte)} {body : State → Result State}

/-- What was written before an emission is written after it, and so are the emitted bytes. -/
theorem isSome_read_emitBytes (hp : inPlace op = false) (h : ∀ k, k < s.o → (Memory.read s.dst k).isSome = true) :
    ∀ k, k < s.o + bs.length → (Memory.read (emitBytes op bs s).dst k).isSome = true := by
  intro k hk
  simp only [emitBytes_dst, hp, Bool.false_eq_true, if_false, Memory.read_writeAll]
  split
  · rw [List.getElem?_eq_getElem (by omega)]
    rfl
  · exact h k (by omega)

theorem Scanning.emit (h : Scanning op out s) (e : EmitsFront op body (remainingOutput op) s out bs rest u) :
    Scanning op rest (emitBytes op bs u) := by
  obtain ⟨-, ⟨i', cnt', rv', fsm', rfl⟩, rfl, hr, hi, -, hb⟩ := e
  have behind (hp : inPlace op = true) : s.o + bs.length ≤ i' := (Nat.add_le_add_right (h.behind hp) _).trans (hb hp)
  constructor
  case command => simpa using h.command
  case remains => rw [remainingOutput_emitBytes bs behind, hr]
  case length => simpa [Nat.add_assoc] using h.length
  case index => simpa using hi
  case fits => simpa using h.fits
  case behind => simpa using behind
  case written =>
    intro hp k hk
    exact isSome_read_emitBytes hp (by exact h.written hp) k (by simpa using hk)

theorem LegalValues.emit (h : LegalValues s) (hsrc : s.srcLen ≤ s.cfg.srcCap) (e : EmitsFront op body remaining s out bs rest u)
    (hroom : s.o + bs.length ≤ outCap op s.cfg) : LegalValues (emitBytes op bs u) := by
  obtain ⟨-, ⟨i', cnt', rv', fsm', rfl⟩, -, -, hi, hc, -⟩ := e
  have hrange : i' ≤ s.cfg.srcCap := hi.trans hsrc
  cases hp : inPlace op with
  | false =>
    have hroom' : s.o + bs.length ≤ s.cfg.dstCap := by simpa [outCap, hp] using hroom
    exact ⟨by simpa using h.params, by simpa [hp] using h.srcWf,
      by simpa [hp] using Memory.wf_writeAll _ _ _ _ hroom' h.dstWf, by simpa using hrange,
      by simp [hroom'], by simpa using hc⟩
  | true =>
    have hroom' : s.o + bs.length ≤ s.cfg.srcCap := by simpa [outCap, hp] using hroom
    exact ⟨by simpa using h.params, by simpa [hp] using Memory.wf_writeAll _ _ _ _ hroom' h.srcWf,
      by simpa [hp] using h.dstWf, by simpa using hrange, by simp [hroom'], by simpa using hc⟩

end

namespace MachineInv

theorem scanBody (h : MachineInv s) (hp : s.ph = .scan) {op : Instr} (hd : decode s.cmd = some op) (hi : s.i < s.srcLen)
    (ht : scanBody op s = .next t) : MachineInv t := by
  have on : s.ph ≠ .off := by simp [hp]
  obtain ⟨out, bs, rest, u, hs, e, hroom⟩ := h.emitsFront hp hd hi
  rw [e.emits] at ht
  obtain ⟨-, rfl⟩ := emitOut_next.1 ht
  have legal := h.legal.emit h.spec.lengths.1 e hroom
  have scanning := hs.emit e
  obtain ⟨i', cnt', rv', fsm', rfl⟩ := e.frame
  exact machineInv_on (by simpa using on) (by simpa using h.busy_of_on on) (by simpa using (h.clean_of_on on).1)
    (by simpa using (h.clean_of_on on).2) (by simpa using h.spec.lengths.1) legal (by simp [hp])
    fun _ => ⟨op, rest, scanning⟩

/-! The engine's move and the step. -/

theorem exec (h : MachineInv s) {op : Instr} (hd : decode s.cmd = some op) (ht : exec op s = .next t) : MachineInv t := by
  obtain ⟨-, rfl⟩ | ⟨hp, hc⟩ | ⟨hp, hi, rfl⟩ | ⟨hp, hi, -, hb⟩ := exec_next ht
  · exact h
  · exact h.checkStep hp hd hc
  · exact h.finish hp hd hi
  · exact h.scanBody hp hd hi hb

theorem engineTurn (h : MachineInv s) (ht : engineTurn s = .next t) : MachineInv t := by
  obtain ⟨op, hd, he⟩ | ⟨-, -, rfl⟩ | ⟨-, hp, rfl⟩ := engineTurn_next ht
  · exact h.exec hd he
  · exact h
  · exact h.raiseError hp .illegalCommand s.l

theorem step (h : MachineInv s) (ht : step s = .next t) : MachineInv t := by
  obtain ⟨-, rfl⟩ | ⟨-, x, xs, -, rfl⟩ | ⟨-, -, he⟩ := step_next ht
  · exact h
  · exact (h.takeTurn.hostSide xs _ _ _).transact x
  · exact h.takeTurn.engineTurn he

theorem of_afterReset (h : AfterReset s) : MachineInv s := by
  obtain ⟨hs, hparams, hsrc, hdst⟩ := h
  rw [hs]
  exact machineInv_off rfl nofun ⟨Nat.zero_le _, Nat.zero_le _⟩ (fun _ => ⟨rfl, rfl, rfl⟩) (fun h => absurd rfl h) rfl
    ⟨hparams, hsrc, hdst, Nat.zero_le _, Nat.zero_le _, Nat.zero_le _⟩ nofun

theorem of_reachable (h : Reachable s) : MachineInv s := by
  induction h with
  | start s hs => exact of_afterReset hs
  | next s t _ hst ih => exact ih.step hst

end MachineInv

theorem afterReset_reset : AfterReset State.reset := ⟨rfl, by decide, Memory.wf_reset _⟩

/-- Settles O54: rest keeps the state, a transaction keeps the invariant, and so does the engine's move. -/
theorem everyStepKeepsTheInvariant : Obligations.EveryStepKeepsTheInvariant :=
  fun _ _ => MachineInv.step

/-- Settles O56: the states right after a reset meet the fuller invariant, and every step keeps it. -/
theorem reachableStatesMeetR35 : Obligations.ReachableStatesMeetR35 :=
  fun _ h => (MachineInv.of_reachable h).spec

/-- Settles O10: the reset state is a state right after a reset. -/
theorem resetMeetsTheInvariant : Obligations.ResetMeetsTheInvariant :=
  MachineInv.of_afterReset afterReset_reset

end Sys2Proof.Machine
end

section
/-! CLAIMS O19, O53, O9, O18: the registers as the host reads and writes them, and what a step does to ST and to the parameters. -/

namespace Sys2Proof.Machine

variable {s t : State}

/-! What the engine's move makes of a state, by its parts. -/

/-- Everything the engine's move can make of a state: rest, completion with error, start of the scan, finish, or a SCAN body. -/
theorem engineTurn_effect (h : engineTurn s = .next t) :
    t = s ∨ (∃ e n, t = raiseError e { s with l := n }) ∨ (∃ n, t = { s with l := n, ph := .scan }) ∨
    (∃ op, t = finish op s) ∨ (∃ op, ScanBodyEffect op s t) := by
  obtain ⟨op, -, he⟩ | ⟨-, -, rfl⟩ | ⟨-, -, rfl⟩ := engineTurn_next h
  · obtain ⟨-, rfl⟩ | ⟨-, hc⟩ | ⟨-, -, rfl⟩ | ⟨-, -, -, hb⟩ := exec_next he
    · exact .inl rfl
    · obtain ⟨-, ⟨e, -, rfl⟩ | ⟨out, -, -, rfl⟩ | ⟨out, -, -, rfl⟩⟩ := checkStep_next hc
      · exact .inr (.inl ⟨e, s.l, rfl⟩)
      · exact .inr (.inr (.inl ⟨out.length, rfl⟩))
      · exact .inr (.inl ⟨.overflow, out.length, rfl⟩)
    · exact .inr (.inr (.inr (.inl ⟨op, rfl⟩)))
    · exact .inr (.inr (.inr (.inr ⟨op, scanBody_next hb⟩)))
  · exact .inl rfl
  · exact .inr (.inl ⟨.illegalCommand, s.l, rfl⟩)

/-- The engine keeps ST or completes (R27). -/
theorem engineTurn_st (h : engineTurn s = .next t) : t.st = s.st ∨ t.st = .done := by
  obtain rfl | ⟨e, n, rfl⟩ | ⟨n, rfl⟩ | ⟨op, rfl⟩ | ⟨op, bs, i, cnt, rv, fsm, -, rfl⟩ := engineTurn_effect h
  · exact .inl rfl
  · exact .inr rfl
  · exact .inl rfl
  · exact .inr (finish_st op s)
  · exact .inl (emitBytes_st ..)

theorem engineTurn_cfg (h : engineTurn s = .next t) : t.cfg = s.cfg := by
  obtain rfl | ⟨e, n, rfl⟩ | ⟨n, rfl⟩ | ⟨op, rfl⟩ | ⟨op, bs, i, cnt, rv, fsm, -, rfl⟩ := engineTurn_effect h
  · rfl
  · rfl
  · rfl
  · exact finish_cfg op s
  · exact emitBytes_cfg ..

/-! Transactions. -/

/-- A transaction keeps ST, or is an issue or a Reset (R27). -/
theorem transact_st (x : Transaction) (s : State) :
    (transact x s).st = s.st ∨ (s.st ≠ .busy ∧ (transact x s).st = .busy ∧ ∃ v, x = .regWrite 0 v) ∨
    ((transact x s).st = .idle ∧ x = .reset) := by
  obtain ⟨d, n, hx⟩ | ⟨rfl, hx⟩ | ⟨v, rfl, hst, hx⟩ | ⟨v, -, -, -, hx⟩ | ⟨k, b, -, -, -, hx⟩ := transact_cases x s <;> rw [hx]
  · exact .inl rfl
  · exact .inr (.inr ⟨rfl, rfl⟩)
  · exact .inr (.inl ⟨hst, rfl, v, rfl⟩)
  · exact .inl rfl
  · exact .inl rfl

theorem transact_cfg (x : Transaction) (s : State) : (transact x s).cfg = s.cfg := by
  obtain ⟨d, n, hx⟩ | ⟨-, hx⟩ | ⟨v, -, -, hx⟩ | ⟨v, -, -, -, hx⟩ | ⟨k, b, -, -, -, hx⟩ := transact_cases x s <;> rw [hx] <;> rfl

/-- A write of a register other than CMD and SRC_LEN is ignored (R61). -/
theorem transact_regWrite_readOnly {r : Nat} (h0 : r ≠ 0) (h2 : r ≠ 2) (v : Nat) (s : State) :
    transact (.regWrite r v) s = s := by
  obtain h | ⟨-, h, -⟩ | ⟨-, h, -⟩ := regWrite_cases r v s
  · exact h
  · exact absurd h h0
  · exact absurd h h2

/-! The capacities (R29). -/

theorem step_cfg (h : step s = .next t) : t.cfg = s.cfg := by
  obtain ⟨-, rfl⟩ | ⟨-, x, xs, -, rfl⟩ | ⟨-, -, he⟩ := step_next h
  · rfl
  · exact (transact_cfg x _).trans (takeTurn_cfg s)
  · exact (engineTurn_cfg he).trans (takeTurn_cfg s)

theorem wellFormed_params_iff (p : Config.Params) :
    p.wellFormed = true ↔ (1 ≤ p.srcCap ∧ 1 ≤ p.dstCap) ∧ p.srcCap < 2 ^ p.lenw ∧ p.dstCap < 2 ^ p.lenw := by
  simp [Config.Params.wellFormed]

/-- Settles O19: neither a transaction nor the engine's move touches the parameters, and R6 bounds them. -/
theorem capacitiesNeverChange : Obligations.CapacitiesNeverChange := by
  unfold Obligations.CapacitiesNeverChange
  refine ⟨fun _ => ⟨rfl, rfl⟩, fun s v => ⟨?_, ?_⟩, fun _ _ => step_cfg, fun s h => ((wellFormed_params_iff _).1 h).2⟩
  · exact transact_regWrite_readOnly (by decide) (by decide) v s
  · exact transact_regWrite_readOnly (by decide) (by decide) v s

/-! The transitions of ST (R27). -/

/-- Settles O53: the engine moves only while BUSY and may complete; the host issues or resets; nothing else touches ST. -/
theorem statusTransitions : Obligations.StatusTransitions := by
  unfold Obligations.StatusTransitions
  intro s t hinv ht
  obtain ⟨-, rfl⟩ | ⟨ha, x, xs, hx, rfl⟩ | ⟨ha, hp, he⟩ := step_next ht
  · exact .inl rfl
  · have hst := transact_st x { takeTurn s with program := xs }
    rw [show State.st { takeTurn s with program := xs } = s.st from takeTurn_st s] at hst
    have head_eq : s.program.head? = some x := by rw [hx, List.head?_cons]
    obtain keeps | ⟨hfree, hbusy, v, rfl⟩ | ⟨hidle, rfl⟩ := hst
    · exact .inl keeps
    · exact .inr (.inl ⟨hfree, hbusy, ha, v, head_eq⟩)
    · exact .inr (.inr (.inr ⟨hidle, ha, head_eq⟩))
  · obtain keeps | hdone := engineTurn_st he
    · exact .inl (keeps.trans (takeTurn_st s))
    · exact .inr (.inr (.inl ⟨hinv.busy_of_on hp, hdone, ha⟩))

/-! STATUS (R26). -/

/-- STATUS is the concatenation of the two codes. -/
theorem toNat_statusWord (s : State) :
    (statusWord s).toNat = 4 * (errCode s.err).toNat + (statusCode s.st).toNat := by
  have : (statusCode s.st).toNat < 2 ^ 2 := (statusCode s.st).isLt
  rw [statusWord, BitVec.toNat_append, BitVec.toNat_append, ← Nat.shiftLeft_add_eq_or_of_lt this]
  simp [Nat.shiftLeft_eq, Nat.mul_comm]

theorem statusWord_eq_zero (hst : s.st = .idle) (he : s.err = none) : statusWord s = 0x00 := by
  rw [statusWord, hst, he]
  decide

/-- Under R35 an error is reported only when DONE, so STATUS takes seven values. -/
theorem toNat_statusWord_mem (h : ReachableInvariants s) :
    (statusWord s).toNat ∈ [0x00, 0x01, 0x02, 0x06, 0x0A, 0x0E, 0x12] := by
  rw [toNat_statusWord]
  cases he : s.err with
  | none => cases s.st <;> decide
  | some e =>
    rw [(h.errorDone (by simp [he])).1]
    cases e <;> decide

/-- Settles O18: the two codes stand side by side in STATUS, only a read shows it, and Reset zeroes it. -/
theorem statusWordLayout : Obligations.StatusWordLayout := by
  unfold Obligations.StatusWordLayout
  refine ⟨fun s => ?_, fun _ => toNat_statusWord_mem, fun s v => ⟨rfl, ?_, statusWord_eq_zero rfl rfl⟩⟩
  · have : (statusCode s.st).toNat < 4 := (statusCode s.st).isLt
    have low : (statusWord s).toNat % 4 = (statusCode s.st).toNat := by rw [toNat_statusWord]; omega
    have high : (statusWord s).toNat / 4 = (errCode s.err).toNat := by rw [toNat_statusWord]; omega
    rw [low, high]
    constructor
    · cases s.st <;> rfl
    · cases s.err with
      | none => rfl
      | some e => cases e <;> rfl
  · exact transact_regWrite_readOnly (by decide) (by decide) v s

/-! The registers after a reset (R37). -/

theorem regReadValue_status_eq_zero (hst : s.st = .idle) (he : s.err = none) : regReadValue 1 s = .exact 0x00 :=
  congrArg (fun w : Byte => ReadValue.exact w.toNat) (statusWord_eq_zero hst he)

theorem readsAsTheTable_of_afterReset (h : AfterReset s) :
    regReadValue 0 s = .exact 0x00 ∧ regReadValue 1 s = .exact 0x00 ∧ regReadValue 2 s = .exact 0 ∧
    regReadValue 3 s = .exact 0 ∧ regReadValue 4 s = .exact s.cfg.srcCap ∧ regReadValue 5 s = .exact s.cfg.dstCap ∧
    s.ph = .off ∧ s.i = 0 ∧ s.o = 0 ∧ s.l = 0 ∧ s.cnt = 0 ∧ s.rv = 0x00 ∧ s.fsm = .copy := by
  obtain ⟨hs, -⟩ := h
  rw [hs]
  exact ⟨rfl, regReadValue_status_eq_zero rfl rfl, rfl, rfl, rfl, rfl, rfl, rfl, rfl, rfl, rfl, rfl, rfl⟩

/-- Settles O9: the reset state is a state right after a reset, and there every register holds its value of R37. -/
theorem resetStateReadsAsTheTable : Obligations.ResetStateReadsAsTheTable := by
  unfold Obligations.ResetStateReadsAsTheTable
  rintro s (rfl | h)
  · exact readsAsTheTable_of_afterReset afterReset_reset
  · exact readsAsTheTable_of_afterReset h

end Sys2Proof.Machine
end

section
/-! CLAIMS O12 to O17: the three spaces as the host sees them (R61 to R63, R68, R69, R73). One equation per case of each read and each write; the
claims are these equations put together. -/

namespace Sys2Proof.Machine

variable {s : State}

/-! What a read hands over (R68). -/

/-- An exact value is handed over and no free value is used up. -/
theorem deliver_exact (n : Nat) (s : State) : deliver (.exact n) s = { s with readData := s.readData ++ [n] } := rfl

theorem deliver_anyByte (s : State) :
    deliver .anyByte s =
      { s with readData := s.readData ++ [Config.unspecifiedRead s.freeReads % 256], freeReads := s.freeReads + 1 } := rfl

theorem deliver_anyLength (s : State) :
    deliver .anyLength s =
      { s with readData := s.readData ++ [Config.unspecifiedRead s.freeReads % 2 ^ s.cfg.lenw], freeReads := s.freeReads + 1 } :=
  rfl

theorem deliver_anyValue (s : State) :
    deliver .anyValue s =
      { s with readData := s.readData ++ [Config.unspecifiedRead s.freeReads], freeReads := s.freeReads + 1 } := rfl

/-- Every read hands over exactly one value and leaves the rest of the block as it is. -/
theorem deliver_oneValue (v : ReadValue) (s : State) :
    ∃ d n, deliver v s = { s with readData := s.readData ++ [d], freeReads := n } :=
  ⟨freeRead s v, (deliver v s).freeReads, by rw [← deliver_readData]; exact deliver_eq v s⟩

/-! The REG space (R61). -/

theorem transact_regWrite_of_busy (h : s.st = .busy) (r v : Nat) : transact (.regWrite r v) s = s := if_pos h

/-- Outside an operation a write of CMD issues (R111). -/
theorem transact_regWrite_cmd (h : s.st ≠ .busy) (v : Nat) : transact (.regWrite 0 v) s = issue (BitVec.ofNat 8 v) s := if_neg h

theorem transact_regWrite_srcLen {v : Nat} (h : s.st ≠ .busy) (hv : v ≤ s.cfg.srcCap) :
    transact (.regWrite 2 v) s = { s with srcLen := v } :=
  (if_neg h).trans ((if_neg (by decide)).trans (if_pos ⟨rfl, hv⟩))

/-- A length that does not fit SRC is dropped, as is a write of a register that the host cannot write. -/
theorem transact_regWrite_ignored {r v : Nat} (h0 : r ≠ 0) (h : ¬ (r = 2 ∧ v ≤ s.cfg.srcCap)) :
    transact (.regWrite r v) s = s := by
  obtain keeps | ⟨-, hr, -⟩ | ⟨-, hr, hv, -⟩ := regWrite_cases r v s
  · exact keeps
  · exact absurd hr h0
  · exact absurd ⟨hr, hv⟩ h

theorem regReadValue_srcLen (h : s.st ≠ .busy) : regReadValue 2 s = .exact s.srcLen := if_neg h

theorem regReadValue_dstLen (h : s.st ≠ .busy) : regReadValue 3 s = .exact s.dstLen := if_neg h

/-- The engine owns the two lengths while BUSY (R73). -/
theorem regReadValue_of_busy {r : Nat} (h : s.st = .busy) (hr : r = 2 ∨ r = 3) : regReadValue r s = .anyLength := by
  obtain rfl | rfl := hr
  · exact if_pos h
  · exact if_pos h

theorem regReadValue_reserved {r : Nat} (h : 6 ≤ r) (s : State) : regReadValue r s = .anyValue := by
  obtain ⟨n, rfl⟩ := Nat.exists_eq_add_of_le' h
  rfl

/-! The SRC space (R62). -/

theorem transact_srcWrite_ignored {k : Nat} (h : s.st = .busy ∨ s.cfg.srcCap ≤ k) (b : Byte) :
    transact (.srcWrite k b) s = s := if_pos h

theorem transact_srcWrite {k : Nat} (h : s.st ≠ .busy) (hk : k < s.cfg.srcCap) (b : Byte) :
    transact (.srcWrite k b) s = { s with src := Memory.write s.src k b } :=
  if_neg (not_or.2 ⟨h, hk.not_ge⟩)

theorem srcReadValue_unspecified {k : Nat} (h : s.st = .busy ∨ s.cfg.srcCap ≤ k) : srcReadValue k s = .anyByte := if_pos h

theorem srcReadValue_exact {k : Nat} (h : s.st ≠ .busy) (hk : k < s.cfg.srcCap) :
    srcReadValue k s = .exact (srcByte s k).toNat :=
  if_neg (not_or.2 ⟨h, hk.not_ge⟩)

theorem srcByte_write_same (s : State) (k : Nat) (b : Byte) :
    srcByte { s with src := Memory.write s.src k b } k = b := by
  simp only [srcByte, Memory.read_write_same, Option.getD_some]

theorem srcByte_write_other (s : State) {k j : Nat} (b : Byte) (h : j ≠ k) :
    srcByte { s with src := Memory.write s.src k b } j = srcByte s j := by
  simp only [srcByte, Memory.read_write_other _ _ _ _ h]

/-- The same write again finds its byte listed already, so the list itself is unchanged, not only what it reads as (log 4). -/
theorem Memory.write_write_same (m : Memory) (k : Nat) (b : Byte) :
    Memory.write (Memory.write m k b) k b = Memory.write m k b := by
  induction m with
  | nil => simp [Memory.write]
  | cons c m ih =>
    obtain ⟨a, v⟩ := c
    by_cases below : k < a
    · simp [Memory.write, below]
    · by_cases here : k = a
      · simp [Memory.write, here]
      · simp [Memory.write, below, here, ih]

/-! The DST space (R63). -/

theorem transact_dstWrite (k : Nat) (b : Byte) (s : State) : transact (.dstWrite k b) s = s := rfl

theorem dstReadValue_unspecified {k : Nat} (h : s.st = .busy ∨ s.cfg.dstCap ≤ k) : dstReadValue k s = .anyByte := if_pos h

theorem dstReadValue_exact {k : Nat} (h : s.st ≠ .busy) (hk : k < s.cfg.dstCap) :
    dstReadValue k s = .exact (dstByte s k).toNat :=
  if_neg (not_or.2 ⟨h, hk.not_ge⟩)

/-! Reads as transactions (R98). -/

theorem transact_regRead (r : Nat) (s : State) : transact (.regRead r) s = deliver (regReadValue r s) s := rfl

theorem transact_srcRead (k : Nat) (s : State) : transact (.srcRead k) s = deliver (srcReadValue k s) s := rfl

theorem transact_dstRead (k : Nat) (s : State) : transact (.dstRead k) s = deliver (dstReadValue k s) s := rfl

theorem transact_regRead_length_of_busy {r : Nat} (h : s.st = .busy) (hr : r = 2 ∨ r = 3) :
    transact (.regRead r) s =
      { s with readData := s.readData ++ [Config.unspecifiedRead s.freeReads % 2 ^ s.cfg.lenw], freeReads := s.freeReads + 1 } := by
  rw [transact_regRead, regReadValue_of_busy h hr, deliver_anyLength]

theorem transact_srcRead_unspecified {k : Nat} (h : s.st = .busy ∨ s.cfg.srcCap ≤ k) :
    transact (.srcRead k) s =
      { s with readData := s.readData ++ [Config.unspecifiedRead s.freeReads % 256], freeReads := s.freeReads + 1 } := by
  rw [transact_srcRead, srcReadValue_unspecified h, deliver_anyByte]

theorem transact_dstRead_unspecified {k : Nat} (h : s.st = .busy ∨ s.cfg.dstCap ≤ k) :
    transact (.dstRead k) s =
      { s with readData := s.readData ++ [Config.unspecifiedRead s.freeReads % 256], freeReads := s.freeReads + 1 } := by
  rw [transact_dstRead, dstReadValue_unspecified h, deliver_anyByte]

/-! Writes made twice (R68). -/

/-- After a write of CMD the block is BUSY: it was, or the write has issued. -/
theorem transact_regWrite_cmd_busy (v : Nat) (s : State) : (transact (.regWrite 0 v) s).st = .busy := by
  by_cases h : s.st = .busy
  · rw [transact_regWrite_of_busy h, h]
  · rw [transact_regWrite_cmd h, issue_st]

theorem transact_regWrite_srcLen_idempotent (v : Nat) (s : State) :
    transact (.regWrite 2 v) (transact (.regWrite 2 v) s) = transact (.regWrite 2 v) s := by
  by_cases hst : s.st = .busy
  · rw [transact_regWrite_of_busy hst, transact_regWrite_of_busy hst]
  · by_cases hv : v ≤ s.cfg.srcCap
    · rw [transact_regWrite_srcLen hst hv]
      exact transact_regWrite_srcLen hst hv
    · have ignored := transact_regWrite_ignored (s := s) (r := 2) (by decide) fun h => hv h.2
      rw [ignored, ignored]

theorem transact_srcWrite_idempotent (k : Nat) (b : Byte) (s : State) :
    transact (.srcWrite k b) (transact (.srcWrite k b) s) = transact (.srcWrite k b) s := by
  by_cases h : s.st = .busy ∨ s.cfg.srcCap ≤ k
  · rw [transact_srcWrite_ignored h, transact_srcWrite_ignored h]
  · obtain ⟨hst, hk⟩ := not_or.1 h
    have hk := not_le.1 hk
    calc transact (.srcWrite k b) (transact (.srcWrite k b) s)
        = transact (.srcWrite k b) { s with src := Memory.write s.src k b } := by rw [transact_srcWrite hst hk]
      _ = { s with src := Memory.write (Memory.write s.src k b) k b } := transact_srcWrite (by exact hst) (by exact hk) b
      _ = transact (.srcWrite k b) s := by rw [Memory.write_write_same, transact_srcWrite hst hk]

/-! Frames of the writes (R68). -/

theorem transact_srcWrite_frame (k : Nat) (b : Byte) (s : State) :
    transact (.srcWrite k b) s = { s with src := (transact (.srcWrite k b) s).src } := by
  by_cases h : s.st = .busy ∨ s.cfg.srcCap ≤ k
  · rw [transact_srcWrite_ignored h]
  · obtain ⟨hst, hk⟩ := not_or.1 h
    rw [transact_srcWrite hst (not_le.1 hk)]

theorem transact_regWrite_frame {r : Nat} (h0 : r ≠ 0) (v : Nat) (s : State) :
    transact (.regWrite r v) s = { s with srcLen := (transact (.regWrite r v) s).srcLen } := by
  by_cases hst : s.st = .busy
  · rw [transact_regWrite_of_busy hst]
  · by_cases h : r = 2 ∧ v ≤ s.cfg.srcCap
    · obtain ⟨rfl, hv⟩ := h
      rw [transact_regWrite_srcLen hst hv]
    · rw [transact_regWrite_ignored h0 h]

/-- While BUSY a transaction other than Reset moves the host's side only (R73). -/
theorem transact_of_busy (h : s.st = .busy) {x : Transaction} (hx : x ≠ .reset) :
    ∃ d n, transact x s = { s with readData := d, freeReads := n } := by
  obtain keeps | ⟨hr, -⟩ | ⟨v, -, hst, -⟩ | ⟨v, -, hst, -⟩ | ⟨k, b, -, hst, -⟩ := transact_cases x s
  · exact keeps
  · exact absurd hr hx
  · exact absurd h hst
  · exact absurd h hst
  · exact absurd h hst

/-! The claims. -/

/-- Settles O12: the write and the read of each register number, BUSY or not. -/
theorem registerSpaceMap : Obligations.RegisterSpaceMap := by
  unfold Obligations.RegisterSpaceMap
  intro s
  refine ⟨fun r v hst => transact_regWrite_of_busy hst r v, fun v hst => transact_regWrite_cmd hst v,
    fun v hst hv => transact_regWrite_srcLen hst hv, fun r v _ h0 h => transact_regWrite_ignored h0 h,
    rfl, rfl, fun hst => ?_, fun hst => ?_, rfl, rfl, fun r hst hr => transact_regRead_length_of_busy hst hr⟩
  · rw [transact_regRead, regReadValue_srcLen hst, deliver_exact]
  · rw [transact_regRead, regReadValue_dstLen hst, deliver_exact]

/-- Settles O13: SRC is an array of bytes that the host reads and writes while the engine does not own it. -/
theorem srcSpaceAccess : Obligations.SrcSpaceAccess := by
  unfold Obligations.SrcSpaceAccess
  intro s k b hst hk
  rw [transact_srcWrite hst hk]
  refine ⟨srcByte_write_same s k b, fun j hj => srcByte_write_other s b hj, rfl, ?_⟩
  rw [transact_srcRead, srcReadValue_exact hst hk, deliver_exact]

/-- Settles O14: DST is an array of bytes that the host only reads. -/
theorem dstSpaceAccess : Obligations.DstSpaceAccess := by
  unfold Obligations.DstSpaceAccess
  refine ⟨fun s k hst hk => ?_, fun s k b => transact_dstWrite k b s⟩
  rw [transact_dstRead, dstReadValue_exact hst hk, deliver_exact]

/-- Settles O15: out of range a write is dropped and a read delivers the next free value. -/
theorem outOfRangeAccess : Obligations.OutOfRangeAccess := by
  unfold Obligations.OutOfRangeAccess
  intro s
  refine ⟨fun k b hk => transact_srcWrite_ignored (.inr hk) b, fun k b => transact_dstWrite k b s,
    fun r v hr => transact_regWrite_readOnly (by omega) (by omega) v s, fun k hk => transact_srcRead_unspecified (.inr hk),
    fun k hk => transact_dstRead_unspecified (.inr hk), fun r hr => ?_⟩
  rw [transact_regRead, regReadValue_reserved hr, deliver_anyValue]

/-- Settles O16: a read is a `deliver`, and a second write finds what the first has left. -/
theorem readsChangeNothingAndWritesRepeat : Obligations.ReadsChangeNothingAndWritesRepeat := by
  unfold Obligations.ReadsChangeNothingAndWritesRepeat
  refine ⟨?_, fun s k b => transact_srcWrite_idempotent k b s, fun s v => transact_regWrite_srcLen_idempotent v s,
    fun s v w => transact_regWrite_of_busy (transact_regWrite_cmd_busy v s) 0 w, fun s v hst => transact_regWrite_cmd hst v,
    fun s k b => transact_srcWrite_frame k b s, fun s r v h0 => transact_regWrite_frame h0 v s⟩
  rintro s x ⟨k, rfl | rfl | rfl⟩
  · exact deliver_oneValue (regReadValue k s) s
  · exact deliver_oneValue (srcReadValue k s) s
  · exact deliver_oneValue (dstReadValue k s) s

/-- Settles O17: while BUSY every write is dropped, what the engine owns reads as free values, and only Reset touches the block. -/
theorem busyBlockBelongsToTheEngine : Obligations.BusyBlockBelongsToTheEngine := by
  unfold Obligations.BusyBlockBelongsToTheEngine
  intro s hst
  refine ⟨transact_regWrite_of_busy hst, fun _ => transact_srcWrite_ignored (.inl hst), fun k b => transact_dstWrite k b s,
    fun _ => transact_srcRead_unspecified (.inl hst), fun _ => transact_dstRead_unspecified (.inl hst),
    fun _ => transact_regRead_length_of_busy hst, rfl, rfl, rfl, rfl, fun x hx => ?_⟩
  obtain ⟨d, n, h⟩ := transact_of_busy hst hx
  rw [h]
  exact ⟨rfl, rfl, rfl, rfl⟩

end Sys2Proof.Machine
end

section
/-! CLAIMS O5, O7: whose move it is, and what the engine's move is (R72, R76). -/

namespace Sys2Proof.Machine

variable {s : State}

/-! Who moves (R72), one equation per case. -/

/-- With PH = OFF only the host can move. -/
theorem nextAgent_of_off (hp : s.ph = .off) (hl : s.program ≠ []) : nextAgent s = some .host := by
  obtain ⟨x, xs, hx⟩ := List.exists_cons_of_ne_nil hl
  rw [nextAgent, hp, hx]

/-- With no transaction left only the engine can move. -/
theorem nextAgent_of_alone (hp : s.ph ≠ .off) (hl : s.program = []) : nextAgent s = some .engine := by
  obtain ⟨-, off, -⟩ | ⟨-, left⟩ | ⟨engine, -⟩ := nextAgent_cases s
  · exact absurd off hp
  · exact absurd hl left
  · exact engine

/-- Where both agents can move, the interleaving data decides (log 7). -/
theorem nextAgent_of_contested (hp : s.ph ≠ .off) (hl : s.program ≠ []) : nextAgent s = some (s.turns.headD .engine) := by
  obtain ⟨x, xs, hx⟩ := List.exists_cons_of_ne_nil hl
  cases h : s.ph with
  | off => exact absurd h hp
  | check => rw [nextAgent, h, hx]
  | scan => rw [nextAgent, h, hx]

theorem takeTurn_frame (s : State) : takeTurn s = { s with turns := (takeTurn s).turns } := by
  unfold takeTurn; split <;> rfl

/-! The engine's move (R76). -/

theorem step_of_engine (ha : nextAgent s = some .engine) : step s = engineTurn (takeTurn s) := by
  rw [step, ha]

theorem engineTurn_of_decode {op : Instr} (hd : decode s.cmd = some op) : engineTurn s = exec op s := by
  rw [engineTurn, hd]

/-- With PH = OFF the engine step of every command leaves the state as it is (R72, log 10). -/
theorem exec_of_off (hp : s.ph = .off) (op : Instr) : exec op s = .next s :=
  (exec_eq op s).trans (engineStep_off hp)

/-! The claims. -/

/-- Settles O5: using up a turn does not touch CMD, so the engine runs the command latched in `s`. -/
theorem stepRunsTheDecodedCommand : Obligations.StepRunsTheDecodedCommand := by
  unfold Obligations.StepRunsTheDecodedCommand
  intro s op ha hd _
  refine ⟨?_, takeTurn_frame s⟩
  rw [step_of_engine ha, engineTurn_of_decode ((congrArg decode (takeTurn_cmd s)).trans hd)]

/-- Settles O7: by the invariant ST = BUSY and PH ≠ OFF are the same condition (R35), and `turns` of one entry gives either agent the move. -/
theorem engineMovesOnlyWhileBusy : Obligations.EngineMovesOnlyWhileBusy := by
  unfold Obligations.EngineMovesOnlyWhileBusy
  intro s hinv
  have on_of_busy : s.st = .busy → s.ph ≠ .off := hinv.spec.busyIffPhase.1
  refine ⟨fun ha => ?_, fun hst => exec_of_off (hinv.off_of_not_busy hst), fun hst => step_rest (hinv.off_of_not_busy hst),
    fun hl hst => nextAgent_of_off (hinv.off_of_not_busy hst) hl, fun hst => nextAgent_of_alone (on_of_busy hst),
    fun hst hl a => ⟨[a], nextAgent_of_contested (s := { s with turns := [a] }) (on_of_busy hst) hl⟩⟩
  obtain ⟨nobody, -⟩ | ⟨host, -⟩ | ⟨-, on⟩ := nextAgent_cases s
  · cases nobody.symm.trans ha
  · cases host.symm.trans ha
  · exact hinv.busy_of_on on

end Sys2Proof.Machine
end

section
/-! CLAIM O39: the engine neither reads nor writes the host's side (R8, R73). Giving a state another host's side commutes with every operation of the
engine, from the emission up to `exec`. -/

namespace Sys2Proof.Machine

/-- The block of `s` with the host's side of `h`. -/
def withHostOf (h s : State) : State :=
  { s with program := h.program, turns := h.turns, readData := h.readData, freeReads := h.freeReads }

/-- Apply a function to the next state, where there is one. -/
def mapNext (g : State → State) : Result State → Result State
  | .next t => .next (g t)
  | .fault f => .fault f
  | .refused r => .refused r

variable {op : Instr} (h s : State)

/-! The operations that every command shares. -/

theorem input_withHostOf : input (withHostOf h s) = input s := rfl

theorem finish_withHostOf : finish op (withHostOf h s) = withHostOf h (finish op s) := by
  unfold finish
  cases inPlace op <;> rfl

theorem emitBytes_withHostOf (bs : List Byte) : emitBytes op bs (withHostOf h s) = withHostOf h (emitBytes op bs s) := by
  unfold emitBytes
  cases inPlace op <;> rfl

theorem emitOut_withHostOf (bs : List Byte) :
    emitOut op bs (withHostOf h s) = mapNext (withHostOf h) (emitOut op bs s) := by
  unfold emitOut
  rw [emitBytes_withHostOf, apply_ite (mapNext _)]
  rfl

/-- The end of a SCAN body: an emission from new working registers (R125). -/
theorem emitWorking_withHostOf (bs : List Byte) (i cnt : Nat) (rv : Byte) (fsm : RunState) :
    emitOut op bs { withHostOf h s with i := i, cnt := cnt, rv := rv, fsm := fsm } =
      mapNext (withHostOf h) (emitOut op bs { s with i := i, cnt := cnt, rv := rv, fsm := fsm }) :=
  emitOut_withHostOf h { s with i := i, cnt := cnt, rv := rv, fsm := fsm } bs

theorem checkStep_withHostOf (f : List Byte → CodecResult) :
    checkStep op f (withHostOf h s) = mapNext (withHostOf h) (checkStep op f s) := by
  unfold checkStep
  rw [apply_ite (mapNext _), input_withHostOf]
  cases f (input s) with
  | err e => rfl
  | ok out => simp only [apply_ite (mapNext _)]; rfl

theorem scanStep_withHostOf {body : State → Result State}
    (hb : body (withHostOf h s) = mapNext (withHostOf h) (body s)) :
    scanStep op body (withHostOf h s) = mapNext (withHostOf h) (scanStep op body s) := by
  unfold scanStep
  rw [hb, finish_withHostOf, apply_ite (mapNext _), apply_ite (mapNext _)]
  rfl

/-! The SCAN bodies: the two states branch alike, since no test reads the host's side. -/

theorem hexdecBody_of_pair {b : Byte} (hi : s.i + 1 < s.srcLen)
    (hb : hexPair (srcByte s s.i) (srcByte s (s.i + 1)) = some b) :
    hexdecBody s = emitOut .hexdec [b] { s with i := s.i + 2 } := by
  rw [hexdecBody, if_pos hi, hb]

/-- Without a pair of digits the body faults (log 12). -/
theorem hexdecBody_of_no_pair
    (hb : ¬ s.i + 1 < s.srcLen ∨ hexPair (srcByte s s.i) (srcByte s (s.i + 1)) = none) :
    hexdecBody s = .fault .scanPrecondition := by
  unfold hexdecBody
  split
  · next hi => rw [hb.resolve_left (not_not.2 hi)]
  · rfl

/-- Without a run to count the body faults (log 12). -/
theorem rlencBody_of_no_run {p : Byte → Bool} (hf : s.fsm = .run) (hr : runLength s.rv (unread s) = 0) :
    rlencBody op p s = .fault .scanPrecondition := by
  rw [rlencBody, hf]
  exact if_pos hr

theorem hexdecBody_withHostOf : hexdecBody (withHostOf h s) = mapNext (withHostOf h) (hexdecBody s) := by
  by_cases hi : s.i + 1 < s.srcLen
  · cases hb : hexPair (srcByte s s.i) (srcByte s (s.i + 1)) with
    | some b =>
      rw [hexdecBody_of_pair s hi hb, hexdecBody_of_pair (withHostOf h s) hi hb]
      exact emitWorking_withHostOf h s _ _ _ _ _
    | none => rw [hexdecBody_of_no_pair s (.inr hb), hexdecBody_of_no_pair (withHostOf h s) (.inr hb), mapNext]
  · rw [hexdecBody_of_no_pair s (.inl hi), hexdecBody_of_no_pair (withHostOf h s) (.inl hi), mapNext]

theorem pctdecBody_withHostOf (plus : Bool) :
    pctdecBody op plus (withHostOf h s) = mapNext (withHostOf h) (pctdecBody op plus s) := by
  cases he : escapeAtIndex s with
  | some v =>
    rw [pctdecBody_of_escape he, pctdecBody_of_escape (s := withHostOf h s) he]
    exact emitWorking_withHostOf h s _ _ _ _ _
  | none =>
    rw [pctdecBody_of_literal he, pctdecBody_of_literal (s := withHostOf h s) he]
    exact emitWorking_withHostOf h s _ _ _ _ _

theorem rlencBody_withHostOf (p : Byte → Bool) :
    rlencBody op p (withHostOf h s) = mapNext (withHostOf h) (rlencBody op p s) := by
  cases hf : s.fsm with
  | copy =>
    cases hp : p (srcByte s s.i) with
    | true =>
      rw [rlencBody_of_sentinel hf hp, rlencBody_of_sentinel (s := withHostOf h s) hf hp]
      exact emitWorking_withHostOf h s _ _ _ _ _
    | false =>
      rw [rlencBody_of_literal hf hp, rlencBody_of_literal (s := withHostOf h s) hf hp]
      exact emitWorking_withHostOf h s _ _ _ _ _
  | run =>
    by_cases hr : runLength s.rv (unread s) = 0
    · rw [rlencBody_of_no_run s hf hr, rlencBody_of_no_run (withHostOf h s) hf hr, mapNext]
    · rw [rlencBody_of_run hf hr, rlencBody_of_run (s := withHostOf h s) hf hr]
      exact emitWorking_withHostOf h s _ _ _ _ _

theorem rldecBody_withHostOf (p : Byte → Bool) :
    rldecBody op p (withHostOf h s) = mapNext (withHostOf h) (rldecBody op p s) := by
  cases hf : s.fsm with
  | copy =>
    by_cases hp : p (srcByte s s.i) = true ∧ s.i + 1 < s.srcLen
    · rw [rldecBody_of_sentinel hf hp]
      exact rldecBody_of_sentinel (s := withHostOf h s) hf hp
    · rw [rldecBody_of_literal hf hp, rldecBody_of_literal (s := withHostOf h s) hf hp]
      exact emitWorking_withHostOf h s _ _ _ _ _
  | run =>
    rw [rldecBody_of_run hf, rldecBody_of_run (s := withHostOf h s) hf]
    exact emitWorking_withHostOf h s _ _ _ _ _

theorem scanBody_withHostOf : scanBody op (withHostOf h s) = mapNext (withHostOf h) (scanBody op s) := by
  cases op with
  | hexenc | hexencSw | pctenc => exact emitWorking_withHostOf h s _ _ _ _ _
  | hexdec => exact hexdecBody_withHostOf h s
  | pctdec | pctdecP | pctdecIp | pctdecIpP => exact pctdecBody_withHostOf h s _
  | rlencZ | rlencZf => exact rlencBody_withHostOf h s _
  | rldecZ | rldecZf => exact rldecBody_withHostOf h s _

/-! One engine step, and the claim. -/

theorem exec_withHostOf (op : Instr) : exec op (withHostOf h s) = mapNext (withHostOf h) (exec op s) := by
  rw [exec_eq, exec_eq]
  cases hp : s.ph with
  | off => rw [engineStep_off hp, engineStep_off (s := withHostOf h s) hp, mapNext]
  | check =>
    rw [engineStep_check hp, engineStep_check (s := withHostOf h s) hp]
    exact checkStep_withHostOf h s _
  | scan =>
    rw [engineStep_scan hp, engineStep_scan (s := withHostOf h s) hp]
    exact scanStep_withHostOf h s (scanBody_withHostOf h s)

/-- Settles O39: the engine step commutes with giving the state another host's side, whatever the step answers. -/
theorem engineDoesNotSeeTheHost : Obligations.EngineDoesNotSeeTheHost := by
  unfold Obligations.EngineDoesNotSeeTheHost
  intro op s p ts d n
  have commutes := exec_withHostOf { s with program := p, turns := ts, readData := d, freeReads := n } s op
  cases ht : exec op s with
  | next t => rw [ht] at commutes; exact commutes
  | fault f => rw [ht] at commutes; exact commutes
  | refused r => rw [ht] at commutes; exact commutes

end Sys2Proof.Machine
end

section
/-! CLAIM O38: the frame of a SCAN body (R78, R79, R114). Every body is one emission of as many bytes as the table of R125 says, from new working
registers; what an emission leaves alone, the body leaves alone. -/

namespace Sys2Proof.Machine

variable {op : Instr} {s t : State}

theorem inPlace_iff (op : Instr) : inPlace op = true ↔ op = .pctdecIp ∨ op = .pctdecIpP := by
  cases op <;> decide

/-- In phase SCAN with input left, the engine step is the SCAN body (R114). -/
theorem scanBody_of_exec (hr : ScanReady s) (ht : exec op s = .next t) : scanBody op s = .next t := by
  obtain ⟨hp, hi, -⟩ := hr
  obtain ⟨hp', -⟩ | ⟨hp', -⟩ | ⟨-, hend, -⟩ | ⟨-, -, -, hb⟩ := exec_next ht
  · cases hp.symm.trans hp'
  · cases hp.symm.trans hp'
  · exact absurd hi hend.not_gt
  · exact hb

/-! The advances of R125. -/

theorem emitBytes_nil (op : Instr) (s : State) : emitBytes op [] s = s := by simp [emitBytes]

/-- From `s` the SCAN body of `op` makes `t` by the table of R125: I goes on by its advance, CNT, RV and FSM are new for the run codecs only, and at O as
many bytes are emitted as the table says. -/
def EmitsByTheTable (op : Instr) (s t : State) : Prop :=
  ∃ bs cnt rv fsm, bs.length = outputAdvance op s ∧
    (op ∉ [Instr.rlencZ, .rlencZf, .rldecZ, .rldecZf] → cnt = s.cnt ∧ rv = s.rv ∧ fsm = s.fsm) ∧
    t = emitBytes op bs { s with i := s.i + indexAdvance op s, cnt := cnt, rv := rv, fsm := fsm }

theorem emitsByTheTable_of_emitOut {bs : List Byte} {i cnt : Nat} {rv : Byte} {fsm : RunState}
    (ht : emitOut op bs { s with i := i, cnt := cnt, rv := rv, fsm := fsm } = .next t)
    (ho : bs.length = outputAdvance op s) (hi : i = s.i + indexAdvance op s)
    (hk : op ∉ [Instr.rlencZ, .rlencZf, .rldecZ, .rldecZf] → cnt = s.cnt ∧ rv = s.rv ∧ fsm = s.fsm) :
    EmitsByTheTable op s t := by
  subst hi
  exact ⟨bs, cnt, rv, fsm, ho, hk, (emitOut_next.1 ht).2⟩

/-- The commands without run state keep CNT, RV and FSM. -/
theorem emitsByTheTable_of_plain {bs : List Byte} {i : Nat} (ht : emitOut op bs { s with i := i } = .next t)
    (ho : bs.length = outputAdvance op s) (hi : i = s.i + indexAdvance op s) : EmitsByTheTable op s t :=
  emitsByTheTable_of_emitOut ht ho hi fun _ => ⟨rfl, rfl, rfl⟩

theorem length_percentBytes (b : Byte) : (percentBytes b).length = if unreserved b then 1 else 3 :=
  apply_ite List.length _ _ _

theorem pctdecBody_emitsByTheTable {plus : Bool} (ho : outputAdvance op s = 1)
    (hi : indexAdvance op s = if (escapeAtIndex s).isSome then 3 else 1) (ht : pctdecBody op plus s = .next t) :
    EmitsByTheTable op s t := by
  cases he : escapeAtIndex s with
  | some v =>
    rw [pctdecBody_of_escape he] at ht
    exact emitsByTheTable_of_plain ht ho.symm (by rw [hi, he]; rfl)
  | none =>
    rw [pctdecBody_of_literal he] at ht
    exact emitsByTheTable_of_plain ht ho.symm (by rw [hi, he]; rfl)

theorem rlencBody_emitsByTheTable {p : Byte → Bool} (hc : op ∈ [Instr.rlencZ, .rlencZf, .rldecZ, .rldecZf])
    (ho : outputAdvance op s = 1) (hi : indexAdvance op s = indexAdvance.rlencIndexAdvance s p)
    (ht : rlencBody op p s = .next t) : EmitsByTheTable op s t := by
  obtain ⟨hf, hp, he⟩ | ⟨hf, hp, he⟩ | ⟨hf, -, he⟩ := rlencBody_next ht
  · exact emitsByTheTable_of_emitOut he ho.symm (by simp [hi, indexAdvance.rlencIndexAdvance, hf, hp]) (absurd hc)
  · exact emitsByTheTable_of_emitOut he ho.symm (by simp [hi, indexAdvance.rlencIndexAdvance, hf, hp]) (absurd hc)
  · exact emitsByTheTable_of_emitOut he ho.symm (by simp [hi, indexAdvance.rlencIndexAdvance, hf]) (absurd hc)

theorem rldecBody_emitsByTheTable {p : Byte → Bool} (hc : op ∈ [Instr.rlencZ, .rlencZf, .rldecZ, .rldecZf])
    (ho : outputAdvance op s = outputAdvance.rldecOutputAdvance s p)
    (hi : indexAdvance op s = indexAdvance.rldecIndexAdvance s p) (ht : rldecBody op p s = .next t) :
    EmitsByTheTable op s t := by
  unfold outputAdvance.rldecOutputAdvance at ho
  unfold indexAdvance.rldecIndexAdvance at hi
  obtain ⟨hf, hp, rfl⟩ | ⟨hf, hp, he⟩ | ⟨hf, he⟩ := rldecBody_next ht
  · simp only [hf, if_pos hp] at ho hi
    exact ⟨[], (srcByte s (s.i + 1)).toNat, srcByte s s.i, .run, ho.symm, absurd hc, by rw [hi, emitBytes_nil]; rfl⟩
  · simp only [hf, if_neg hp] at ho hi
    exact emitsByTheTable_of_emitOut he ho.symm (by rw [hi]) (absurd hc)
  · simp only [hf] at ho hi
    exact emitsByTheTable_of_emitOut he (by rw [ho, List.length_replicate]) (by rw [hi]) (absurd hc)

/-- Every SCAN body advances by the table of R125. -/
theorem scanBody_emitsByTheTable (ht : scanBody op s = .next t) : EmitsByTheTable op s t := by
  cases op with
  | hexenc | hexencSw => exact emitsByTheTable_of_plain ht rfl rfl
  | pctenc => exact emitsByTheTable_of_plain ht (length_percentBytes _) rfl
  | hexdec =>
    obtain ⟨b, -, -, he⟩ := hexdecBody_next ht
    exact emitsByTheTable_of_plain he rfl rfl
  | pctdec | pctdecP | pctdecIp | pctdecIpP => exact pctdecBody_emitsByTheTable rfl rfl ht
  | rlencZ | rlencZf => exact rlencBody_emitsByTheTable (by decide) rfl rfl ht
  | rldecZ | rldecZf => exact rldecBody_emitsByTheTable (by decide) rfl rfl ht

/-! The frame of an emission. -/

/-- An emission changes bytes of the output buffer and O. -/
theorem emitBytes_frame (op : Instr) (bs : List Byte) (s : State) :
    emitBytes op bs s =
      { s with src := (emitBytes op bs s).src, dst := (emitBytes op bs s).dst, o := (emitBytes op bs s).o } := by
  unfold emitBytes
  cases inPlace op <;> rfl

theorem srcByte_emitBytes_of_not_inPlace (hp : inPlace op = false) (bs : List Byte) (s : State) (k : Nat) :
    srcByte (emitBytes op bs s) k = srcByte s k := by
  rw [srcByte_emitBytes, if_neg (by simp [hp])]

theorem dstByte_emitBytes_of_inPlace (hp : inPlace op = true) (bs : List Byte) (s : State) (k : Nat) :
    dstByte (emitBytes op bs s) k = dstByte s k := by
  rw [dstByte_emitBytes, if_neg (by simp [hp])]

theorem srcByte_emitBytes_outside {bs : List Byte} {k : Nat} (h : ¬ (s.o ≤ k ∧ k < s.o + bs.length)) :
    srcByte (emitBytes op bs s) k = srcByte s k := by
  rw [srcByte_emitBytes, if_neg fun inside => h inside.2]

theorem dstByte_emitBytes_outside {bs : List Byte} {k : Nat} (h : ¬ (s.o ≤ k ∧ k < s.o + bs.length)) :
    dstByte (emitBytes op bs s) k = dstByte s k := by
  rw [dstByte_emitBytes, if_neg fun inside => h inside.2]

/-- An in-place body emits one byte (R125). -/
theorem outputAdvance_of_inPlace (h : op = .pctdecIp ∨ op = .pctdecIpP) : outputAdvance op s = 1 := by
  obtain rfl | rfl := h
  · rfl
  · rfl

/-- Settles O38: a SCAN body is an emission by the table of R125, so it leaves what an emission leaves. -/
theorem scanWritesOnlyItsOutputBytes : Obligations.ScanWritesOnlyItsOutputBytes := by
  unfold Obligations.ScanWritesOnlyItsOutputBytes
  intro op s t hr ht
  obtain ⟨bs, cnt, rv, fsm, hlen, hkeep, rfl⟩ := scanBody_emitsByTheTable (scanBody_of_exec hr ht)
  refine ⟨?_, by simpa using hkeep, fun h1 h2 => ?_, fun h => ?_⟩
  · refine (emitBytes_frame op bs _).trans ?_
    simp only [emitBytes_i, emitBytes_cnt, emitBytes_rv, emitBytes_fsm]
  · have hp : inPlace op = false := by rw [← Bool.not_eq_true, inPlace_iff]; exact not_or.2 ⟨h1, h2⟩
    rw [← hlen]
    exact ⟨srcByte_emitBytes_of_not_inPlace hp bs _, fun k hk => dstByte_emitBytes_outside hk⟩
  · have hp : inPlace op = true := (inPlace_iff op).2 h
    rw [outputAdvance_of_inPlace h] at hlen
    refine ⟨dstByte_emitBytes_of_inPlace hp bs _, fun k hk => srcByte_emitBytes_outside ?_⟩
    rw [hlen]
    change ¬ (s.o ≤ k ∧ k < s.o + 1)
    omega

end Sys2Proof.Machine
end

section
/-! CLAIMS O1 to O4: the command word (R90 to R96). A legal word is known by its fields, so the decoder answers a command exactly on the word that the
encoder writes for it; the illegal words are those whose fields R96 names. -/

namespace Sys2Proof

variable {f : Fields} {w : Byte} {i : Instr}

/-! The fields as numbers (R90). -/

theorem fieldsOf_rsv_toNat (w : Byte) : (fieldsOf w).rsv.toNat = w.toNat / 32 := by
  have := w.isLt
  simp only [fieldsOf, BitVec.extractLsb'_toNat, Nat.shiftRight_eq_div_pow]
  omega

theorem fieldsOf_unit_toNat (w : Byte) : (fieldsOf w).unit.toNat = w.toNat % 8 := by
  simp [fieldsOf]

theorem fieldsOf_m1_iff (w : Byte) : (fieldsOf w).m1 = true ↔ w.toNat / 16 % 2 = 1 := by
  simp [fieldsOf, BitVec.getLsbD, Nat.testBit_eq_decide_div_mod_eq]

theorem fieldsOf_m0_iff (w : Byte) : (fieldsOf w).m0 = true ↔ w.toNat / 8 % 2 = 1 := by
  simp [fieldsOf, BitVec.getLsbD, Nat.testBit_eq_decide_div_mod_eq]

/-- The four fields are the whole word. -/
theorem fieldsOf_injective : Function.Injective fieldsOf := by
  intro v w h
  have rsv := fieldsOf_rsv_toNat v
  have unit := fieldsOf_unit_toNat v
  have m1 := fieldsOf_m1_iff v
  have m0 := fieldsOf_m0_iff v
  rw [h, fieldsOf_rsv_toNat] at rsv
  rw [h, fieldsOf_unit_toNat] at unit
  rw [h, fieldsOf_m1_iff] at m1
  rw [h, fieldsOf_m0_iff] at m0
  apply BitVec.eq_of_toNat_eq
  omega

/-! Legal fields (R95, R96). -/

theorem illegal_ne_none_iff :
    f.illegal ≠ none ↔
      f.rsv ≠ 0 ∨ (f.unit = 0 ∨ f.unit = 7) ∨ (f.m1 = true ∧ f.unit ≠ 4) ∨ (f.m0 = true ∧ (f.unit = 2 ∨ f.unit = 3)) := by
  unfold Fields.illegal
  split_ifs <;> simp_all

/-- Legal fields are the columns of the command they select: UNIT fixes the family, and a mode bit that the family does not use is 0. -/
theorem map_fieldsFor_commandOf (hf : f.illegal = none) : (commandOf f).map fieldsFor = some f := by
  obtain ⟨rsv, m1, m0, unit⟩ := f
  have legal := illegal_ne_none_iff.not_right.1 hf
  simp only [not_or] at legal
  obtain ⟨hrsv, hunit, hm1, hm0⟩ := legal
  obtain rfl := not_not.1 hrsv
  have range : 1 ≤ unit.toNat ∧ unit.toNat ≤ 6 := by
    simp only [← BitVec.toNat_inj, BitVec.ofNat_eq_ofNat, BitVec.toNat_ofNat] at hunit
    omega
  have number : unit = BitVec.ofNat 3 unit.toNat := by simp
  unfold commandOf
  split
  case h_7 => grind
  all_goals
    next family =>
    rw [show unit.toNat = _ from family] at number
    subst number
    cases m1 <;> cases m0 <;> simp_all [fieldsFor]

theorem commandOf_fieldsFor (i : Instr) : commandOf (fieldsFor i) = some i := by
  cases i <;> rfl

/-! The decoder (R96). -/

theorem decode_eq_some_iff_fields : decode w = some i ↔ (fieldsOf w).illegal = none ∧ commandOf (fieldsOf w) = some i := by
  unfold decode decodeByName
  cases (fieldsOf w).illegal <;> cases commandOf (fieldsOf w) <;> simp

theorem decode_eq_none_iff_fields : decode w = none ↔ (fieldsOf w).illegal ≠ none := by
  constructor
  · intro hd hf
    obtain ⟨i, hi, -⟩ := Option.map_eq_some_iff.1 (map_fieldsFor_commandOf hf)
    exact Option.some_ne_none i ((decode_eq_some_iff_fields.2 ⟨hf, hi⟩).symm.trans hd)
  · intro hf
    rw [Option.eq_none_iff_forall_ne_some]
    exact fun i hd => hf (decode_eq_some_iff_fields.1 hd).1

/-- The illegal words, by the fields as numbers (R96). -/
theorem decode_eq_none_iff (w : Byte) :
    decode w = none ↔
      (w.toNat / 32 ≠ 0 ∨ w.toNat % 8 = 0 ∨ w.toNat % 8 = 7 ∨ (w.toNat / 16 % 2 = 1 ∧ w.toNat % 8 ≠ 4) ∨
        (w.toNat / 8 % 2 = 1 ∧ (w.toNat % 8 = 2 ∨ w.toNat % 8 = 3))) := by
  rw [decode_eq_none_iff_fields, illegal_ne_none_iff, fieldsOf_m1_iff, fieldsOf_m0_iff]
  simp only [ne_eq, ← BitVec.toNat_inj, fieldsOf_rsv_toNat, fieldsOf_unit_toNat, or_assoc]
  rfl

/-- Every command has its row in the table of R95. -/
theorem tableRow : ∀ i : Instr, Laws.TableRow.Statement i
  | .hexenc => Laws.TableRow.hexenc
  | .hexencSw => Laws.TableRow.hexencSw
  | .hexdec => Laws.TableRow.hexdec
  | .pctenc => Laws.TableRow.pctenc
  | .pctdec => Laws.TableRow.pctdec
  | .pctdecP => Laws.TableRow.pctdecP
  | .pctdecIp => Laws.TableRow.pctdecIp
  | .pctdecIpP => Laws.TableRow.pctdecIpP
  | .rlencZ => Laws.TableRow.rlencZ
  | .rlencZf => Laws.TableRow.rlencZf
  | .rldecZ => Laws.TableRow.rldecZ
  | .rldecZf => Laws.TableRow.rldecZf

theorem decode_encode (i : Instr) : decode (encode i) = some i := by
  obtain ⟨-, hfields, hlegal, -⟩ := tableRow i
  rw [decode_eq_some_iff_fields, hfields]
  exact ⟨Option.isNone_iff_eq_none.1 hlegal, commandOf_fieldsFor i⟩

/-- A command has one word: the one the encoder writes. -/
theorem decode_eq_some_iff_encode : decode w = some i ↔ w = encode i := by
  constructor
  · intro hd
    obtain ⟨hf, hi⟩ := decode_eq_some_iff_fields.1 hd
    obtain ⟨-, hfields, -⟩ := tableRow i
    have columns : some (fieldsFor i) = some (fieldsOf w) := by rw [← map_fieldsFor_commandOf hf, hi, Option.map_some]
    exact fieldsOf_injective ((Option.some.inj columns).symm.trans hfields.symm)
  · rintro rfl
    exact decode_encode i

/-! The table (R95). -/

theorem mem_opcodeTable_iff : (w, i) ∈ opcodeTable ↔ w = encode i := by
  have rows : ∀ r ∈ opcodeTable, r.1 = encode r.2 := by decide
  refine ⟨rows (w, i), ?_⟩
  rintro rfl
  exact (tableRow i).1

theorem decode_eq_some_iff_row : decode w = some i ↔ (w, i) ∈ opcodeTable :=
  decode_eq_some_iff_encode.trans mem_opcodeTable_iff.symm

/-- The numbers of the legal words are those of the rows, in another order. -/
theorem legalNumbers_perm_rows :
    ((List.range 256).filter fun n => (decode (BitVec.ofNat 8 n)).isSome).Perm (opcodeTable.map fun r => r.1.toNat) := by
  rw [List.perm_ext_iff_of_nodup (List.nodup_range.filter _) (by decide)]
  intro n
  simp only [List.mem_filter, List.mem_range, Option.isSome_iff_exists, decode_eq_some_iff_row, List.mem_map, Prod.exists]
  constructor
  · rintro ⟨hn, i, hrow⟩
    exact ⟨_, i, hrow, (BitVec.toNat_ofNat n 8).trans (Nat.mod_eq_of_lt hn)⟩
  · rintro ⟨w, i, hrow, rfl⟩
    refine ⟨w.isLt, i, ?_⟩
    rwa [BitVec.ofNat_toNat, BitVec.setWidth_eq]

/-! The claims. -/

/-- Settles O1. -/
theorem decodeInvertsEncode : Obligations.DecodeInvertsEncode := by
  unfold Obligations.DecodeInvertsEncode
  exact fun i _ => decode_encode i

/-- Settles O2: the rows are the words the encoder writes; what they hold is read off the table. -/
theorem legalWordsAreTheTableRows : Obligations.LegalWordsAreTheTableRows := by
  unfold Obligations.LegalWordsAreTheTableRows
  exact ⟨fun _ _ => decode_eq_some_iff_row, by decide, by decide, by decide⟩

/-- Settles O3: the fields as numbers; and of the 256 words all but the twelve rows are illegal. -/
theorem illegalWordsByField : Obligations.IllegalWordsByField := by
  unfold Obligations.IllegalWordsByField
  refine ⟨decode_eq_none_iff, ?_⟩
  have legal := legalNumbers_perm_rows.length_eq
  have all := List.length_eq_length_filter_add (l := List.range 256) fun n => (decode (BitVec.ofNat 8 n)).isNone
  simp only [Option.not_isNone, List.length_range] at all
  rw [legal] at all
  have rows : (opcodeTable.map fun r => r.1.toNat).length = 12 := rfl
  omega

/-- Settles O4: six of the words are rows of the table; the other two have M0 = 1 with UNIT 2 and RSV = 001. -/
theorem writtenOutWordsDecode : Obligations.WrittenOutWordsDecode := by
  unfold Obligations.WrittenOutWordsDecode
  simp only [decode_eq_some_iff_row, decode_eq_none_iff]
  decide

end Sys2Proof
end

section
/-! CLAIM O6: a placed command word is issued with the engine to move next (R90, R111, log 9). -/

namespace Sys2Proof.Machine

/-- Once a word is placed, the engine moves next. -/
theorem nextAgent_placeCommand (w : Byte) (s : State) : nextAgent (placeCommand w s) = some .engine := by
  have on : (placeCommand w s).ph ≠ .off := by simp
  by_cases hl : s.program = []
  · exact nextAgent_of_alone on hl
  · rw [nextAgent_of_contested on hl]
    simp [hl]

theorem takeTurn_placeCommand_turns (w : Byte) (s : State) : (takeTurn (placeCommand w s)).turns = s.turns := by
  by_cases hl : s.program = [] <;> simp [contested, hl]

/-- The turn that placing a word adds is used up by the engine's move, which leaves the issue of the word. -/
theorem takeTurn_placeCommand (w : Byte) (s : State) : takeTurn (placeCommand w s) = issue w s :=
  calc takeTurn (placeCommand w s)
    _ = { issue w s with turns := (takeTurn (placeCommand w s)).turns } := takeTurn_frame _
    _ = { issue w s with turns := s.turns } := by rw [takeTurn_placeCommand_turns]
    _ = issue w s := rfl

/-- Settles O6: the engine takes the turn that placing the word added, and finds the word in CMD. -/
theorem placedWordRunsNext : Obligations.PlacedWordRunsNext := by
  unfold Obligations.PlacedWordRunsNext
  intro s _ w i hd
  rw [State.withFetchWord, step_of_engine (nextAgent_placeCommand _ s), takeTurn_placeCommand]
  exact engineTurn_of_decode hd

end Sys2Proof.Machine
end

section
/-! CLAIMS O21, O22, O36, O55: one engine step, phase by phase (R112, R114, R115). Each phase of `exec` has its equation; under the invariant
no phase stops. -/

namespace Sys2Proof.Machine

variable {op : Instr} {s t : State} {out : List Byte}

/-! The three phases of `exec`. -/

theorem exec_of_check (hp : s.ph = .check) (op : Instr) : exec op s = checkStep op (commandFunction op) s :=
  (exec_eq op s).trans (engineStep_check hp)

/-- In phase SCAN with the input used up, the engine step is the finish (R115). -/
theorem exec_of_scan_end (hp : s.ph = .scan) (hi : s.srcLen ≤ s.i) (op : Instr) : exec op s = .next (finish op s) := by
  rw [exec_eq, engineStep_scan hp, scanStep, if_pos hi]

/-- In phase SCAN with input left, the engine step is the SCAN body (R114). -/
theorem exec_of_scanReady (hr : ScanReady s) (op : Instr) : exec op s = scanBody op s := by
  obtain ⟨hp, hi, hc⟩ := hr
  rw [exec_eq, engineStep_scan hp, scanStep, if_neg hi.not_ge, if_neg hc.not_gt]

theorem finish_of_inPlace (h : inPlace op = true) (s : State) :
    finish op s = { s with srcLen := s.o, st := .done, ph := .off } := if_pos h

theorem finish_of_not_inPlace (h : inPlace op = false) (s : State) :
    finish op s = { s with dstLen := s.o, st := .done, ph := .off } := if_neg (by simp [h])

theorem inPlace_eq_false (h1 : op ≠ .pctdecIp) (h2 : op ≠ .pctdecIpP) : inPlace op = false := by
  rw [← Bool.not_eq_true, inPlace_iff]
  exact not_or.2 ⟨h1, h2⟩

/-! The CHECK step (R112, R113). -/

theorem exec_check_of_err {e : ErrKind} (hr : CheckReady s) (he : commandFunction op (input s) = .err e) :
    exec op s = .next (raiseError e s) :=
  (exec_of_check hr.1 op).trans (checkStep_of_err hr.2 he)

theorem exec_check_of_fits (hr : CheckReady s) (ho : commandFunction op (input s) = .ok out)
    (hf : fits op s.cfg s.srcLen out.length = true) : exec op s = .next { s with l := out.length, ph := .scan } :=
  (exec_of_check hr.1 op).trans (checkStep_of_fits hr.2 ho hf)

theorem exec_check_of_not_fits (hr : CheckReady s) (ho : commandFunction op (input s) = .ok out)
    (hf : fits op s.cfg s.srcLen out.length = false) :
    exec op s = .next (raiseError .overflow { s with l := out.length }) :=
  (exec_of_check hr.1 op).trans (checkStep_of_not_fits hr.2 ho hf)

/-! The engine's move where CMD holds no command (R72, R96, R204). -/

theorem engineTurn_of_illegal_off (hd : decode s.cmd = none) (hp : s.ph = .off) : engineTurn s = .next s := by
  rw [engineTurn, hd, hp]

theorem engineTurn_of_illegal_check (hd : decode s.cmd = none) (hp : s.ph = .check) :
    engineTurn s = .next (raiseError .illegalCommand s) := by
  rw [engineTurn, hd, hp]

/-- No run reaches this state (R35 item 6, log 12). -/
theorem engineTurn_of_illegal_scan (hd : decode s.cmd = none) (hp : s.ph = .scan) :
    engineTurn s = .fault .scanWithoutCommand := by
  rw [engineTurn, hd, hp]

/-! No phase stops. -/

theorem outCap_of_inPlace (h : inPlace op = true) (p : Config.Params) : outCap op p = p.srcCap := if_pos h

theorem outCap_of_not_inPlace (h : inPlace op = false) (p : Config.Params) : outCap op p = p.dstCap := if_neg (by simp [h])

/-- In phase SCAN a body has room in OUT for what it emits: what remains fits DST, and in place O stays behind I. -/
theorem Scanning.emitsFront (h : Scanning op out s) (hsrc : s.srcLen ≤ s.cfg.srcCap) (hc : s.cnt ≤ 255) (hi : s.i < s.srcLen) :
    ∃ bs rest u, EmitsFront op (scanBody op) (remainingOutput op) s out bs rest u ∧ s.o + bs.length ≤ outCap op s.cfg := by
  have hlen := h.length
  cases hp : inPlace op with
  | false =>
    rw [outCap_of_not_inPlace hp]
    have hfits := h.fits hp
    obtain ⟨bs, rest, u, e⟩ := scanBody_emitsFront hi hc (by rw [outCap_of_not_inPlace hp]; omega) h.remains
    have hsplit := congrArg List.length e.split
    rw [List.length_append] at hsplit
    exact ⟨bs, rest, u, e, by omega⟩
  | true =>
    rw [outCap_of_inPlace hp]
    have hbehind := h.behind hp
    obtain ⟨bs, rest, u, e⟩ := scanBody_emitsFront hi hc (by rw [outCap_of_inPlace hp]; omega) h.remains
    have hstep := e.behind hp
    have hindex := e.index
    exact ⟨bs, rest, u, e, by omega⟩

/-- Under the invariant the command in progress has a next state in every phase. -/
theorem MachineInv.exec_goesOn (h : MachineInv s) (hd : decode s.cmd = some op) : ∃ t, Machine.exec op s = .next t := by
  cases hp : s.ph with
  | off => exact ⟨s, exec_of_off hp op⟩
  | check =>
    have ready : CheckReady s := ⟨hp, h.spec.lengths.1⟩
    cases ho : commandFunction op (input s) with
    | err e => exact ⟨_, exec_check_of_err ready ho⟩
    | ok out =>
      cases hf : Machine.fits op s.cfg s.srcLen out.length with
      | true => exact ⟨_, exec_check_of_fits ready ho hf⟩
      | false => exact ⟨_, exec_check_of_not_fits ready ho hf⟩
  | scan =>
    by_cases hi : s.i < s.srcLen
    · obtain ⟨out, hs⟩ := h.scanning hp hd
      obtain ⟨bs, rest, u, e, hroom⟩ := hs.emitsFront h.spec.lengths.1 h.legal.cntRange hi
      obtain ⟨i', cnt', rv', fsm', rfl⟩ := e.frame
      rw [exec_of_scanReady ⟨hp, hi, h.spec.lengths.1⟩, e.emits]
      exact ⟨_, emitOut_next.2 ⟨hroom, rfl⟩⟩
    · exact ⟨_, exec_of_scan_end hp (not_lt.1 hi) op⟩

/-- Under the invariant the engine's move has a next state: CMD holds a command in phase SCAN (R35 item 6). -/
theorem MachineInv.engineTurn_goesOn (h : MachineInv s) : ∃ t, Machine.engineTurn s = .next t := by
  cases hd : decode s.cmd with
  | some op =>
    obtain ⟨t, ht⟩ := h.exec_goesOn hd
    exact ⟨t, (engineTurn_of_decode hd).trans ht⟩
  | none =>
    cases hp : s.ph with
    | off => exact ⟨s, engineTurn_of_illegal_off hd hp⟩
    | check => exact ⟨_, engineTurn_of_illegal_check hd hp⟩
    | scan =>
      obtain ⟨op, out, hs⟩ := scanAgrees_iff.1 (h.scan hp)
      cases hd.symm.trans hs.command

/-! The claims. -/

/-- Settles O55: rest and the host's move always go on, and the engine's move does under the invariant. -/
theorem noStepStops : Obligations.NoStepStops := by
  unfold Obligations.NoStepStops
  intro s h
  unfold step
  cases nextAgent s with
  | none => exact ⟨_, rfl⟩
  | some agent =>
    cases agent with
    | host => exact ⟨_, rfl⟩
    | engine => exact h.takeTurn.engineTurn_goesOn

/-- Settles O21: the accepting case of the CHECK step. -/
theorem checkAcceptsAndMeasures : Obligations.CheckAcceptsAndMeasures :=
  fun _ _ _ hr ho hf => exec_check_of_fits hr ho hf

/-- Settles O22: the function fails, or its result fits, or it does not. -/
theorem checkStepHasThreeOutcomes : Obligations.CheckStepHasThreeOutcomes := by
  unfold Obligations.CheckStepHasThreeOutcomes
  intro op s hr
  cases ho : commandFunction op (input s) with
  | err e => exact .inr (.inl ⟨e, rfl, exec_check_of_err hr ho⟩)
  | ok out =>
    cases hf : fits op s.cfg s.srcLen out.length with
    | true => exact .inl ⟨out, rfl, exec_check_of_fits hr ho hf⟩
    | false => exact .inr (.inr ⟨out, rfl, exec_check_of_not_fits hr ho hf⟩)

/-- Settles O36: the finish, by where the command delivers. -/
theorem finishDeliversTheLength : Obligations.FinishDeliversTheLength := by
  unfold Obligations.FinishDeliversTheLength
  intro op s hp hi
  rw [exec_of_scan_end hp hi]
  exact ⟨fun h => congrArg _ (finish_of_inPlace ((inPlace_iff op).2 h) s),
    fun h1 h2 => congrArg _ (finish_of_not_inPlace (inPlace_eq_false h1 h2) s)⟩

end Sys2Proof.Machine
end

section
/-! CLAIM O37: the advances of I and O per SCAN body (R125, R126), and what ends a scan: every body moves I on, or opens a run at an unmoved I. -/

namespace Sys2Proof.Machine

variable {op : Instr} {s t u : State} {bs : List Byte}

/-- An emission leaves I and FSM at the new values of the body. -/
theorem emitOut_working (h : emitOut op bs u = .next t) : t.i = u.i ∧ t.fsm = u.fsm := by
  obtain ⟨-, rfl⟩ := emitOut_next.1 h
  exact ⟨emitBytes_i .., emitBytes_fsm ..⟩

/-- The SCAN step from `s` to `t` moves I on, or opens a run where I is. -/
def MovesOn (s t : State) : Prop := s.i < t.i ∨ (t.i = s.i ∧ s.fsm = .copy ∧ t.fsm = .run)

theorem movesOn_of_emitOut (h : emitOut op bs u = .next t) (hi : s.i < u.i) : MovesOn s t :=
  .inl ((emitOut_working h).1 ▸ hi)

theorem pctdecBody_movesOn {plus : Bool} (h : pctdecBody op plus s = .next t) : MovesOn s t := by
  cases he : escapeAtIndex s with
  | some v =>
    rw [pctdecBody_of_escape he] at h
    exact movesOn_of_emitOut h (Nat.lt_add_of_pos_right (by decide))
  | none =>
    rw [pctdecBody_of_literal he] at h
    exact movesOn_of_emitOut h (Nat.lt_succ_self _)

theorem rlencBody_movesOn {p : Byte → Bool} (h : rlencBody op p s = .next t) : MovesOn s t := by
  obtain ⟨hf, -, he⟩ | ⟨-, -, he⟩ | ⟨-, hr, he⟩ := rlencBody_next h
  · exact .inr ⟨(emitOut_working he).1, hf, (emitOut_working he).2⟩
  · exact movesOn_of_emitOut he (Nat.lt_succ_self _)
  · exact movesOn_of_emitOut he (Nat.lt_add_of_pos_right (Nat.pos_of_ne_zero hr))

theorem rldecBody_movesOn {p : Byte → Bool} (h : rldecBody op p s = .next t) : MovesOn s t := by
  obtain ⟨hf, -, rfl⟩ | ⟨-, -, he⟩ | ⟨-, he⟩ := rldecBody_next h
  · exact .inr ⟨rfl, hf, rfl⟩
  · exact movesOn_of_emitOut he (Nat.lt_succ_self _)
  · exact movesOn_of_emitOut he (Nat.lt_add_of_pos_right (by decide))

theorem scanBody_movesOn (h : scanBody op s = .next t) : MovesOn s t := by
  cases op with
  | hexenc | hexencSw | pctenc => exact movesOn_of_emitOut h (Nat.lt_succ_self _)
  | hexdec =>
    obtain ⟨b, -, -, he⟩ := hexdecBody_next h
    exact movesOn_of_emitOut he (Nat.lt_add_of_pos_right (by decide))
  | pctdec | pctdecP | pctdecIp | pctdecIpP => exact pctdecBody_movesOn h
  | rlencZ | rlencZf => exact rlencBody_movesOn h
  | rldecZ | rldecZf => exact rldecBody_movesOn h

/-! The RUN bodies return to COPY (R176, R177). -/

theorem rlencBody_fsm_of_run {p : Byte → Bool} (hf : s.fsm = .run) (h : rlencBody op p s = .next t) : t.fsm = .copy := by
  obtain ⟨hc, -⟩ | ⟨hc, -⟩ | ⟨-, -, he⟩ := rlencBody_next h
  · cases hf.symm.trans hc
  · cases hf.symm.trans hc
  · exact (emitOut_working he).2

theorem rldecBody_fsm_of_run {p : Byte → Bool} (hf : s.fsm = .run) (h : rldecBody op p s = .next t) : t.fsm = .copy := by
  rw [rldecBody_of_run hf] at h
  exact (emitOut_working h).2

theorem scanBody_fsm_of_run (hc : op ∈ [Instr.rlencZ, .rlencZf, .rldecZ, .rldecZf]) (hf : s.fsm = .run)
    (h : scanBody op s = .next t) : t.fsm = .copy := by
  cases op with
  | rlencZ | rlencZf => exact rlencBody_fsm_of_run hf h
  | rldecZ | rldecZf => exact rldecBody_fsm_of_run hf h
  | hexenc | hexencSw | hexdec | pctenc | pctdec | pctdecP | pctdecIp | pctdecIpP => exact absurd hc (by decide)

/-- Settles O37: a SCAN body is an emission by the table of R125, from an I advanced by the table. -/
theorem scanAdvancesAsTheTable : Obligations.ScanAdvancesAsTheTable := by
  unfold Obligations.ScanAdvancesAsTheTable
  intro op s t hr ht
  have hb := scanBody_of_exec hr ht
  have run_closes := fun hf hc => scanBody_fsm_of_run (s := s) hc hf hb
  obtain ⟨bs, cnt, rv, fsm, hlen, -, rfl⟩ := scanBody_emitsByTheTable hb
  refine ⟨emitBytes_i .., (emitBytes_o ..).trans (congrArg (s.o + ·) hlen), run_closes, bs, hlen, fun h1 h2 => ?_, fun h => ?_⟩
  · simp [inPlace_eq_false h1 h2]
  · simp [(inPlace_iff op).2 h]

end Sys2Proof.Machine
end

section
/-! SUPPORT. Runs of the engine alone, and that the host's transactions other than Reset only stretch them: whatever the interleaving, the block goes through
the same states, one step later for each transaction (R8, R72, R73, R254). -/

namespace Sys2Proof.Machine

variable {s t : State} {n : Nat}

/-- From `s` the engine gets to `t` in `n` moves of a BUSY block, the host standing still. -/
inductive EngineRun : Nat → State → State → Prop where
  /-- No move. -/
  | refl (s : State) : EngineRun 0 s s
  /-- One move, then the others. -/
  | head {n : Nat} {s u t : State} (busy : s.st = .busy) (on : s.ph ≠ .off) (move : engineTurn s = .next u)
      (rest : EngineRun n u t) : EngineRun (n + 1) s t

theorem EngineRun.single (busy : s.st = .busy) (on : s.ph ≠ .off) (move : engineTurn s = .next t) : EngineRun 1 s t :=
  .head busy on move (.refl t)

theorem engineTurn_withHostOf (h s : State) : engineTurn (withHostOf h s) = mapNext (withHostOf h) (engineTurn s) := by
  cases hd : decode s.cmd with
  | some op => rw [engineTurn_of_decode hd, engineTurn_of_decode (s := withHostOf h s) hd, exec_withHostOf]
  | none =>
    cases hp : s.ph with
    | off => rw [engineTurn_of_illegal_off hd hp, engineTurn_of_illegal_off (s := withHostOf h s) hd hp, mapNext]
    | check =>
      rw [engineTurn_of_illegal_check hd hp, engineTurn_of_illegal_check (s := withHostOf h s) hd hp]
      rfl
    | scan => rw [engineTurn_of_illegal_scan hd hp, engineTurn_of_illegal_scan (s := withHostOf h s) hd hp, mapNext]

theorem takeTurn_withHostOf (h s : State) : takeTurn (withHostOf h s) = withHostOf (takeTurn (withHostOf h s)) s := by
  conv_lhs => rw [takeTurn_frame]
  simp only [withHostOf, takeTurn_program, takeTurn_readData, takeTurn_freeReads]

theorem step_of_host {x : Transaction} {xs : List Transaction} (ha : nextAgent s = some .host) (hl : s.program = x :: xs) :
    step s = .next (transact x { takeTurn s with program := xs }) := by
  rw [step, ha]
  dsimp only
  rw [hostTurn, takeTurn_program, hl]

/-- Where the engine can move, a step is the engine's move, or uses up a transaction and leaves the block as it is. -/
theorem step_withHostOf {h : State} (hb : s.st = .busy) (hp : s.ph ≠ .off) (hr : Transaction.reset ∉ h.program) :
    (∃ g, g.program = h.program ∧ step (withHostOf h s) = mapNext (withHostOf g) (engineTurn s)) ∨
    (∃ g x, h.program = x :: g.program ∧ step (withHostOf h s) = .next (withHostOf g s)) := by
  obtain ⟨-, off, -⟩ | ⟨ha, hl⟩ | ⟨ha, -⟩ := nextAgent_cases (withHostOf h s)
  · exact absurd off hp
  · obtain ⟨x, xs, hx⟩ := List.exists_cons_of_ne_nil hl
    have hx' : h.program = x :: xs := hx
    have not_reset : x ≠ .reset := by
      rintro rfl
      exact hr (hx' ▸ List.mem_cons_self)
    have busy : State.st { takeTurn (withHostOf h s) with program := xs } = .busy := (takeTurn_st _).trans hb
    obtain ⟨d, n, ht⟩ := transact_of_busy busy not_reset
    refine .inr ⟨{ takeTurn (withHostOf h s) with program := xs, readData := d, freeReads := n }, x, hx', ?_⟩
    rw [step_of_host ha hx, ht]
    conv_lhs => rw [takeTurn_withHostOf]
    rfl
  · refine .inl ⟨takeTurn (withHostOf h s), takeTurn_program _, ?_⟩
    rw [step_of_engine ha]
    conv_lhs => rw [takeTurn_withHostOf, engineTurn_withHostOf]

/-- Any host without a Reset and any interleaving let the engine's run through, at the cost of one step per transaction. -/
theorem EngineRun.withHostOf (hrun : EngineRun n s t) (h : State) (hr : Transaction.reset ∉ h.program) :
    ∃ k g, k ≤ n + h.program.length ∧ runSteps k (withHostOf h s) = .next (withHostOf g t) := by
  induction hrun generalizing h with
  | refl s => exact ⟨0, h, Nat.zero_le _, rfl⟩
  | @head n s u t busy on move rest ih =>
    have after_move {h g : State} (hg : g.program = h.program) (hr : Transaction.reset ∉ h.program)
        (hs : step (Machine.withHostOf h s) = mapNext (Machine.withHostOf g) (engineTurn s)) :
        ∃ k g', k ≤ n + 1 + h.program.length ∧ runSteps k (Machine.withHostOf h s) = .next (Machine.withHostOf g' t) := by
      rw [move] at hs
      obtain ⟨k, g', hk, hrun⟩ := ih g (hg ▸ hr)
      exact ⟨k + 1, g', by rw [hg] at hk; omega, (runSteps_succ k hs).trans hrun⟩
    induction hp : h.program generalizing h with
    | nil =>
      obtain ⟨g, hg, hs⟩ | ⟨g, x, hx, -⟩ := step_withHostOf busy on hr
      · exact hp ▸ after_move hg hr hs
      · cases hp.symm.trans hx
    | cons y ys ihp =>
      obtain ⟨g, hg, hs⟩ | ⟨g, x, hx, hs⟩ := step_withHostOf busy on hr
      · exact hp ▸ after_move hg hr hs
      · obtain ⟨rfl, hys⟩ := List.cons.inj (hx.symm.trans hp)
        obtain ⟨k, g', hk, hrun⟩ := ihp g (fun hmem => hr (hx ▸ List.mem_cons_of_mem _ hmem)) hys
        exact ⟨k + 1, g', Nat.succ_le_succ hk, (runSteps_succ k hs).trans hrun⟩

/-- The same, from the state as it stands. -/
theorem EngineRun.runSteps (hrun : EngineRun n s t) (hr : Transaction.reset ∉ s.program) :
    ∃ k g, k ≤ n + s.program.length ∧ Machine.runSteps k s = .next (Machine.withHostOf g t) :=
  hrun.withHostOf s hr

end Sys2Proof.Machine
end

section
/-! CLAIMS O57, O58: the whole operation (R117, R130). The engine's SCAN steps emit what remains, front by front, so that their effect is one emission of all of it;
each of them moves I on or opens a run, so there are at most two per input byte. -/

namespace Sys2Proof.Machine

variable {op : Instr} {s t g : State} {out : List Byte} {cnt : Nat} {rv : Byte}

/-! How many SCAN bodies can be left (R117). -/

/-- A bound on the SCAN bodies to come: two per unread byte, of which an open run has used one. -/
def bodiesLeft (s : State) : Nat :=
  match s.fsm with
  | .copy => 2 * (s.srcLen - s.i)
  | .run => 2 * (s.srcLen - s.i) - 1

theorem bodiesLeft_of_copy (h : s.fsm = .copy) : bodiesLeft s = 2 * (s.srcLen - s.i) := by rw [bodiesLeft, h]

theorem bodiesLeft_of_run (h : s.fsm = .run) : bodiesLeft s = 2 * (s.srcLen - s.i) - 1 := by rw [bodiesLeft, h]

theorem bodiesLeft_bounds (s : State) : 2 * (s.srcLen - s.i) - 1 ≤ bodiesLeft s ∧ bodiesLeft s ≤ 2 * (s.srcLen - s.i) := by
  cases h : s.fsm with
  | copy => rw [bodiesLeft_of_copy h]; omega
  | run => rw [bodiesLeft_of_run h]; omega

theorem MovesOn.bodiesLeft_lt (h : MovesOn s t) (hi : s.i < s.srcLen) (hn : t.srcLen = s.srcLen) :
    bodiesLeft t < bodiesLeft s := by
  obtain hlt | ⟨hi', hs, ht⟩ := h
  · have := bodiesLeft_bounds s
    have := bodiesLeft_bounds t
    omega
  · rw [bodiesLeft_of_copy hs, bodiesLeft_of_run ht]
    omega

/-! The scan as one emission (R114). -/

/-- The state at the end of a scan from `s` that emits `out`: O has gone on by as many bytes, I is at the end of the input, and no run is open. -/
def scanned (op : Instr) (out : List Byte) (cnt : Nat) (rv : Byte) (s : State) : State :=
  emitBytes op out { s with i := s.srcLen, cnt := cnt, rv := rv, fsm := .copy }

theorem scanned_nil (hi : s.i = s.srcLen) (hf : s.fsm = .copy) : scanned op [] s.cnt s.rv s = s := by
  rw [scanned, emitBytes_nil, ← hf]
  exact congrArg (fun i => { s with i := i }) hi.symm

/-- The front of the output emitted by one body, then the rest by the others, make one scan. -/
theorem scanned_emitBytes (op : Instr) (bs rest : List Byte) (s : State) (i cnt cnt' : Nat) (rv rv' : Byte) (fsm : RunState) :
    scanned op rest cnt rv (emitBytes op bs { s with i := i, cnt := cnt', rv := rv', fsm := fsm }) =
      scanned op (bs ++ rest) cnt rv s := by
  unfold scanned emitBytes
  cases inPlace op <;> simp [Memory.writeAll_append, Nat.add_assoc]

/-- From a state in which `out` remains, at most `bodiesLeft` SCAN bodies and the finish complete the operation, and they emit `out`. -/
theorem Scanning.engineRun (h : Scanning op out s) (hp : s.ph = .scan) (hb : s.st = .busy) (hsrc : s.srcLen ≤ s.cfg.srcCap)
    (hc : s.cnt ≤ 255) : ∃ n cnt rv, n ≤ bodiesLeft s + 1 ∧ EngineRun n s (finish op (scanned op out cnt rv s)) := by
  induction hm : bodiesLeft s using Nat.strong_induction_on generalizing s out with
  | _ m ih =>
    have on : s.ph ≠ .off := by simp [hp]
    by_cases hi : s.i < s.srcLen
    · obtain ⟨bs, rest, u, e, hroom⟩ := h.emitsFront hsrc hc hi
      obtain ⟨i', cnt', rv', fsm', rfl⟩ := e.frame
      have body : scanBody op s = .next _ := e.emits.trans (emitOut_next.2 ⟨hroom, rfl⟩)
      have move := (engineTurn_of_decode h.command).trans ((exec_of_scanReady ⟨hp, hi, hsrc⟩ op).trans body)
      have fewer := (scanBody_movesOn body).bodiesLeft_lt hi (emitBytes_srcLen ..)
      obtain ⟨n, cnt, rv, hn, run⟩ := ih _ (hm ▸ fewer) (h.emit e) (by simpa using hp) (by simpa using hb) (by simpa using hsrc)
        (by simpa using e.count) rfl
      rw [scanned_emitBytes, ← e.split] at run
      exact ⟨n + 1, cnt, rv, by omega, .head hb on move run⟩
    · have used_up : s.srcLen ≤ s.i := not_lt.1 hi
      obtain ⟨hf, rfl⟩ := remainingOutput_at_end (unread_eq_nil s used_up) h.remains
      refine ⟨1, s.cnt, s.rv, by omega, .single hb on ?_⟩
      rw [engineTurn_of_decode h.command, exec_of_scan_end hp used_up, scanned_nil (h.index.antisymm used_up) hf]

/-! The whole operation, the host standing still (R112, R130). -/

/-- What an accepted CHECK step opens: nothing is emitted, and the whole result remains. -/
theorem scanning_of_fresh (hn : FreshOperation s) (hd : decode s.cmd = some op) (ho : commandFunction op (input s) = .ok out)
    (hf : fits op s.cfg s.srcLen out.length = true) : Scanning op out { s with l := out.length, ph := .scan } := by
  obtain ⟨⟨hi, hzero, -, -⟩, -, hfsm⟩ := hn
  exact
    { command := hd
      remains := remainingOutput_of_start hfsm hi ho
      length := by simp [hzero]
      index := by simp [hi]
      fits := fun hp => length_le_of_fits hp ho hf
      behind := by simp [hzero]
      written := by simp [hzero] }

section
variable (hr : CheckReady s) (hb : s.st = .busy) (hd : decode s.cmd = some op)
include hr hb hd

theorem engineRun_of_exec_check (ht : exec op s = .next t) : EngineRun 1 s t :=
  .single hb (by simp [hr.1]) ((engineTurn_of_decode hd).trans ht)

/-- The operation whose result fits: the CHECK step, at most two SCAN bodies per byte, and the finish. -/
theorem engineRun_of_fits (hn : FreshOperation s) (ho : commandFunction op (input s) = .ok out)
    (hf : fits op s.cfg s.srcLen out.length = true) :
    ∃ n cnt rv, n ≤ 2 * s.srcLen + 2 ∧
      EngineRun n s (finish op (scanned op out cnt rv { s with l := out.length, ph := .scan })) := by
  have few : s.cnt ≤ 255 := by simp [hn.zero]
  obtain ⟨n, cnt, rv, hle, run⟩ := (scanning_of_fresh hn hd ho hf).engineRun rfl hb hr.2 few
  have bound := (bodiesLeft_bounds { s with l := out.length, ph := .scan }).2
  dsimp only at bound
  refine ⟨n + 1, cnt, rv, by omega, .head hb (by simp [hr.1]) ?_ run⟩
  rw [engineTurn_of_decode hd, exec_check_of_fits hr ho hf]

end

/-! What the operation delivers (R115, R130). -/

theorem dstSlice_emitBytes (hp : inPlace op = false) (out : List Byte) (s : State) :
    dstSlice (emitBytes op out s) s.o out.length = out := by
  refine List.ext_getElem (length_dstSlice ..) fun k _ hk => ?_
  simp [dstSlice, dstByte_emitBytes, hp, hk]

theorem srcSlice_emitBytes (hp : inPlace op = true) (out : List Byte) (s : State) :
    srcSlice (emitBytes op out s) s.o out.length = out := by
  refine List.ext_getElem (length_srcSlice ..) fun k _ hk => ?_
  simp [srcSlice, srcByte_emitBytes, hp, hk]

/-- What the finish of a scan leaves of the state that the scan started from. -/
theorem finish_scanned (op : Instr) (out : List Byte) (cnt : Nat) (rv : Byte) (s : State) :
    finish op (scanned op out cnt rv s) =
      { s with
        src := (emitBytes op out s).src, srcLen := if inPlace op then s.o + out.length else s.srcLen
        dst := (emitBytes op out s).dst, dstLen := if inPlace op then s.dstLen else s.o + out.length
        st := .done, ph := .off, i := s.srcLen, o := s.o + out.length, cnt := cnt, rv := rv, fsm := .copy } := by
  unfold scanned finish emitBytes
  cases inPlace op <;> rfl

/-- A command that delivers to DST leaves the result there, and SRC as it was. -/
theorem delivered_dst (hp : inPlace op = false) (ho : s.o = 0) (ht : t = withHostOf g (finish op (scanned op out cnt rv s))) :
    t.dstLen = out.length ∧ dstSlice t 0 out.length = out ∧ (∀ j, out.length ≤ j → dstByte t j = dstByte s j) ∧
      t.src = s.src ∧ t.srcLen = s.srcLen := by
  rw [finish_scanned, withHostOf] at ht
  have bytes (j : Nat) : dstByte t j = dstByte (emitBytes op out s) j := dstByte_congr (by rw [ht]) j
  refine ⟨by simp [ht, hp, ho], ?_, fun j hj => ?_, by simp [ht, hp], by simp [ht, hp]⟩
  · rw [dstSlice_congr t (emitBytes op out s) _ _ fun j _ _ => bytes j]
    exact ho ▸ dstSlice_emitBytes hp out s
  · rw [bytes, dstByte_emitBytes_outside (by omega)]

/-- An in-place command leaves the result at the front of SRC, and DST as it was. -/
theorem delivered_src (hp : inPlace op = true) (ho : s.o = 0) (ht : t = withHostOf g (finish op (scanned op out cnt rv s))) :
    t.srcLen = out.length ∧ srcSlice t 0 out.length = out ∧ (∀ j, out.length ≤ j → srcByte t j = srcByte s j) ∧
      t.dst = s.dst ∧ t.dstLen = s.dstLen := by
  rw [finish_scanned, withHostOf] at ht
  have bytes (j : Nat) : srcByte t j = srcByte (emitBytes op out s) j := srcByte_congr (by rw [ht]) j
  refine ⟨by simp [ht, hp, ho], ?_, fun j hj => ?_, by simp [ht, hp], by simp [ht, hp]⟩
  · rw [srcSlice_congr t (emitBytes op out s) _ _ fun j _ _ => bytes j]
    exact ho ▸ srcSlice_emitBytes hp out s
  · rw [bytes, srcByte_emitBytes_outside (by omega)]

/-! The claims. -/

/-- Settles O57: the engine's own run of the operation, let through by the host. -/
theorem operationComputesItsFunction : Obligations.OperationComputesItsFunction := by
  unfold Obligations.OperationComputesItsFunction
  intro s op hr hn hb hreset hd
  refine ⟨fun e he => ?_, fun out ho hf => ?_, fun out ho hf => ?_⟩
  · obtain ⟨k, g, hk, run⟩ := (engineRun_of_exec_check hr hb hd (exec_check_of_err hr he)).runSteps hreset
    exact ⟨k, _, hk, run, rfl⟩
  · obtain ⟨k, g, hk, run⟩ := (engineRun_of_exec_check hr hb hd (exec_check_of_not_fits hr ho hf)).runSteps hreset
    exact ⟨k, _, hk, run, rfl⟩
  · obtain ⟨n, cnt, rv, hle, engine⟩ := engineRun_of_fits hr hb hd hn ho hf
    obtain ⟨k, g, hk, run⟩ := engine.runSteps hreset
    obtain ⟨-, hzero, -, -⟩ := hn.zero
    refine ⟨k, _, by omega, run, ?_, fun hp => delivered_dst (s := { s with l := out.length, ph := .scan }) hp hzero rfl,
      fun hp => delivered_src (s := { s with l := out.length, ph := .scan }) hp hzero rfl⟩
    rw [finish_scanned]
    simp only [hzero, Nat.zero_add]
    rfl

/-- Under the invariant the engine alone completes what is in progress: an illegal command in its CHECK step, a command by its CHECK step or by
the finish of its scan. -/
theorem MachineInv.engineRun_done (h : MachineInv s) (hb : s.st = .busy) :
    ∃ n t, n ≤ 2 * s.srcLen + 2 ∧ EngineRun n s t ∧ t.st = .done := by
  have on : s.ph ≠ .off := h.spec.busyIffPhase.1 hb
  cases hp : s.ph with
  | off => exact absurd hp on
  | check =>
    have ready : CheckReady s := ⟨hp, h.spec.lengths.1⟩
    cases hd : decode s.cmd with
    | none => exact ⟨1, _, by omega, .single hb on (engineTurn_of_illegal_check hd hp), rfl⟩
    | some op =>
      cases ho : commandFunction op (input s) with
      | err e => exact ⟨1, _, by omega, engineRun_of_exec_check ready hb hd (exec_check_of_err ready ho), rfl⟩
      | ok out =>
        cases hf : Machine.fits op s.cfg s.srcLen out.length with
        | false => exact ⟨1, _, by omega, engineRun_of_exec_check ready hb hd (exec_check_of_not_fits ready ho hf), rfl⟩
        | true =>
          obtain ⟨n, cnt, rv, hle, run⟩ := engineRun_of_fits ready hb hd (h.fresh hp) ho hf
          exact ⟨n, _, hle, run, finish_st ..⟩
  | scan =>
    obtain ⟨op, out, hs⟩ := scanAgrees_iff.1 (h.scan hp)
    obtain ⟨n, cnt, rv, hle, run⟩ := hs.engineRun hp hb h.spec.lengths.1 h.legal.cntRange
    have bound := (bodiesLeft_bounds s).2
    exact ⟨n, _, by omega, run, finish_st ..⟩

/-- Settles O58: the engine's own run to DONE, let through by the host. -/
theorem everyIssuedOperationCompletes : Obligations.EveryIssuedOperationCompletes := by
  unfold Obligations.EveryIssuedOperationCompletes
  intro s h hb hreset
  obtain ⟨n, t, hle, engine, done⟩ := h.engineRun_done hb
  obtain ⟨k, g, hk, run⟩ := engine.runSteps hreset
  exact ⟨k, _, by omega, run, done⟩

end Sys2Proof.Machine
end

section
/-! CLAIMS O11, O28: issuing a command (R111), and which command functions can fail (R129, R205). -/

namespace Sys2Proof.Machine

/-! Issue (R111). -/

theorem ofNat_mod_256 (v : Nat) : BitVec.ofNat 8 (v % 256) = BitVec.ofNat 8 v :=
  BitVec.eq_of_toNat_eq (by simp)

/-- Settles O11: outside an operation the write is an issue of the low byte. -/
theorem commandWriteIssues : Obligations.CommandWriteIssues := by
  unfold Obligations.CommandWriteIssues
  intro s v
  refine ⟨fun hst => ?_, fun hst => transact_regWrite_of_busy hst 0 v⟩
  rw [transact_regWrite_cmd hst, ofNat_mod_256, issue]

/-! Which functions fail (R129, R142, R205). -/

theorem hexPair_eq_none_iff (h l : Byte) : hexPair h l = none ↔ hexval h = none ∨ hexval l = none := by
  unfold hexPair
  cases hexval h <;> cases hexval l <;> simp

theorem hexPairs_cons_cons_eq_none_iff (h l : Byte) (bs : List Byte) :
    hexPairs (h :: l :: bs) = none ↔ hexPair h l = none ∨ hexPairs bs = none := by
  rw [hexPairs]
  cases hexPair h l <;> cases hexPairs bs <;> simp

/-- On a whole number of pairs the loop fails exactly where a character is no digit. -/
theorem hexPairs_eq_none_iff : ∀ bs : List Byte, bs.length % 2 = 0 → (hexPairs bs = none ↔ ∃ c ∈ bs, hexval c = none)
  | [], _ => by simp [hexPairs]
  | [c], even => by simp at even
  | h :: l :: bs, even => by
    have even' : bs.length % 2 = 0 := by simp only [List.length_cons] at even; omega
    rw [hexPairs_cons_cons_eq_none_iff, hexPair_eq_none_iff, hexPairs_eq_none_iff bs even']
    simp [or_assoc]

theorem fHexdec_of_odd {bs : List Byte} (odd : bs.length % 2 = 1) : fHexdec bs = .err .invalidLength := if_pos odd

theorem fHexdec_of_pairs_none {bs : List Byte} (even : bs.length % 2 = 0) (h : hexPairs bs = none) :
    fHexdec bs = .err .invalidCharacter := by
  rw [fHexdec, if_neg (by omega), h]

/-- Every function but HEXDEC's is a total map on byte sequences. -/
theorem commandFunction_eq_ok {op : Instr} (hop : op ≠ .hexdec) (bs : List Byte) : ∃ out, commandFunction op bs = .ok out := by
  cases op with
  | hexdec => exact absurd rfl hop
  | hexenc | hexencSw | pctenc | pctdec | pctdecP | pctdecIp | pctdecIpP | rlencZ | rlencZf | rldecZ | rldecZf => exact ⟨_, rfl⟩

/-- Settles O28: the length is tested first, then the characters. -/
theorem onlyHexdecHasAFailingFunction : Obligations.OnlyHexdecHasAFailingFunction := by
  unfold Obligations.OnlyHexdecHasAFailingFunction
  refine ⟨fun op bs hop => commandFunction_eq_ok hop bs, fun bs => ⟨fHexdec_of_odd, fun even bad => ?_, fun even digits => ?_⟩⟩
  · exact fHexdec_of_pairs_none even ((hexPairs_eq_none_iff bs even).2 bad)
  · have pairs : hexPairs bs ≠ none := fun none_eq =>
      let ⟨c, hc, bad⟩ := (hexPairs_eq_none_iff bs even).1 none_eq
      digits c hc bad
    obtain ⟨out, ho⟩ := Option.ne_none_iff_exists'.1 pairs
    exact ⟨out, (fHexdec_eq_ok_iff bs out).2 ⟨even, ho⟩⟩

end Sys2Proof.Machine
end

section
/-! CLAIM O20: the helper functions on bytes and nibbles, each as a function of numbers (R118 to R122). -/

namespace Sys2Proof.Machine

/-! Digits (R118, R119). -/

theorem toNat_loHex (n : Nibble) : (loHex n).toNat = if n.toNat ≤ 9 then 0x30 + n.toNat else 0x61 + (n.toNat - 10) := by
  have := n.isLt
  unfold loHex
  split <;> rw [BitVec.toNat_ofNat, Nat.mod_eq_of_lt (by omega)]

theorem toNat_upHex (n : Nibble) : (upHex n).toNat = if n.toNat ≤ 9 then 0x30 + n.toNat else 0x41 + (n.toNat - 10) := by
  have := n.isLt
  unfold upHex
  split <;> rw [BitVec.toNat_ofNat, Nat.mod_eq_of_lt (by omega)]

theorem hexval_of_digit {c : Byte} {d : Nat} (hd : d < 10) (hc : c.toNat = 0x30 + d) : hexval c = some (BitVec.ofNat 4 d) := by
  rw [hexval, if_pos (by omega), hc, Nat.add_sub_cancel_left]

theorem hexval_of_lower {c : Byte} {d : Nat} (hd : d < 6) (hc : c.toNat = 0x61 + d) :
    hexval c = some (BitVec.ofNat 4 (10 + d)) := by
  rw [hexval, if_neg (by omega), if_pos (by omega), hc, Nat.add_sub_cancel_left, Nat.add_comm d]

theorem hexval_of_upper {c : Byte} {d : Nat} (hd : d < 6) (hc : c.toNat = 0x41 + d) :
    hexval c = some (BitVec.ofNat 4 (10 + d)) := by
  rw [hexval, if_neg (by omega), if_neg (by omega), if_pos (by omega), hc, Nat.add_sub_cancel_left, Nat.add_comm d]

theorem hexval_loHex (n : Nibble) : hexval (loHex n) = some n := by
  have small := n.isLt
  have value := toNat_loHex n
  split at value
  · next digit => rw [hexval_of_digit (by omega) value]; simp
  · next letter => rw [hexval_of_lower (d := n.toNat - 10) (by omega) value, Nat.add_sub_cancel' (by omega)]; simp

theorem hexval_upHex (n : Nibble) : hexval (upHex n) = some n := by
  have small := n.isLt
  have value := toNat_upHex n
  split at value
  · next digit => rw [hexval_of_digit (by omega) value]; simp
  · next letter => rw [hexval_of_upper (d := n.toNat - 10) (by omega) value, Nat.add_sub_cancel' (by omega)]; simp

/-! Membership and nibbles (R120 to R122). -/

theorem unreserved_iff (b : Byte) :
    unreserved b = true ↔
      (0x41 ≤ b.toNat ∧ b.toNat ≤ 0x5A) ∨ (0x61 ≤ b.toNat ∧ b.toNat ≤ 0x7A) ∨ (0x30 ≤ b.toNat ∧ b.toNat ≤ 0x39) ∨
        b = 0x2D ∨ b = 0x2E ∨ b = 0x5F ∨ b = 0x7E := by
  simp [unreserved, or_assoc]

theorem toNat_hiNibble (b : Byte) : (hiNibble b).toNat = b.toNat / 16 := by
  have := b.isLt
  simp only [hiNibble, BitVec.extractLsb'_toNat, Nat.shiftRight_eq_div_pow]
  omega

theorem toNat_loNibble (b : Byte) : (loNibble b).toNat = b.toNat % 16 := by simp [loNibble]

theorem toNat_combine (h l : Nibble) : (combine h l).toNat = 16 * h.toNat + l.toNat := by
  have low : l.toNat < 2 ^ 4 := l.isLt
  rw [combine, BitVec.toNat_append, ← Nat.shiftLeft_add_eq_or_of_lt low, Nat.shiftLeft_eq, Nat.mul_comm]

/-- Settles O20: each helper by its own equation; the three tables by evaluation. -/
theorem helperFunctionTables : Obligations.HelperFunctionTables := by
  unfold Obligations.HelperFunctionTables
  refine ⟨fun n => ⟨toNat_loHex n, toNat_upHex n⟩, by decide, by decide, fun n => ⟨hexval_loHex n, hexval_upHex n⟩,
    fun d hd => hexval_of_digit hd ?_, fun d hd => ⟨hexval_of_lower hd ?_, hexval_of_upper hd ?_⟩, rfl, rfl, unreserved_iff,
    fun b => ⟨by simp [inZ], by simp [inZF]⟩, by decide, by decide, by decide, fun b => ?_, fun h l => ⟨toNat_combine h l, ?_⟩⟩
  · rw [BitVec.toNat_ofNat]; omega
  · rw [BitVec.toNat_ofNat]; omega
  · rw [BitVec.toNat_ofNat]; omega
  · rw [toNat_hiNibble, toNat_loNibble]; omega
  · omega

end Sys2Proof.Machine
end

section
/-! CLAIMS O30, O31, O40 to O43: the hex family (R140 to R144). A byte and its two digits determine each other: `hexPair` reads back what
`hexDigits` writes, and `hexDigits` writes the lowercase of what `hexPair` reads. The claims about functions carry this along the input. -/

namespace Sys2Proof.Machine

variable {op : Instr} {s : State} {n : Nibble} {bs : List Byte}

/-! Nibbles as numbers (R122). -/

theorem hiNibble_eq_ofNat (b : Byte) : hiNibble b = BitVec.ofNat 4 (b.toNat / 16) := by
  rw [← toNat_hiNibble, BitVec.ofNat_toNat, BitVec.setWidth_eq]

theorem loNibble_eq_ofNat (b : Byte) : loNibble b = BitVec.ofNat 4 (b.toNat % 16) := by
  rw [← toNat_loNibble, BitVec.ofNat_toNat, BitVec.setWidth_eq]

theorem combine_eq_ofNat (h l : Nibble) : combine h l = BitVec.ofNat 8 (16 * h.toNat + l.toNat) := by
  rw [← toNat_combine, BitVec.ofNat_toNat, BitVec.setWidth_eq]

theorem combine_hiNibble_loNibble (b : Byte) : combine (hiNibble b) (loNibble b) = b := by
  apply BitVec.eq_of_toNat_eq
  rw [toNat_combine, toNat_hiNibble, toNat_loNibble, Nat.div_add_mod]

theorem hiNibble_combine (h l : Nibble) : hiNibble (combine h l) = h := by
  apply BitVec.eq_of_toNat_eq
  rw [toNat_hiNibble, toNat_combine]
  omega

theorem loNibble_combine (h l : Nibble) : loNibble (combine h l) = l := by
  apply BitVec.eq_of_toNat_eq
  rw [toNat_loNibble, toNat_combine]
  omega

/-- Swapping the nibbles, in numbers (R144). -/
theorem swapNibbles_eq_ofNat (b : Byte) : swapNibbles b = BitVec.ofNat 8 (16 * (b.toNat % 16) + b.toNat / 16) := by
  rw [swapNibbles, combine_eq_ofNat, toNat_loNibble, toNat_hiNibble]

/-! A byte and its two digits (R140 to R142). -/

theorem hexPair_of_hexval {h l : Byte} {x y : Nibble} (hx : hexval h = some x) (hy : hexval l = some y) :
    hexPair h l = some (combine x y) := by
  rw [hexPair, hx, hy]

theorem hexPair_eq_some_iff {h l b : Byte} :
    hexPair h l = some b ↔ ∃ x y, hexval h = some x ∧ hexval l = some y ∧ b = combine x y := by
  constructor
  · intro hb
    unfold hexPair at hb
    split at hb
    · next x y hx hy => exact ⟨x, y, hx, hy, (Option.some.inj hb).symm⟩
    · cases hb
  · rintro ⟨x, y, hx, hy, rfl⟩
    exact hexPair_of_hexval hx hy

/-- HEXDEC reads back the two digits that HEXENC makes of a byte. -/
theorem hexPair_loHex (b : Byte) : hexPair (loHex (hiNibble b)) (loHex (loNibble b)) = some b := by
  rw [hexPair_of_hexval (hexval_loHex _) (hexval_loHex _), combine_hiNibble_loNibble]

/-- HEXDEC reads the two digits that HEXENC.SW makes of a byte in the other order. -/
theorem hexPair_upHex_swapped (b : Byte) : hexPair (upHex (loNibble b)) (upHex (hiNibble b)) = some (swapNibbles b) :=
  hexPair_of_hexval (hexval_upHex _) (hexval_upHex _)

/-- The three ranges of R118 read backwards: a digit 0 to 9, or 10 to 15 in either case. -/
theorem toNat_of_hexval {c : Byte} (hc : hexval c = some n) :
    (n.toNat ≤ 9 ∧ c.toNat = 0x30 + n.toNat) ∨ (10 ≤ n.toNat ∧ c.toNat = 0x61 + (n.toNat - 10)) ∨
      (10 ≤ n.toNat ∧ c.toNat = 0x41 + (n.toNat - 10)) := by
  unfold hexval at hc
  split at hc
  · next digit =>
    obtain rfl := Option.some.inj hc
    rw [BitVec.toNat_ofNat]
    omega
  · split at hc
    · next lower =>
      obtain rfl := Option.some.inj hc
      rw [BitVec.toNat_ofNat]
      omega
    · split at hc
      · next upper =>
        obtain rfl := Option.some.inj hc
        rw [BitVec.toNat_ofNat]
        omega
      · cases hc

/-- Lowercase moves the uppercase digits by 0x20 and nothing else. -/
theorem toNat_lowerDigit (c : Byte) :
    (lowerDigit c).toNat = if 0x41 ≤ c.toNat ∧ c.toNat ≤ 0x46 then c.toNat + 0x20 else c.toNat := by
  unfold lowerDigit
  split
  · next upper =>
    rw [BitVec.toNat_add]
    exact Nat.mod_eq_of_lt (show c.toNat + 0x20 < 256 by omega)
  · rfl

/-- The digit of the value of a digit is that digit in lowercase. -/
theorem loHex_of_hexval {c : Byte} (hc : hexval c = some n) : loHex n = lowerDigit c := by
  have small := n.isLt
  apply BitVec.eq_of_toNat_eq
  rw [toNat_loHex, toNat_lowerDigit]
  obtain ⟨digit, value⟩ | ⟨letter, value⟩ | ⟨letter, value⟩ := toNat_of_hexval hc
  · rw [if_pos digit, if_neg (by omega), value]
  · rw [if_neg (by omega), if_neg (by omega), value]
  · rw [if_neg (by omega), if_pos (by omega), value]
    omega

/-- HEXENC writes the lowercase of the two digits that HEXDEC read. -/
theorem hexDigits_of_hexPair {h l b : Byte} (hb : hexPair h l = some b) : hexDigits b = [lowerDigit h, lowerDigit l] := by
  obtain ⟨x, y, hx, hy, rfl⟩ := hexPair_eq_some_iff.1 hb
  rw [hexDigits, hiNibble_combine, loNibble_combine, loHex_of_hexval hx, loHex_of_hexval hy]

/-! Along the input: the two characters of every byte, and the byte of every pair. -/

theorem length_flatMap_pair (x y : Byte → Byte) (bs : List Byte) : (bs.flatMap fun b => [x b, y b]).length = 2 * bs.length := by
  simp [List.length_flatMap, Nat.mul_comm]

/-- Position `k` of the input becomes positions `2k` and `2k + 1` of the output. -/
theorem getElem?_flatMap_pair (x y : Byte → Byte) (bs : List Byte) (k : Nat) :
    (bs.flatMap fun b => [x b, y b])[2 * k]? = bs[k]?.map x ∧ (bs.flatMap fun b => [x b, y b])[2 * k + 1]? = bs[k]?.map y := by
  induction bs generalizing k with
  | nil => simp
  | cons b bs ih =>
    cases k with
    | zero => simp
    | succ k => simpa [Nat.mul_succ] using ih k

/-- The loop of HEXDEC inverts an encoding byte by byte, if each byte's pair of characters stands for `f` of the byte. -/
theorem hexPairs_flatMap_pair {x y f : Byte → Byte} (hf : ∀ b, hexPair (x b) (y b) = some (f b)) (bs : List Byte) :
    hexPairs (bs.flatMap fun b => [x b, y b]) = some (bs.map f) := by
  induction bs with
  | nil => rfl
  | cons b bs ih =>
    simp only [List.flatMap_cons, List.cons_append, List.nil_append, hexPairs, hf, ih, List.map_cons]

theorem fHexdec_flatMap_pair {x y f : Byte → Byte} (hf : ∀ b, hexPair (x b) (y b) = some (f b)) (bs : List Byte) :
    fHexdec (bs.flatMap fun b => [x b, y b]) = .ok (bs.map f) :=
  (fHexdec_eq_ok_iff _ _).2 ⟨by rw [length_flatMap_pair, Nat.mul_mod_right], hexPairs_flatMap_pair hf bs⟩

/-- Encoding what the loop of HEXDEC answers gives its text in lowercase. -/
theorem flatMap_hexDigits_of_hexPairs : ∀ {t out : List Byte}, hexPairs t = some out → out.flatMap hexDigits = t.map lowerDigit
  | [], _, ho => by
    obtain rfl := Option.some.inj ho
    rfl
  | [_], _, ho => by cases ho
  | h :: l :: t, _, ho => by
    obtain ⟨b, rest, hb, hr, rfl⟩ := hexPairs_cons_cons_eq_some ho
    rw [List.flatMap_cons, hexDigits_of_hexPair hb, flatMap_hexDigits_of_hexPairs hr]
    rfl

theorem length_of_hexPairs : ∀ {t out : List Byte}, hexPairs t = some out → t.length = 2 * out.length
  | [], _, ho => by
    obtain rfl := Option.some.inj ho
    rfl
  | [_], _, ho => by cases ho
  | h :: l :: t, _, ho => by
    obtain ⟨b, rest, -, hr, rfl⟩ := hexPairs_cons_cons_eq_some ho
    have := length_of_hexPairs hr
    simp only [List.length_cons]
    omega

/-- Each byte that the loop of HEXDEC answers is that of the pair at twice its position. -/
theorem hexPair_of_hexPairs : ∀ {t out : List Byte}, hexPairs t = some out → ∀ {k : Nat} {b : Byte}, out[k]? = some b →
    ∃ c d, t[2 * k]? = some c ∧ t[2 * k + 1]? = some d ∧ hexPair c d = some b
  | [], _, ho, k, b, hk => by
    obtain rfl := Option.some.inj ho
    cases hk
  | [_], _, ho, _, _, _ => by cases ho
  | h :: l :: t, _, ho, k, b, hk => by
    obtain ⟨first, rest, hfirst, hr, rfl⟩ := hexPairs_cons_cons_eq_some ho
    cases k with
    | zero =>
      obtain rfl := Option.some.inj hk
      exact ⟨h, l, rfl, rfl, hfirst⟩
    | succ k => exact hexPair_of_hexPairs hr (k := k) hk

/-! The SCAN bodies (R140 to R142). -/

/-- An emission to DST with room for it: the bytes at O, and O behind them. -/
theorem emitOut_of_not_inPlace (hp : inPlace op = false) (room : s.o + bs.length ≤ s.cfg.dstCap) :
    emitOut op bs s = .next { s with dst := Memory.writeAll s.dst s.o bs, o := s.o + bs.length } :=
  emitOut_next.2 ⟨by rwa [outCap_of_not_inPlace hp], (if_neg (by simp [hp])).symm⟩

theorem exec_hexenc_of_scanReady (hr : ScanReady s) (room : s.o + 2 ≤ s.cfg.dstCap) :
    exec .hexenc s = .next { s with
      dst := Memory.writeAll s.dst s.o (hexDigits (srcByte s s.i)), o := s.o + 2, i := s.i + 1 } :=
  (exec_of_scanReady hr _).trans (emitOut_of_not_inPlace rfl room)

theorem exec_hexencSw_of_scanReady (hr : ScanReady s) (room : s.o + 2 ≤ s.cfg.dstCap) :
    exec .hexencSw s = .next { s with
      dst := Memory.writeAll s.dst s.o (hexDigitsSw (srcByte s s.i)), o := s.o + 2, i := s.i + 1 } :=
  (exec_of_scanReady hr _).trans (emitOut_of_not_inPlace rfl room)

theorem exec_hexdec_of_scanReady {b : Byte} (hr : ScanReady s) (hi : s.i + 1 < s.srcLen) (room : s.o + 1 ≤ s.cfg.dstCap)
    (hb : hexPair (srcByte s s.i) (srcByte s (s.i + 1)) = some b) :
    exec .hexdec s = .next { s with dst := Memory.write s.dst s.o b, o := s.o + 1, i := s.i + 2 } :=
  calc exec .hexdec s
    _ = hexdecBody s := exec_of_scanReady hr _
    _ = emitOut .hexdec [b] { s with i := s.i + 2 } := hexdecBody_of_pair (s := s) hi hb
    _ = _ := emitOut_of_not_inPlace rfl room

/-! The claims. -/

/-- Settles O42: each byte is read back from its digits, each pair of digits is written back in lowercase; by induction over the input. -/
theorem hexRoundTrip : Obligations.HexRoundTrip := by
  unfold Obligations.HexRoundTrip
  refine ⟨fun b => ⟨_, rfl, ?_⟩, fun t out ho => ?_⟩
  · have decoded := fHexdec_flatMap_pair hexPair_loHex b
    rwa [List.map_id'] at decoded
  · obtain ⟨-, pairs⟩ := (fHexdec_eq_ok_iff t out).1 ho
    exact congrArg CodecResult.ok (flatMap_hexDigits_of_hexPairs pairs)

/-- Settles O30: the two bodies emit the digits of `hexDigits` and `hexDigitsSw`, whose nibbles are the quotient and the remainder. -/
theorem hexencScanBodies : Obligations.HexencScanBodies := by
  unfold Obligations.HexencScanBodies
  intro s hr room
  rw [← hiNibble_eq_ofNat, ← loNibble_eq_ofNat]
  exact ⟨exec_hexenc_of_scanReady hr room, exec_hexencSw_of_scanReady hr room⟩

/-- Settles O31: the two digits are a pair, and the body emits its byte. -/
theorem hexdecScanBody : Obligations.HexdecScanBody := by
  unfold Obligations.HexdecScanBody
  intro s h l hr hi room hh hl
  rw [← combine_eq_ofNat]
  exact exec_hexdec_of_scanReady hr hi room (hexPair_of_hexval hh hl)

/-- Settles O40: both functions write two characters for each byte. -/
theorem hexFunctionsDigitByDigit : Obligations.HexFunctionsDigitByDigit := by
  unfold Obligations.HexFunctionsDigitByDigit
  intro bs
  refine ⟨_, _, rfl, rfl, length_flatMap_pair _ _ bs, length_flatMap_pair _ _ bs, fun k b hb => ?_⟩
  obtain ⟨first, second⟩ := getElem?_flatMap_pair (fun b => loHex (hiNibble b)) (fun b => loHex (loNibble b)) bs k
  obtain ⟨firstSw, secondSw⟩ := getElem?_flatMap_pair (fun b => upHex (loNibble b)) (fun b => upHex (hiNibble b)) bs k
  rw [hb, Option.map_some] at first second firstSw secondSw
  rw [← hiNibble_eq_ofNat, ← loNibble_eq_ofNat]
  exact ⟨first, second, firstSw, secondSw⟩

/-- Settles O41: byte `k` is that of the pair at `2k`, and a pair stands for the combination of its values. -/
theorem hexdecFunctionPairByPair : Obligations.HexdecFunctionPairByPair := by
  unfold Obligations.HexdecFunctionPairByPair
  intro t out ho
  obtain ⟨-, pairs⟩ := (fHexdec_eq_ok_iff t out).1 ho
  refine ⟨length_of_hexPairs pairs, fun k hk => ?_⟩
  obtain ⟨c, d, hc, hd, hb⟩ := hexPair_of_hexPairs pairs (List.getElem?_eq_getElem hk)
  obtain ⟨h, l, hh, hl, value⟩ := hexPair_eq_some_iff.1 hb
  exact ⟨c, d, h, l, hc, hd, hh, hl, by rw [List.getElem?_eq_getElem hk, value, combine_eq_ofNat]⟩

/-- Settles O43: each pair of HEXENC.SW is read as the byte with its nibbles swapped. -/
theorem swappedHexIsNotInverted : Obligations.SwappedHexIsNotInverted := by
  unfold Obligations.SwappedHexIsNotInverted
  simp only [← swapNibbles_eq_ofNat]
  exact fun b => ⟨_, rfl, fHexdec_flatMap_pair hexPair_upHex_swapped b⟩

end Sys2Proof.Machine
end

section
/-! CLAIMS O32, O33, O44 to O47: the percent family (R150 to R159). Everything about the functions goes through one byte at a time: `urldec` reads back what
`percentBytes` writes, and each step of the scan of `urldec` shortens the text by the escape it decodes, if it decodes one. -/

namespace Sys2Proof.Machine

variable {op : Instr} {s : State} {bs : List Byte} {b : Byte} {plus : Bool}

/-! Escapes and literals (R150, R153). -/

theorem percentBytes_of_unreserved (hb : unreserved b = true) : percentBytes b = [b] := if_pos hb

theorem percentBytes_of_reserved (hb : unreserved b = false) :
    percentBytes b = [0x25, upHex (hiNibble b), upHex (loNibble b)] := if_neg (by simp [hb])

theorem escapeByte_percent (h l : Byte) : escapeByte 0x25 h l = hexPair h l := if_pos rfl

theorem escapeByte_of_ne (hb : b ≠ 0x25) (h l : Byte) : escapeByte b h l = none := if_neg hb

theorem escapeByte_eq_some_iff {h l v : Byte} : escapeByte b h l = some v ↔ b = 0x25 ∧ hexPair h l = some v := by
  by_cases hb : b = 0x25
  · rw [hb, escapeByte_percent, and_iff_right rfl]
  · rw [escapeByte_of_ne hb]
    exact ⟨nofun, fun h => absurd h.1 hb⟩

/-- Neither `%` nor `+` is unreserved (R120), so the decoder keeps an unreserved byte, whatever the flag. -/
theorem ne_percent_of_unreserved (hb : unreserved b = true) : b ≠ 0x25 := by
  rintro rfl
  exact absurd hb (by decide)

theorem literalByte_of_unreserved (hb : unreserved b = true) (plus : Bool) : literalByte plus b = b := by
  have not_plus : b ≠ 0x2B := by
    rintro rfl
    exact absurd hb (by decide)
  exact if_neg fun space => not_plus (eq_of_beq (Bool.and_eq_true_iff.1 space).2)

/-- The decoder reads back the two uppercase digits of an escaped byte. -/
theorem hexPair_upHex (b : Byte) : hexPair (upHex (hiNibble b)) (upHex (loNibble b)) = some b := by
  rw [hexPair_of_hexval (hexval_upHex _) (hexval_upHex _), combine_hiNibble_loNibble]

theorem escapeAtIndex_eq_some_iff {v : Byte} :
    escapeAtIndex s = some v ↔ s.i + 2 < s.srcLen ∧ srcByte s s.i = 0x25 ∧
      hexPair (srcByte s (s.i + 1)) (srcByte s (s.i + 2)) = some v := by
  unfold escapeAtIndex
  split
  · next inside => rw [escapeByte_eq_some_iff, and_iff_right inside]
  · next outside => exact ⟨nofun, fun h => absurd h.1 outside⟩

theorem escapeAtIndex_eq_none_iff :
    escapeAtIndex s = none ↔ ¬ (srcByte s s.i = 0x25 ∧ s.i + 2 < s.srcLen ∧
      (hexval (srcByte s (s.i + 1))).isSome = true ∧ (hexval (srcByte s (s.i + 2))).isSome = true) := by
  simp only [← Option.not_isSome_iff_eq_none, Option.isSome_iff_exists, escapeAtIndex_eq_some_iff, hexPair_eq_some_iff]
  refine not_congr ⟨?_, ?_⟩
  · rintro ⟨v, inside, percent, x, y, hx, hy, -⟩
    exact ⟨percent, inside, ⟨x, hx⟩, y, hy⟩
  · rintro ⟨percent, inside, ⟨x, hx⟩, y, hy⟩
    exact ⟨_, inside, percent, x, y, hx, hy, rfl⟩

/-! `urldec` on the encoded form (R153, R158). -/

theorem urldec_cons_of_ne_percent (hb : b ≠ 0x25) : ∀ bs : List Byte,
    urldec plus (b :: bs) = literalByte plus b :: urldec plus bs
  | [] => rfl
  | [_] => rfl
  | h :: l :: rest => by rw [urldec, escapeByte_of_ne hb]

/-- The decoder takes the front that the encoder made of a byte as that byte, and goes on behind it. -/
theorem urldec_percentBytes_append (plus : Bool) (b : Byte) (bs : List Byte) :
    urldec plus (percentBytes b ++ bs) = b :: urldec plus bs := by
  cases hb : unreserved b with
  | true =>
    rw [percentBytes_of_unreserved hb, List.singleton_append, urldec_cons_of_ne_percent (ne_percent_of_unreserved hb),
      literalByte_of_unreserved hb]
  | false =>
    have escape := escapeByte_eq_some_iff.2 ⟨rfl, hexPair_upHex b⟩
    rw [percentBytes_of_reserved hb, List.cons_append, List.cons_append, List.singleton_append, urldec, escape]

theorem urldec_flatMap_percentBytes (plus : Bool) (bs : List Byte) : urldec plus (bs.flatMap percentBytes) = bs := by
  induction bs with
  | nil => rfl
  | cons b bs ih => rw [List.flatMap_cons, urldec_percentBytes_append, ih]

/-! Lengths (R151, R152, R159). -/

/-- An unreserved byte makes one byte, and two less than the three of any other. -/
theorem length_flatMap_percentBytes (bs : List Byte) :
    (bs.flatMap percentBytes).length + 2 * (bs.filter unreserved).length = 3 * bs.length := by
  induction bs with
  | nil => rfl
  | cons b bs ih =>
    rw [List.flatMap_cons, List.length_append, length_percentBytes, List.filter_cons, List.length_cons]
    split
    · rw [List.length_cons]; omega
    · omega

theorem length_flatMap_percentBytes_eq_iff (bs : List Byte) :
    (bs.flatMap percentBytes).length = bs.length ↔ ∀ b ∈ bs, unreserved b = true := by
  have total := length_flatMap_percentBytes bs
  rw [← List.length_filter_eq_length_iff]
  omega

theorem flatMap_percentBytes_of_unreserved (h : ∀ b ∈ bs, unreserved b = true) : bs.flatMap percentBytes = bs :=
  calc bs.flatMap percentBytes
    _ = bs.flatMap fun b => [b] := List.flatMap_congr fun b hb => percentBytes_of_unreserved (h b hb)
    _ = bs := List.flatMap_singleton' bs

/-- Along the scan of `urldec`: a literal keeps the length, a decoded escape takes two bytes off it. -/
theorem length_urldec (plus : Bool) (bs : List Byte) : (urldec plus bs).length + 2 * escapeCount bs = bs.length := by
  induction bs using urldec.induct with
  | case1 => rfl
  | case2 => rfl
  | case3 => rfl
  | case4 b h l rest v escape ih =>
    simp only [urldec, escapeCount, escape, Option.isSome_some, if_true, List.length_cons]
    omega
  | case5 b h l rest literal ih =>
    simp only [urldec, escapeCount, literal, Option.isSome_none, Bool.false_eq_true, if_false, List.length_cons] at ih ⊢
    omega

/-! The SCAN bodies and the end of a scan (R114, R150, R153). -/

/-- An emission to SRC with room for it: the bytes at O, and O behind them. -/
theorem emitOut_of_inPlace (hp : inPlace op = true) (room : s.o + bs.length ≤ s.cfg.srcCap) :
    emitOut op bs s = .next { s with src := Memory.writeAll s.src s.o bs, o := s.o + bs.length } :=
  emitOut_next.2 ⟨by rwa [outCap_of_inPlace hp], (if_pos hp).symm⟩

theorem exec_pctenc_of_scanReady (hr : ScanReady s) (hbs : percentBytes (srcByte s s.i) = bs)
    (room : s.o + bs.length ≤ s.cfg.dstCap) :
    exec .pctenc s = .next { s with dst := Memory.writeAll s.dst s.o bs, o := s.o + bs.length, i := s.i + 1 } := by
  subst hbs
  exact (exec_of_scanReady hr _).trans (emitOut_of_not_inPlace rfl room)

/-- `v` is the byte that the scan of `urldec` makes at I, and `n` is how many bytes it takes for it (R153). -/
def DecodesAtIndex (plus : Bool) (s : State) (v : Byte) (n : Nat) : Prop :=
  (escapeAtIndex s = some v ∧ n = 3) ∨ (escapeAtIndex s = none ∧ v = literalByte plus (srcByte s s.i) ∧ n = 1)

theorem pctdecBody_of_decodesAtIndex {v : Byte} {n : Nat} (h : DecodesAtIndex plus s v n) :
    pctdecBody op plus s = emitOut op [v] { s with i := s.i + n } := by
  obtain ⟨escape, rfl⟩ | ⟨literal, rfl, rfl⟩ := h
  · exact pctdecBody_of_escape escape
  · exact pctdecBody_of_literal literal

/-- When the input is used up, all L bytes have been emitted (R151). -/
theorem MachineInv.scan_end (h : MachineInv s) (hp : s.ph = .scan) (hi : s.srcLen ≤ s.i) : s.o = s.l ∧ s.i = s.srcLen := by
  obtain ⟨op, out, scanning⟩ := scanAgrees_iff.1 (h.scan hp)
  obtain ⟨-, rfl⟩ := remainingOutput_at_end (unread_eq_nil s hi) scanning.remains
  exact ⟨scanning.length, scanning.index.antisymm hi⟩

/-! The claims. -/

/-- Settles O46: the four functions are `urldec` with either flag, and each byte is read back from what was made of it. -/
theorem percentRoundTrip : Obligations.PercentRoundTrip := by
  unfold Obligations.PercentRoundTrip
  intro b
  have decoded (plus : Bool) : CodecResult.ok (urldec plus (b.flatMap percentBytes)) = .ok b :=
    congrArg CodecResult.ok (urldec_flatMap_percentBytes plus b)
  exact ⟨_, rfl, decoded false, decoded true, decoded false, decoded true⟩

/-- Settles O32: the two forms of `percentBytes`, emitted. -/
theorem pctencScanBody : Obligations.PctencScanBody := by
  unfold Obligations.PctencScanBody
  exact fun s hr => ⟨fun hb room => exec_pctenc_of_scanReady hr (percentBytes_of_unreserved hb) room,
    fun hb room => exec_pctenc_of_scanReady hr (percentBytes_of_reserved hb) room⟩

/-- Settles O33: all four bodies emit the one byte decoded at I; only the buffer differs. -/
theorem pctdecScanBodies : Obligations.PctdecScanBodies := by
  unfold Obligations.PctdecScanBodies
  intro s op plus hr hop v n hv
  have decodes : DecodesAtIndex plus s v n := by
    obtain ⟨h, l, percent, inside, hh, hl, rfl, rfl⟩ | ⟨literal, rfl, rfl⟩ := hv
    · rw [← combine_eq_ofNat]
      exact .inl ⟨escapeAtIndex_eq_some_iff.2 ⟨inside, percent, hexPair_of_hexval hh hl⟩, rfl⟩
    · exact .inr ⟨escapeAtIndex_eq_none_iff.2 literal, by simp [literalByte], rfl⟩
  have shared : scanBody op = pctdecBody op plus := by
    simp only [List.mem_cons, Prod.mk.injEq, List.not_mem_nil, or_false] at hop
    obtain ⟨rfl, rfl⟩ | ⟨rfl, rfl⟩ | ⟨rfl, rfl⟩ | ⟨rfl, rfl⟩ := hop <;> rfl
  have body : exec op s = emitOut op [v] { s with i := s.i + n } := by
    rw [exec_of_scanReady hr, shared, pctdecBody_of_decodesAtIndex decodes]
  refine ⟨fun toDst room => body.trans (emitOut_of_not_inPlace ?_ room),
    fun toSrc room => body.trans (emitOut_of_inPlace ((inPlace_iff op).2 toSrc) room)⟩
  obtain rfl | rfl := toDst <;> rfl

/-- Settles O44: the length along the input; CHECK leaves it in L; at the end of a scan nothing remains to be emitted. -/
theorem pctencLengthIsPrecomputed : Obligations.PctencLengthIsPrecomputed := by
  unfold Obligations.PctencLengthIsPrecomputed
  refine ⟨fun bs out ho => ?_, fun s t hr ht => ?_, fun s h hp hi => h.scan_end hp hi⟩
  · obtain rfl := CodecResult.ok.inj ho
    exact length_flatMap_percentBytes bs
  · have measured : t.l = ((input s).flatMap percentBytes).length := by
      rw [exec_of_check hr.1] at ht
      obtain ⟨-, ⟨e, he, -⟩ | ⟨out, ho, -, rfl⟩ | ⟨out, ho, -, rfl⟩⟩ := checkStep_next ht
      · cases he
      · exact congrArg List.length (CodecResult.ok.inj ho).symm
      · exact congrArg List.length (CodecResult.ok.inj ho).symm
    rw [measured, length_flatMap_percentBytes, length_input]

/-- Settles O45: 3N - 2U is N only where U is N, and then every byte stands for itself. -/
theorem pctencUnchangedWhenUnreserved : Obligations.PctencUnchangedWhenUnreserved := by
  unfold Obligations.PctencUnchangedWhenUnreserved
  intro bs out ho
  obtain rfl := CodecResult.ok.inj ho
  have same_length := length_flatMap_percentBytes_eq_iff bs
  exact ⟨same_length, fun h => flatMap_percentBytes_of_unreserved (same_length.1 h)⟩

/-- Settles O47: the length of the decoded text and what it implies. -/
theorem urldecLength : Obligations.UrldecLength := by
  unfold Obligations.UrldecLength
  intro plus bs
  have total := length_urldec plus bs
  exact ⟨total, by omega, by omega⟩

end Sys2Proof.Machine
end

section
/-! CLAIMS O48, O49, O50, O51, O34, O35: the run-length family (R170 to R182). `rlenc` reads its input as literals and counted runs, and makes a pair of each
run; so whatever holds of every encoded form is shown by induction over that reading, and the RUN body's count is the counted run at I. -/

namespace Sys2Proof.Machine

variable {p : Byte → Bool} {v : Byte} {n : Nat} {rest : List Byte}

/-! Counted runs (R124, R170). -/

/-- The `n` bytes `v` before `rest` are a run as `rlenc` counts one: not empty, at most RUN_MAX long, and as long as that allows (R170, R176). -/
structure CountedRun (v : Byte) (n : Nat) (rest : List Byte) : Prop where
  /-- There is a byte to count. -/
  pos : 1 ≤ n
  /-- A count is at most RUN_MAX. -/
  le : n ≤ 250
  /-- The count stops at RUN_MAX, at the end of the input or at another byte. -/
  stops : n = 250 ∨ rest.head? ≠ some v

theorem CountedRun.toNat_count (h : CountedRun v n rest) : (BitVec.ofNat 8 n).toNat = n := by
  have le := h.le
  rw [BitVec.toNat_ofNat]
  omega

theorem takeWhile_beq_eq_nil (h : rest.head? ≠ some v) : rest.takeWhile (· == v) = [] := by
  cases rest with
  | nil => rfl
  | cons b bs => exact List.takeWhile_cons_of_neg fun hb => h (congrArg some (eq_of_beq hb))

theorem runLength_replicate_append (h : CountedRun v n rest) : runLength v (List.replicate n v ++ rest) = n := by
  have stretch : ∀ b ∈ List.replicate n v, (b == v) = true := fun b hb => beq_iff_eq.2 (List.eq_of_mem_replicate hb)
  have stopped : (rest.take (250 - n)).takeWhile (· == v) = [] := by
    refine takeWhile_beq_eq_nil ?_
    obtain rfl | other := h.stops
    · nofun
    · rw [List.head?_take]
      split
      · nofun
      · exact other
  rw [runLength, Config.runMax, List.take_append, List.length_replicate, List.take_of_length_le (by simp [h.le]),
    List.takeWhile_append_of_pos stretch, stopped, List.append_nil, List.length_replicate]

/-- Every list begins with as many bytes `v` as it has there, or with `k` of them where it has more. -/
theorem exists_stretch (v : Byte) (k : Nat) (bs : List Byte) :
    ∃ n rest, bs = List.replicate n v ++ rest ∧ n ≤ k ∧ (n = k ∨ rest.head? ≠ some v) := by
  induction k generalizing bs with
  | zero => exact ⟨0, bs, rfl, le_rfl, .inl rfl⟩
  | succ k ih =>
    by_cases hb : bs.head? = some v
    · obtain ⟨tail, rfl⟩ := List.head?_eq_some_iff.1 hb
      obtain ⟨n, rest, rfl, le, stops⟩ := ih tail
      exact ⟨n + 1, rest, rfl, Nat.succ_le_succ le, stops.imp_left (congrArg (· + 1))⟩
    · exact ⟨0, bs, rfl, Nat.zero_le _, .inr hb⟩

theorem exists_countedRun (v : Byte) (bs : List Byte) : ∃ n rest, v :: bs = List.replicate n v ++ rest ∧ CountedRun v n rest := by
  obtain ⟨n, rest, rfl, le, stops⟩ := exists_stretch v 249 bs
  exact ⟨n + 1, rest, rfl, Nat.le_add_left 1 n, Nat.succ_le_succ le, stops.imp_left (congrArg (· + 1))⟩

/-- The way `rlenc` reads its input (R170): byte by byte outside the sentinels, run by run at a sentinel. -/
theorem runInduction (p : Byte → Bool) {motive : List Byte → Prop} (nil : motive [])
    (literal : ∀ b bs, p b = false → motive bs → motive (b :: bs))
    (run : ∀ v n rest, p v = true → CountedRun v n rest → motive rest → motive (List.replicate n v ++ rest))
    (bs : List Byte) : motive bs :=
  match bs with
  | [] => nil
  | b :: bs => by
    cases hb : p b with
    | false => exact literal b bs hb (runInduction p nil literal run bs)
    | true =>
      obtain ⟨n, rest, split, counted⟩ := exists_countedRun b bs
      have shorter : rest.length ≤ bs.length := by
        have pos := counted.pos
        have total := congrArg List.length split
        rw [List.length_cons, List.length_append, List.length_replicate] at total
        omega
      rw [split]
      exact run b n rest hb counted (runInduction p nil literal run rest)
  termination_by bs.length

/-! `rlenc` along that reading. -/

@[simp] theorem rlenc_nil (p : Byte → Bool) : rlenc p [] = [] := rfl

theorem rlenc_countedRun_append (hv : p v = true) (h : CountedRun v n rest) :
    rlenc p (List.replicate n v ++ rest) = v :: BitVec.ofNat 8 n :: rlenc p rest := by
  have counted := runLength_replicate_append h
  obtain ⟨m, rfl⟩ := Nat.exists_eq_add_of_le' h.pos
  rw [List.replicate_succ, List.cons_append] at counted ⊢
  rw [rlenc_cons_of_sentinel hv, counted, List.drop_succ_cons, List.drop_left' List.length_replicate]

theorem rlenc_of_no_sentinel {bs : List Byte} (h : ∀ b ∈ bs, p b = false) : rlenc p bs = bs := by
  induction bs with
  | nil => rfl
  | cons b bs ih =>
    obtain ⟨hb, hbs⟩ := List.forall_mem_cons.1 h
    rw [rlenc_cons_of_literal hb, ih hbs]

/-- Decoding the encoded form gives the input back (R179): a pair is decoded to the run that it was made of. -/
theorem rldec_rlenc (p : Byte → Bool) (bs : List Byte) : rldec p (rlenc p bs) = bs := by
  induction bs using runInduction p with
  | nil => rfl
  | literal b bs hb ih => rw [rlenc_cons_of_literal hb, rldec_cons_of_literal (.inl hb), ih]
  | run v n rest hv counted ih =>
    rw [rlenc_countedRun_append hv counted, rldec_cons_cons_of_sentinel hv, counted.toNat_count, ih]

/-- The encoded form parses into literals and pairs (R178). -/
theorem runCoded_rlenc (p : Byte → Bool) (bs : List Byte) : RunCoded p (rlenc p bs) := by
  induction bs using runInduction p with
  | nil => exact .nil
  | literal b bs hb ih =>
    rw [rlenc_cons_of_literal hb]
    exact .literal b _ hb ih
  | run v n rest hv counted ih =>
    rw [rlenc_countedRun_append hv counted]
    refine .pair v _ _ hv ?_ ih
    rw [counted.toNat_count]
    exact ⟨counted.pos, counted.le⟩

/-! Long stretches (R180, R181). -/

theorem runPairs_of_lt (pos : 1 ≤ n) (lt : n < 250) (v : Byte) : runPairs v n = [v, BitVec.ofNat 8 n] := by
  rw [runPairs, Nat.div_eq_of_lt lt, Nat.mod_eq_of_lt lt, if_neg (by omega)]
  rfl

theorem runPairs_add_runMax (v : Byte) (n : Nat) : runPairs v (n + 250) = v :: 0xFA :: runPairs v n := by
  rw [runPairs, Nat.add_div_right n (by decide), Nat.add_mod_right, List.replicate_succ]
  rfl

/-- A stretch that ends where `rest` begins is counted from its front, RUN_MAX bytes at a time (R180). -/
theorem rlenc_stretch_append (hv : p v = true) (stops : rest.head? ≠ some v) (n : Nat) :
    rlenc p (List.replicate n v ++ rest) = runPairs v n ++ rlenc p rest := by
  induction n using Nat.strong_induction_on with
  | h n ih =>
    obtain rfl | pos := n.eq_zero_or_pos
    · rfl
    · obtain lt | le := Nat.lt_or_ge n 250
      · rw [rlenc_countedRun_append hv ⟨pos, lt.le, .inr stops⟩, runPairs_of_lt pos lt]
        rfl
      · obtain ⟨m, rfl⟩ := Nat.exists_eq_add_of_le le
        rw [List.replicate_add, List.append_assoc, rlenc_countedRun_append hv ⟨by decide, le_rfl, .inl rfl⟩, ih m (by omega),
          Nat.add_comm, runPairs_add_runMax]
        rfl

theorem rlenc_stretch (hv : p v = true) (n : Nat) : rlenc p (List.replicate n v) = runPairs v n := by
  have alone := rlenc_stretch_append (rest := []) hv nofun n
  rwa [rlenc_nil, List.append_nil, List.append_nil] at alone

/-- Two stretches of different sentinels never merge (R181). -/
theorem rlenc_two_stretches {w : Byte} (hv : p v = true) (hw : p w = true) (ne : w ≠ v) (m n : Nat) :
    rlenc p (List.replicate m v ++ List.replicate n w) = runPairs v m ++ runPairs w n := by
  have stops : (List.replicate n w).head? ≠ some v := fun h => ne (List.eq_of_mem_replicate (List.mem_of_mem_head? h)).symm
  rw [rlenc_stretch_append hv stops, rlenc_stretch hw]

/-! Sizes (R182). -/

theorem length_rlenc_le (p : Byte → Bool) (bs : List Byte) : (rlenc p bs).length ≤ 2 * bs.length := by
  induction bs using runInduction p with
  | nil => exact le_rfl
  | literal b bs hb ih =>
    rw [rlenc_cons_of_literal hb, List.length_cons, List.length_cons]
    omega
  | run v n rest hv counted ih =>
    have pos := counted.pos
    rw [rlenc_countedRun_append hv counted, List.length_cons, List.length_cons, List.length_append, List.length_replicate]
    omega

/-- A run of one byte was not cut by RUN_MAX, so another byte follows it; a longer run holds equal neighbours. -/
theorem CountedRun.isChain_append_iff (h : CountedRun v n rest) :
    (List.replicate n v ++ rest).IsChain (· ≠ ·) ↔ n = 1 ∧ rest.IsChain (· ≠ ·) := by
  obtain ⟨m, rfl⟩ := Nat.exists_eq_add_of_le' h.pos
  cases m with
  | zero =>
    have other : ∀ b ∈ rest.head?, v ≠ b := fun b hb same => h.stops.elim nofun fun ne => ne (same ▸ hb)
    exact List.isChain_cons.trans ⟨fun chain => ⟨rfl, chain.2⟩, fun chain => ⟨other, chain.2⟩⟩
  | succ m => simp [List.replicate_succ]

theorem length_rlenc_eq_iff (p : Byte → Bool) (bs : List Byte) :
    (rlenc p bs).length = 2 * bs.length ↔ (∀ b ∈ bs, p b = true) ∧ bs.IsChain (· ≠ ·) := by
  induction bs using runInduction p with
  | nil => simp
  | literal b bs hb ih =>
    have bound := length_rlenc_le p bs
    rw [rlenc_cons_of_literal hb, List.length_cons, List.length_cons, List.forall_mem_cons, hb]
    exact ⟨fun same => by omega, fun h => absurd h.1.1 Bool.false_ne_true⟩
  | run v n rest hv counted ih =>
    have all_sentinels : (∀ b ∈ List.replicate n v ++ rest, p b = true) ↔ ∀ b ∈ rest, p b = true :=
      List.forall_mem_append.trans (and_iff_right fun b hb => List.eq_of_mem_replicate hb ▸ hv)
    have bound := length_rlenc_le p rest
    have pos := counted.pos
    calc (rlenc p (List.replicate n v ++ rest)).length = 2 * (List.replicate n v ++ rest).length
      _ ↔ n = 1 ∧ (rlenc p rest).length = 2 * rest.length := by
        rw [rlenc_countedRun_append hv counted, List.length_cons, List.length_cons, List.length_append, List.length_replicate]
        omega
      _ ↔ _ := by rw [ih, all_sentinels, counted.isChain_append_iff, and_left_comm]

/-- A pair decodes to at most 255 bytes, a literal to one (R171). -/
theorem length_rldec_le (p : Byte → Bool) (bs : List Byte) : (rldec p bs).length ≤ 255 * (bs.length / 2) + bs.length % 2 := by
  induction bs using rldec.induct p with
  | case1 => exact Nat.le_refl 0
  | case2 b => simp [rldec]
  | case3 b c rest hb ih =>
    have byte := c.isLt
    rw [rldec_cons_cons_of_sentinel hb, List.length_append, List.length_replicate, List.length_cons, List.length_cons]
    omega
  | case4 b c rest hb ih =>
    rw [rldec_cons_of_literal (.inl (Bool.eq_false_of_not_eq_true hb)), List.length_cons]
    rw [List.length_cons] at ih ⊢
    rw [List.length_cons]
    omega

/-! The SCAN bodies (R176, R177). -/

/-- The sentinel predicate that the mode bit DUAL selects (R121, R183). -/
def sentinels (dual : Bool) : Byte → Bool := if dual then inZF else inZ

theorem sentinels_iff (dual : Bool) (b : Byte) : sentinels dual b = true ↔ b = 0x00 ∨ (dual = true ∧ b = 0xFF) := by
  cases dual <;> simp [sentinels, inZ, inZF]

variable {s : State} {op : Instr}

/-- What is to be shown of a command and its mode bit is to be shown of the two commands of the unit (R183). -/
theorem dual_cases {single both : Instr} {dual : Bool} {motive : Instr → Bool → Prop}
    (h : (op, dual) ∈ [(single, false), (both, true)]) (hs : motive single false) (hb : motive both true) : motive op dual := by
  simp only [List.mem_cons, Prod.mk.injEq, List.not_mem_nil, or_false] at h
  obtain ⟨rfl, rfl⟩ | ⟨rfl, rfl⟩ := h
  · exact hs
  · exact hb

theorem srcSlice_append (s : State) (k m n : Nat) : srcSlice s k (m + n) = srcSlice s k m ++ srcSlice s (k + m) n := by
  rw [srcSlice, srcSlice, srcSlice, ← List.map_append, List.range'_append_1]

theorem srcSlice_eq_replicate {k : Nat} (h : ∀ j < n, srcByte s (k + j) = v) : srcSlice s k n = List.replicate n v := by
  refine List.eq_replicate_iff.2 ⟨length_srcSlice s k n, fun b hb => ?_⟩
  obtain ⟨j, hj, rfl⟩ := List.mem_map.1 hb
  rw [List.mem_range'_1] at hj
  obtain ⟨d, rfl⟩ := Nat.exists_eq_add_of_le hj.1
  exact h d (by omega)

theorem head?_srcSlice_ne {k : Nat} (h : n = 0 ∨ srcByte s k ≠ v) : (srcSlice s k n).head? ≠ some v := by
  cases n with
  | zero => nofun
  | succ n =>
    rw [srcSlice_succ]
    exact fun same => h.elim nofun fun ne => ne (Option.some.inj same)

/-- The largest count that R176 allows is the one that the RUN body takes. -/
theorem runLength_unread {c : Nat} (pos : 1 ≤ c) (le : c ≤ 250) (inside : s.i + c ≤ s.srcLen)
    (same : ∀ k, k < c → srcByte s (s.i + k) = v) (stops : c = 250 ∨ s.i + c = s.srcLen ∨ srcByte s (s.i + c) ≠ v) :
    runLength v (unread s) = c := by
  have split : unread s = List.replicate c v ++ srcSlice s (s.i + c) (s.srcLen - (s.i + c)) := by
    rw [← srcSlice_eq_replicate same, ← srcSlice_append, unread]
    congr 1
    omega
  rw [split]
  refine runLength_replicate_append ⟨pos, le, stops.imp_right fun stop => head?_srcSlice_ne (stop.imp_left fun e => ?_)⟩
  omega

theorem rlencBody_of_countedRun {c : Nat} (hf : s.fsm = .run) (pos : 1 ≤ c) (count : runLength s.rv (unread s) = c) :
    rlencBody op p s = emitOut op [BitVec.ofNat 8 c] { s with cnt := c, i := s.i + c, fsm := .copy } := by
  subst count
  exact rlencBody_of_run hf (Nat.one_le_iff_ne_zero.1 pos)

/-! The claims. -/

/-- Settles O48: the four functions are `rlenc` and `rldec` with either predicate. -/
theorem runRoundTrip : Obligations.RunRoundTrip := by
  unfold Obligations.RunRoundTrip
  exact ⟨rldec_rlenc, fun b => ⟨⟨_, rfl, congrArg CodecResult.ok (rldec_rlenc inZ b)⟩,
    ⟨_, rfl, congrArg CodecResult.ok (rldec_rlenc inZF b)⟩⟩⟩

/-- Settles O34: the three bodies of R176 with either predicate; the count of RUN is the counted run at I. -/
theorem rlencScanBodies : Obligations.RlencScanBodies := by
  unfold Obligations.RlencScanBodies
  intro s op dual hr room hop
  obtain ⟨body, toDst⟩ := dual_cases hop (motive := fun op dual => scanBody op = rlencBody op (sentinels dual) ∧ inPlace op = false)
    ⟨rfl, rfl⟩ ⟨rfl, rfl⟩
  rw [exec_of_scanReady hr, body, ← sentinels_iff]
  refine ⟨fun hf hp => ?_, fun hf hp => ?_, fun c hf pos le inside same stops => ?_⟩
  · rw [rlencBody_of_sentinel hf hp]
    exact emitOut_of_not_inPlace toDst room
  · rw [rlencBody_of_literal hf (Bool.eq_false_of_not_eq_true hp)]
    exact emitOut_of_not_inPlace toDst room
  · rw [rlencBody_of_countedRun hf pos (runLength_unread pos le inside same stops)]
    exact emitOut_of_not_inPlace toDst room

/-- Settles O35: the three bodies of R177 with either predicate; the bytes that RUN writes are those of its emission. -/
theorem rldecScanBodies : Obligations.RldecScanBodies := by
  unfold Obligations.RldecScanBodies
  intro s op dual hr hop
  obtain ⟨body, toDst⟩ := dual_cases hop (motive := fun op dual => scanBody op = rldecBody op (sentinels dual) ∧ inPlace op = false)
    ⟨rfl, rfl⟩ ⟨rfl, rfl⟩
  rw [exec_of_scanReady hr, body, ← sentinels_iff]
  refine ⟨fun hf hp hi => rldecBody_of_sentinel hf ⟨hp, hi⟩, fun hf hp room => ?_, fun hf room => ?_⟩
  · rw [rldecBody_of_literal hf hp]
    exact emitOut_of_not_inPlace toDst room
  · have emits := (rldecBody_of_run (p := sentinels dual) (op := op) hf).trans
      (emitOut_next.2 ⟨by simpa [outCap_of_not_inPlace toDst] using room, rfl⟩)
    refine ⟨_, emits, by simp [emitBytes, toDst], fun k low high => ?_, fun k outside => ?_⟩
    · rw [dstByte_emitBytes, if_pos ⟨toDst, low, by simpa using high⟩, List.getD_replicate _ (by show k - s.o < _; omega)]
    · exact dstByte_emitBytes_outside (by simpa using outside)

/-- Settles O49: the parse of every encoded form; 0x00 is no count, and 0xFF is above RUN_MAX. -/
theorem encodedFormHasCountsAfterSentinels : Obligations.EncodedFormHasCountsAfterSentinels := by
  unfold Obligations.EncodedFormHasCountsAfterSentinels
  refine ⟨runCoded_rlenc, fun c pos le => ?_⟩
  have not_zero : c ≠ 0x00 := by
    rintro rfl
    exact absurd pos (by decide)
  have not_ff : c ≠ 0xFF := by
    rintro rfl
    exact absurd le (by decide)
  exact ⟨by simpa [inZ] using not_zero, by simpa [inZF] using ⟨not_zero, not_ff⟩⟩

/-- Settles O50: the stretches by the general law, and the two worked values from it. -/
theorem longRunsSplitGreedily : Obligations.LongRunsSplitGreedily := by
  unfold Obligations.LongRunsSplitGreedily
  have oneStretch (n : Nat) : commandFunction .rlencZ (List.replicate n 0x00) = .ok (runPairs 0x00 n) :=
    congrArg CodecResult.ok (rlenc_stretch rfl n)
  have zerosFirst (m n : Nat) : commandFunction .rlencZf (List.replicate m 0x00 ++ List.replicate n 0xFF) =
      .ok (runPairs 0x00 m ++ runPairs 0xFF n) := congrArg CodecResult.ok (rlenc_two_stretches rfl rfl (by decide) m n)
  have onesFirst (m n : Nat) : commandFunction .rlencZf (List.replicate m 0xFF ++ List.replicate n 0x00) =
      .ok (runPairs 0xFF m ++ runPairs 0x00 n) := congrArg CodecResult.ok (rlenc_two_stretches rfl rfl (by decide) m n)
  exact ⟨fun p v n rest hv stops => rlenc_stretch_append hv stops n, oneStretch, zerosFirst, onesFirst, oneStretch 300, zerosFirst 2 3⟩

/-- Settles O51: the lengths along the reading of `rlenc` and along the pairs of `rldec`. -/
theorem runCodecSizes : Obligations.RunCodecSizes := by
  unfold Obligations.RunCodecSizes
  intro p bs
  have decoded := length_rldec_le p bs
  exact ⟨length_rlenc_le p bs, length_rlenc_eq_iff p bs, rlenc_of_no_sentinel, decoded, by omega⟩

end Sys2Proof.Machine
end

section
/-! CLAIMS O23 to O27, O52: the four error kinds (R200 to R208) and the writers of ERR (R28, R211). One inversion says what an engine step does to ERR: it keeps it,
or it is a CHECK step that completes with the error it raises. -/

namespace Sys2Proof.Machine

variable {op : Instr} {s t : State} {out : List Byte}

/-! The capacity test, by family (R113). -/

theorem fits_of_inputBound (h : op = .pctdec ∨ op = .pctdecP) (p : Config.Params) (n l : Nat) :
    fits op p n l = decide (n ≤ p.dstCap) := by
  obtain rfl | rfl := h <;> rfl

theorem fits_of_outputBound (h : op ∈ [Instr.hexenc, .hexencSw, .hexdec, .pctenc, .rlencZ, .rlencZf, .rldecZ, .rldecZf])
    (p : Config.Params) (n l : Nat) : fits op p n l = decide (l ≤ p.dstCap) := by
  simp only [List.mem_cons, List.not_mem_nil, or_false] at h
  obtain rfl | rfl | rfl | rfl | rfl | rfl | rfl | rfl := h <;> rfl

theorem fits_of_inPlace (h : op = .pctdecIp ∨ op = .pctdecIpP) (p : Config.Params) (n l : Nat) : fits op p n l = true := by
  obtain rfl | rfl := h <;> rfl

/-- Both sides of a capacity test that compares `n` with `cap` (R112). -/
theorem exec_check_of_bound {n cap : Nat} (hr : CheckReady s) (ho : commandFunction op (input s) = .ok out)
    (hf : fits op s.cfg s.srcLen out.length = decide (n ≤ cap)) :
    (cap < n → exec op s = .next (raiseError .overflow { s with l := out.length })) ∧
    (n ≤ cap → exec op s = .next { s with l := out.length, ph := .scan }) :=
  ⟨fun beyond => exec_check_of_not_fits hr ho (hf.trans (decide_eq_false beyond.not_ge)),
    fun within => exec_check_of_fits hr ho (hf.trans (decide_eq_true within))⟩

/-! The errors of HEXDEC (R201, R202). -/

theorem srcByte_mem_input {k : Nat} (hk : k < s.srcLen) : srcByte s k ∈ input s :=
  List.mem_of_getElem? ((getElem?_srcSlice s 0 s.srcLen k hk).trans (by rw [Nat.zero_add]))

theorem exec_hexdec_of_odd (hr : CheckReady s) (odd : s.srcLen % 2 = 1) :
    exec .hexdec s = .next (raiseError .invalidLength s) :=
  exec_check_of_err hr (fHexdec_of_odd (by rwa [length_input]))

theorem exec_hexdec_of_badCharacter (hr : CheckReady s) (even : s.srcLen % 2 = 0) (bad : ∃ c ∈ input s, hexval c = none) :
    exec .hexdec s = .next (raiseError .invalidCharacter s) := by
  have even' : (input s).length % 2 = 0 := by rwa [length_input]
  exact exec_check_of_err hr (fHexdec_of_pairs_none even' ((hexPairs_eq_none_iff _ even').2 bad))

/-- A function that fails is HEXDEC's, and its errors are its own two (R205). -/
theorem commandFunction_eq_err {bs : List Byte} {e : ErrKind} (he : commandFunction op bs = .err e) :
    op = .hexdec ∧ (e = .invalidLength ∨ e = .invalidCharacter) := by
  by_cases hop : op = .hexdec
  · subst hop
    refine ⟨rfl, ?_⟩
    obtain even | odd := Nat.mod_two_eq_zero_or_one bs.length
    · cases hx : hexPairs bs with
      | none => exact .inr (CodecResult.err.inj (he.symm.trans (fHexdec_of_pairs_none even hx)))
      | some out => cases he.symm.trans ((fHexdec_eq_ok_iff bs out).2 ⟨even, hx⟩)
    · exact .inl (CodecResult.err.inj (he.symm.trans (fHexdec_of_odd odd)))
  · obtain ⟨out, ho⟩ := commandFunction_eq_ok hop bs
    cases he.symm.trans ho

/-! What the engine does to ERR (R211). -/

/-- The CHECK step of `op` has the error `e` to report: its function's own, or Overflow where the function succeeds and the result does
not fit (R112, R203). -/
def Raises (op : Instr) (s : State) (e : ErrKind) : Prop :=
  commandFunction op (input s) = .err e ∨
  (e = .overflow ∧ ∃ out, commandFunction op (input s) = .ok out ∧ fits op s.cfg s.srcLen out.length = false)

/-- Everything an engine step of a command can do to ERR. -/
theorem exec_err (h : exec op s = .next t) :
    (t.err = s.err ∧ (s.ph = .check → t.st = s.st)) ∨
    (s.ph = .check ∧ ∃ e, Raises op s e ∧ t.err = some e ∧ t.st = .done) := by
  obtain ⟨-, rfl⟩ | ⟨hp, hc⟩ | ⟨hp, -, rfl⟩ | ⟨hp, -, -, hb⟩ := exec_next h
  · exact .inl ⟨rfl, fun _ => rfl⟩
  · obtain ⟨-, ⟨e, he, rfl⟩ | ⟨out, -, -, rfl⟩ | ⟨out, ho, hf, rfl⟩⟩ := checkStep_next hc
    · exact .inr ⟨hp, e, .inl he, rfl, rfl⟩
    · exact .inl ⟨rfl, fun _ => rfl⟩
    · exact .inr ⟨hp, .overflow, .inr ⟨rfl, out, ho, hf⟩, rfl, rfl⟩
  · exact .inl ⟨finish_err op s, by simp [hp]⟩
  · obtain ⟨bs, i, cnt, rv, fsm, -, rfl⟩ := scanBody_next hb
    exact .inl ⟨emitBytes_err .., by simp [hp]⟩

/-- The only error that a command other than HEXDEC can set is Overflow (R205). -/
theorem exec_err_of_ne_hexdec {e : ErrKind} (hop : op ≠ .hexdec) (hne : e ≠ .overflow) (h : exec op s = .next t)
    (ht : t.err = some e) : s.err = some e := by
  obtain ⟨keeps, -⟩ | ⟨-, e', he | ⟨rfl, -⟩, ht', -⟩ := exec_err h
  · exact keeps.symm.trans ht
  · exact absurd (commandFunction_eq_err he).1 hop
  · exact absurd (Option.some.inj (ht.symm.trans ht')) hne

/-- Everything the engine's move can do to ERR, be the word in CMD legal or not. -/
theorem engineTurn_err (h : engineTurn s = .next t) :
    (t.err = s.err ∧ (s.ph = .check → t.st = s.st)) ∨ (s.ph = .check ∧ t.st = .done ∧ ∃ e, t.err = some e) := by
  obtain ⟨op, -, hx⟩ | ⟨-, -, rfl⟩ | ⟨-, hp, rfl⟩ := engineTurn_next h
  · obtain keeps | ⟨hp, e, -, ht, hdone⟩ := exec_err hx
    · exact .inl keeps
    · exact .inr ⟨hp, hdone, e, ht⟩
  · exact .inl ⟨rfl, fun _ => rfl⟩
  · exact .inr ⟨hp, rfl, .illegalCommand, rfl⟩

/-! What the host does to ERR (R211). -/

/-- A transaction that is neither a Reset nor an issue keeps ERR. -/
theorem transact_err {x : Transaction} (hr : x ≠ .reset) (hi : ∀ v, x = .regWrite 0 v → s.st = .busy) :
    (transact x s).err = s.err := by
  obtain ⟨d, n, hx⟩ | ⟨reset, -⟩ | ⟨v, write, hst, -⟩ | ⟨v, -, -, -, hx⟩ | ⟨k, b, -, -, -, hx⟩ := transact_cases x s
  · rw [hx]
  · exact absurd reset hr
  · exact absurd (hi v write) hst
  · rw [hx]
  · rw [hx]

/-- The host's move is its first transaction, made in a state with the same ST and ERR. -/
theorem step_host_transacts {x : Transaction} (ht : step s = .next t) (ha : nextAgent s = some .host)
    (hx : s.program.head? = some x) : ∃ u : State, u.st = s.st ∧ u.err = s.err ∧ t = transact x u := by
  obtain ⟨xs, hl⟩ := List.head?_eq_some_iff.1 hx
  exact ⟨{ takeTurn s with program := xs }, takeTurn_st s, takeTurn_err s, next_inj.1 (ht.symm.trans (step_of_host ha hl))⟩

/-! The CHECK step of any word (R204, R208). -/

theorem decode_eq_none_of_no_row {w : Byte} (h : ∀ row ∈ opcodeTable, w ≠ row.1) : decode w = none :=
  Option.eq_none_iff_forall_ne_some.2 fun _ hd => h _ (decode_eq_some_iff_row.1 hd) rfl

theorem engineTurn_check_goesOn (hr : CheckReady s) : ∃ t, engineTurn s = .next t := by
  cases hd : decode s.cmd with
  | none => exact ⟨_, engineTurn_of_illegal_check hd hr.1⟩
  | some op =>
    rw [engineTurn_of_decode hd]
    obtain ⟨out, -, ht⟩ | ⟨e, -, ht⟩ | ⟨out, -, ht⟩ := checkStepHasThreeOutcomes op s hr
    · exact ⟨_, ht⟩
    · exact ⟨_, ht⟩
    · exact ⟨_, ht⟩

/-! The claims. -/

/-- Settles O26: a word that is in no row of the table decodes to no command. -/
theorem illegalCommandCompletesInCheck : Obligations.IllegalCommandCompletesInCheck := by
  unfold Obligations.IllegalCommandCompletesInCheck
  exact fun s hp hw => engineTurn_of_illegal_check (decode_eq_none_of_no_row hw) hp

/-- Settles O23: the three forms of the capacity test; and a function's own error is never Overflow. -/
theorem overflowExactlyWhenItDoesNotFit : Obligations.OverflowExactlyWhenItDoesNotFit := by
  unfold Obligations.OverflowExactlyWhenItDoesNotFit
  refine ⟨fun op s out hr ho => ⟨fun h => ?_, fun h => ?_, fun h => ?_⟩, fun op s e hr he => ⟨?_, exec_check_of_err hr he⟩,
    fun op s t hx ht => ?_⟩
  · exact exec_check_of_bound hr ho (fits_of_inputBound h ..)
  · exact exec_check_of_bound hr ho (fits_of_outputBound h ..)
  · exact exec_check_of_fits hr ho (fits_of_inPlace h ..)
  · obtain ⟨-, rfl | rfl⟩ := commandFunction_eq_err he <;> decide
  · obtain ⟨keeps, -⟩ | ⟨hp, e, he | ⟨-, out, ho, hf⟩, hte, -⟩ := exec_err hx
    · exact .inl (keeps.symm.trans ht)
    · cases hte.symm.trans ht
      obtain ⟨-, h | h⟩ := commandFunction_eq_err he <;> cases h
    · exact .inr ⟨hp, out, ho, hf⟩

/-- Settles O24: HEXDEC tests the length first; no other command has an error of its own. -/
theorem hexdecOddLengthIsInvalidLength : Obligations.HexdecOddLengthIsInvalidLength := by
  unfold Obligations.HexdecOddLengthIsInvalidLength
  exact ⟨fun s hr odd => exec_hexdec_of_odd hr odd, fun op s t hop hx ht => exec_err_of_ne_hexdec hop (by decide) hx ht⟩

/-- Settles O25: one byte of the input that is no digit fails the loop over the pairs; no other command has an error of its own. -/
theorem hexdecBadCharacterIsInvalidCharacter : Obligations.HexdecBadCharacterIsInvalidCharacter := by
  unfold Obligations.HexdecBadCharacterIsInvalidCharacter
  exact ⟨fun s k hr even hk bad => exec_hexdec_of_badCharacter hr even ⟨_, srcByte_mem_input hk, bad⟩,
    fun op s t hop hx ht => exec_err_of_ne_hexdec hop (by decide) hx ht⟩

/-- Settles O27: the engine's move has one next state, and under each condition it is the one of that condition's case. -/
theorem errorPriority : Obligations.ErrorPriority := by
  unfold Obligations.ErrorPriority
  intro s hr
  obtain ⟨t, ht⟩ := engineTurn_check_goesOn hr
  have err_eq {u : State} (hu : engineTurn s = .next u) : t.err = u.err := congrArg State.err (next_inj.1 (ht.symm.trans hu))
  refine ⟨t, ht, fun hd => ?_, fun hd odd => ?_, fun hd even bad => ?_, fun op out hd ho hf => ?_, fun op out hd ho hf => ?_⟩
  · exact err_eq (engineTurn_of_illegal_check hd hr.1)
  · exact err_eq ((engineTurn_of_decode hd).trans (exec_hexdec_of_odd hr odd))
  · exact err_eq ((engineTurn_of_decode hd).trans (exec_hexdec_of_badCharacter hr even bad))
  · exact err_eq ((engineTurn_of_decode hd).trans (exec_check_of_not_fits hr ho hf))
  · exact err_eq (u := { s with l := out.length, ph := .scan }) ((engineTurn_of_decode hd).trans (exec_check_of_fits hr ho hf))

/-- Settles O52: while BUSY ERR is NONE by R35; Reset and issue clear it, only a CHECK step that completes sets it. -/
theorem errIsWrittenByCompletionIssueAndReset : Obligations.ErrIsWrittenByCompletionIssueAndReset := by
  unfold Obligations.ErrIsWrittenByCompletionIssueAndReset
  intro s t hinv ht
  have engine_err (ha : nextAgent s = some .engine) :
      (t.err = s.err ∧ (s.ph = .check → t.st = s.st)) ∨ (s.ph = .check ∧ t.st = .done ∧ ∃ e, t.err = some e) := by
    simpa only [takeTurn_err, takeTurn_ph, takeTurn_st] using engineTurn_err ((step_of_engine ha).symm.trans ht)
  refine ⟨fun hst => (hinv.spec.busyClean hst).1, fun ha hx => ?_, fun v ha hx hst => ?_, fun x ha hx hr hi => ?_,
    fun ha hp hdone => ?_, fun ha hn => ?_, fun ha => ?_⟩
  · obtain ⟨u, -, -, rfl⟩ := step_host_transacts ht ha hx
    exact resetBlock_err u
  · obtain ⟨u, hu, -, rfl⟩ := step_host_transacts ht ha hx
    rw [transact_regWrite_cmd (hu ▸ hst), issue_err]
  · obtain ⟨u, hu, he, rfl⟩ := step_host_transacts ht ha hx
    exact (transact_err hr fun v h => hu.trans (hi v h)).trans he
  · obtain ⟨-, keeps⟩ | ⟨-, -, raised⟩ := engine_err ha
    · have busy : s.st = .busy := hinv.busy_of_on (by simp [hp])
      cases hdone.symm.trans ((keeps hp).trans busy)
    · exact raised
  · obtain ⟨keeps, -⟩ | ⟨hp, hdone, -⟩ := engine_err ha
    · exact keeps
    · exact absurd ⟨hp, hdone⟩ hn
  · rw [step, ha] at ht
    rw [next_inj.1 ht]

end Sys2Proof.Machine
end

section
/-! CLAIMS O8, O29, O60: Reset (R240) and the hazards (R244 to R249). A sufficient capacity bounds the length that the capacity test compares; a transaction that
respects the hazards meets the conditions under which the read laws of O12 to O14 answer an exact value. -/

namespace Sys2Proof.Machine

variable {op : Instr} {s : State} {t : Transaction} {p : Config.Params} {bs out : List Byte}

/-! Sufficient capacity (R249). -/

theorem fits_of_length_le (h : op ∈ [Instr.hexenc, .hexencSw, .hexdec, .pctenc, .rlencZ, .rlencZf, .rldecZ, .rldecZf]) {n l : Nat}
    (hl : l ≤ p.dstCap) : fits op p n l = true :=
  (fits_of_outputBound h p n l).trans (decide_eq_true hl)

theorem length_flatMap_percentBytes_le (bs : List Byte) : (bs.flatMap percentBytes).length ≤ 3 * bs.length :=
  (Nat.le_add_right _ _).trans_eq (length_flatMap_percentBytes bs)

/-- Either condition bounds the decoded length: by the pairs of any input (R182), or by what the encoder was given (R179). -/
theorem length_rldec_le_of_rldecCapacity {q : Byte → Bool} (h : sufficientCapacity.rldecCapacity p bs q) :
    (rldec q bs).length ≤ p.dstCap := by
  obtain bound | ⟨b, rfl, hb⟩ := h
  · exact (length_rldec_le q bs).trans bound
  · rwa [rldec_rlenc]

/-- The exact output lengths of R249 are within its conditions, so the capacity test of R113 holds. -/
theorem fits_of_sufficientCapacity (h : sufficientCapacity op p bs) (ho : commandFunction op bs = .ok out) :
    fits op p bs.length out.length = true := by
  cases op with
  | hexenc | hexencSw =>
    obtain rfl := CodecResult.ok.inj ho
    exact fits_of_length_le (by decide) ((length_flatMap_pair _ _ bs).trans_le h)
  | hexdec =>
    obtain ⟨-, pairs⟩ := (fHexdec_eq_ok_iff bs out).1 ho
    have twice : 2 * out.length ≤ 2 * p.dstCap := (length_of_hexPairs pairs).symm.trans_le h
    exact fits_of_length_le (by decide) (by omega)
  | pctenc =>
    obtain rfl := CodecResult.ok.inj ho
    exact fits_of_length_le (by decide) ((length_flatMap_percentBytes_le bs).trans h)
  | pctdec | pctdecP => exact (fits_of_inputBound (by decide) ..).trans (decide_eq_true h)
  | pctdecIp | pctdecIpP => exact fits_of_inPlace (by decide) ..
  | rlencZ | rlencZf =>
    obtain rfl := CodecResult.ok.inj ho
    exact fits_of_length_le (by decide) ((length_rlenc_le _ bs).trans h)
  | rldecZ | rldecZf =>
    obtain rfl := CodecResult.ok.inj ho
    exact fits_of_length_le (by decide) (length_rldec_le_of_rldecCapacity h)

/-- With the reference parameters every input meets the condition of every command but RLDEC: three times SRC_CAP is within DST_CAP. -/
theorem sufficientCapacity_reference (h1 : op ≠ .rldecZ) (h2 : op ≠ .rldecZf) (hn : bs.length ≤ Config.reference.srcCap) :
    sufficientCapacity op Config.reference bs := by
  have triple : 3 * bs.length ≤ Config.reference.dstCap := (Nat.mul_le_mul_left 3 hn).trans (by decide)
  cases op with
  | hexenc | hexencSw | rlencZ | rlencZf => exact (Nat.mul_le_mul_right _ (by decide)).trans triple
  | hexdec | pctdec | pctdecP => simp only [sufficientCapacity]; omega
  | pctenc => exact triple
  | pctdecIp | pctdecIpP => trivial
  | rldecZ => exact absurd rfl h1
  | rldecZf => exact absurd rfl h2

theorem exec_check_of_sufficientCapacity (hr : CheckReady s) (h : sufficientCapacity op s.cfg (input s))
    (ho : commandFunction op (input s) = .ok out) : exec op s = .next { s with l := out.length, ph := .scan } :=
  exec_check_of_fits hr ho (length_input s ▸ fits_of_sufficientCapacity h ho)

/-! What a transaction that respects the hazards meets (R244 to R247). -/

theorem wellFormed_of_respectsHazards (h : respectsHazards s t = true) : t.wellFormed s.cfg = true := by
  simp only [respectsHazards, Bool.and_eq_true] at h
  obtain ⟨⟨inside, -⟩, -⟩ := h
  exact inside

theorem busyAllowed_of_respectsHazards (h : respectsHazards s t = true) (hst : s.st = .busy) : busyAllowed t = true := by
  simp only [respectsHazards, Bool.and_eq_true] at h
  obtain ⟨⟨-, allowed⟩, -⟩ := h
  simpa [hst] using allowed

/-- H-BUSY: what is not allowed while BUSY is made outside an operation (R244). -/
theorem not_busy_of_respectsHazards (h : respectsHazards s t = true) (ht : busyAllowed t = false) : s.st ≠ .busy :=
  fun hst => Bool.false_ne_true (ht.symm.trans (busyAllowed_of_respectsHazards h hst))

/-- A byte of SRC never written since power-up is not read (U3). -/
theorem srcRead_written_of_respectsHazards {k : Nat} (h : respectsHazards s (.srcRead k) = true) :
    (Memory.read s.src k).isSome = true := by
  simp only [respectsHazards, Bool.and_eq_true] at h
  obtain ⟨-, written, -⟩ := h
  exact written

/-- H-TAIL in DST (R246). -/
theorem dstRead_lt_of_respectsHazards {k : Nat} (h : respectsHazards s (.dstRead k) = true) : k < s.dstLen := by
  simp only [respectsHazards, Bool.and_eq_true, decide_eq_true_eq] at h
  obtain ⟨-, below⟩ := h
  exact below

/-! Specified reads (R61 to R63). -/

theorem regReadValue_exact {r : Nat} (hr : r < 6) (h : s.st = .busy → r ≠ 2 ∧ r ≠ 3) : ∃ v, regReadValue r s = .exact v := by
  match r, hr with
  | 0, _ | 1, _ | 4, _ | 5, _ => exact ⟨_, rfl⟩
  | 2, _ => exact ⟨_, regReadValue_srcLen fun hst => (h hst).1 rfl⟩
  | 3, _ => exact ⟨_, regReadValue_dstLen fun hst => (h hst).2 rfl⟩

theorem srcByte_of_read {k : Nat} {b : Byte} (h : Memory.read s.src k = some b) : srcByte s k = b := by
  rw [srcByte, h, Option.getD_some]

theorem dstByte_of_read {k : Nat} {b : Byte} (h : Memory.read s.dst k = some b) : dstByte s k = b := by
  rw [dstByte, h, Option.getD_some]

/-- A byte of DST below DST_LEN has been written by the invariant; every other read is specified by what the hazards ask of the host. -/
theorem specifiedRead_of_respectsHazards (hinv : MachineInv s) (h : respectsHazards s t = true) : specifiedRead s t := by
  have inside := wellFormed_of_respectsHazards h
  cases t with
  | regRead r =>
    have allowed (hst : s.st = .busy) : r ≠ 2 ∧ r ≠ 3 := by
      simpa [busyAllowed] using busyAllowed_of_respectsHazards h hst
    exact regReadValue_exact (of_decide_eq_true inside) allowed
  | srcRead k =>
    obtain ⟨b, hb⟩ := Option.isSome_iff_exists.1 (srcRead_written_of_respectsHazards h)
    have delivers := srcReadValue_exact (not_busy_of_respectsHazards h rfl) (of_decide_eq_true inside)
    exact ⟨b, hb, srcByte_of_read hb ▸ delivers⟩
  | dstRead k =>
    obtain ⟨b, hb⟩ := Option.isSome_iff_exists.1 (hinv.result k (dstRead_lt_of_respectsHazards h))
    have delivers := dstReadValue_exact (not_busy_of_respectsHazards h rfl) (of_decide_eq_true inside)
    exact ⟨b, hb, dstByte_of_read hb ▸ delivers⟩
  | regWrite r v | srcWrite k b | dstWrite k b | reset => trivial

/-- Only an unspecified read uses up a free value (log 5). -/
theorem transact_freeReads_of_specifiedRead (h : specifiedRead s t) : (transact t s).freeReads = s.freeReads := by
  cases t with
  | regRead r =>
    obtain ⟨v, hv⟩ := h
    rw [transact_regRead, hv, deliver_exact]
  | srcRead k =>
    obtain ⟨b, -, hv⟩ := h
    rw [transact_srcRead, hv, deliver_exact]
  | dstRead k =>
    obtain ⟨b, -, hv⟩ := h
    rw [transact_dstRead, hv, deliver_exact]
  | regWrite r v =>
    by_cases h0 : r = 0
    · subst h0
      by_cases hst : s.st = .busy
      · rw [transact_regWrite_of_busy hst]
      · rw [transact_regWrite_cmd hst, issue_freeReads]
    · rw [transact_regWrite_frame h0]
  | srcWrite k b => rw [transact_srcWrite_frame]
  | dstWrite k b => rw [transact_dstWrite]
  | reset => exact resetBlock_freeReads s

/-! The claims. -/

/-- Settles O29: the capacity test holds under the conditions of R249, and the reference parameters meet them on every input. -/
theorem sufficientCapacityRulesOutOverflow : Obligations.SufficientCapacityRulesOutOverflow := by
  unfold Obligations.SufficientCapacityRulesOutOverflow
  refine ⟨fun op s out hr h ho => exec_check_of_sufficientCapacity hr h ho, fun op s out hr hcfg h1 h2 ho => ?_⟩
  have inside : (input s).length ≤ Config.reference.srcCap := by
    rw [length_input, ← hcfg]
    exact hr.2
  exact exec_check_of_sufficientCapacity hr (hcfg ▸ sufficientCapacity_reference h1 h2 inside) ho

/-- Settles O60: the hazards and the invariant make the read specified, and a specified read uses up no free value. -/
theorem respectedHazardsGiveExactReads : Obligations.RespectedHazardsGiveExactReads := by
  unfold Obligations.RespectedHazardsGiveExactReads
  intro s t hinv h
  have specified := specifiedRead_of_respectsHazards hinv h
  exact ⟨specified, transact_freeReads_of_specifiedRead specified⟩

/-- Settles O8: the Reset transaction is `resetBlock`, which is defined by the table of R37. -/
theorem resetSetsEveryRegister : Obligations.ResetSetsEveryRegister := by
  unfold Obligations.ResetSetsEveryRegister
  exact fun _ => rfl

end Sys2Proof.Machine
end
